-- ==== Sys2Proof/Word.lean ====
section
/-! DEFINITION. The word type, the byte a memory cell holds, and the exact numbers the ALU computes on. -/

namespace Sys2Proof

/-- A 32-bit unsigned bit pattern: what every register and every memory slot holds (R9). -/
abbrev Word := BitVec 32

/-- One quarter of a memory slot: the unit in which the model lists memory (log entry 1). -/
abbrev Byte := BitVec 8

/-- An exact rational number: the value the ALU computes on, never a machine float (R9, D12). -/
abbrev Number := Rat

end Sys2Proof
end

