-- ==== Sys2Proof/Syntax.lean ====
section
/-! DEFINITION. The instructions of the opcode table (R82) and their operands (R85, R86). -/

namespace Sys2Proof

/-- An operand: one constructor per row of the mode table (R85) and of the mode 7 sub-codes (R86). The number is
the address field as R84 reads it, an unsigned number; `WellFormed` bounds it. The absent operand is `imm 0` (R87). -/
inductive Operand where
  /-- `#n`, mode 0: the literal n. -/
  | imm (n : Nat)
  /-- `Rn`, mode 1: register slot n. -/
  | reg (n : Nat)
  /-- `@Rn`, mode 2: register n holds a memory address. -/
  | regInd (n : Nat)
  /-- `&X`, mode 3: memory slot a. -/
  | direct (a : Nat)
  /-- `*X`, mode 4: memory slot a holds a memory address. -/
  | indirect (a : Nat)
  /-- `INDX1 B`, mode 5: displacement d from index register I1. -/
  | indexed1 (d : Nat)
  /-- `INDX2 B`, mode 6: displacement d from index register I2. -/
  | indexed2 (d : Nat)
  /-- `TOP`, mode 7 sub-code 0x00: the stack top, read without a pop. -/
  | top
  /-- `PUSH`, mode 7 sub-code 0x01: the next stack slot, as a destination. -/
  | push
  /-- `POP`, mode 7 sub-code 0x02: the popped stack top, as a source. -/
  | pop
  /-- `Rn+`, mode 7 sub-code 0x40 + n: register n holds an address and is then stepped up. -/
  | autoInc (n : Nat)
  /-- `-Rn`, mode 7 sub-code 0x80 + n: register n is stepped down and then holds an address. -/
  | autoDec (n : Nat)
deriving DecidableEq, Repr

/-- The instructions, one constructor per row of the opcode table (R82). A constructor carries the operands its
opcode uses (R89) and no others: an unused operand field has no effect (R89, D21). -/
inductive Instr where
  /-- End of program (R272). -/
  | eop
  /-- Output a value (R270). -/
  | prnt (src : Operand)
  /-- Input a value (R271). -/
  | scan (dst : Operand)
  /-- Move a value (R250). -/
  | mov (dst src : Operand)
  /-- Push a value on the stack (R251). -/
  | push (src : Operand)
  /-- Pop the top value into a location (R252). -/
  | pop (dst : Operand)
  /-- Addition (R210). -/
  | add (dst src : Operand)
  /-- Subtraction and comparison (R211). -/
  | sub (dst src : Operand)
  /-- Multiplication (R212). -/
  | mul (dst src : Operand)
  /-- Exact division (R213). -/
  | div (dst src : Operand)
  /-- Floored remainder (R214). -/
  | mod (dst src : Operand)
  /-- Call through the stack (R238). -/
  | call (target : Operand)
  /-- Return through the stack (R239). -/
  | ret
  /-- Unconditional jump (R231). -/
  | jmp (target : Operand)
  /-- Jump if the last SUB's difference was zero (R232). -/
  | jeq (target : Operand)
  /-- Jump if the last SUB's difference was non-zero (R233). -/
  | jne (target : Operand)
  /-- Jump if the last SUB's difference was negative (R234). -/
  | jlt (target : Operand)
  /-- Jump if the last SUB's difference was negative or zero (R235). -/
  | jle (target : Operand)
  /-- Jump if the last SUB's difference was positive (R236). -/
  | jgt (target : Operand)
  /-- Jump if the last SUB's difference was positive or zero (R237). -/
  | jge (target : Operand)
deriving DecidableEq, Repr

/-- How an opcode uses an operand field (R89): a location read and then written, a location written, a source
value, or a control-transfer target. -/
inductive Role where
  | readWrite
  | write
  | source
  | target
deriving DecidableEq, Repr

/-- The operands an instruction uses, in the order they are resolved, each with its role (R89). -/
def Instr.operands : Instr → List (Role × Operand)
  | .eop => []
  | .prnt src => [(.source, src)]
  | .scan dst => [(.write, dst)]
  | .mov dst src => [(.write, dst), (.source, src)]
  | .push src => [(.source, src)]
  | .pop dst => [(.write, dst)]
  | .add dst src => [(.readWrite, dst), (.source, src)]
  | .sub dst src => [(.readWrite, dst), (.source, src)]
  | .mul dst src => [(.readWrite, dst), (.source, src)]
  | .div dst src => [(.readWrite, dst), (.source, src)]
  | .mod dst src => [(.readWrite, dst), (.source, src)]
  | .call target => [(.target, target)]
  | .ret => []
  | .jmp target => [(.target, target)]
  | .jeq target => [(.target, target)]
  | .jne target => [(.target, target)]
  | .jlt target => [(.target, target)]
  | .jle target => [(.target, target)]
  | .jgt target => [(.target, target)]
  | .jge target => [(.target, target)]

end Sys2Proof
end

