-- ==== Sys2Proof/WellFormed.lean ====
section
/-! DEFINITION. Which instructions the encoding admits: every number fits its field (R84, R86, R90, R91, R102). -/

namespace Sys2Proof

/-- An operand fits its field: 8 bits for a literal, register number, memory address or displacement (R90, R91), and
6 bits for the register of an autoincrement or autodecrement (R86). -/
def Operand.wf : Operand → Bool
  | .imm n => n < 256
  | .reg n => n < 256
  | .regInd n => n < 256
  | .direct a => a < 256
  | .indirect a => a < 256
  | .indexed1 d => d < 256
  | .indexed2 d => d < 256
  | .top => true
  | .push => true
  | .pop => true
  | .autoInc n => n < 64
  | .autoDec n => n < 64

/-- An instruction is well formed when every operand it uses fits its field. -/
def Instr.wf (i : Instr) : Bool :=
  i.operands.all fun o => o.2.wf

end Sys2Proof
end

