-- ==== Sys2Proof/Decode.lean ====
section
/-! DEFINITION. The decoder (R93), total on every 32-bit word, and the encoder (R92) written from the same tables. -/

namespace Sys2Proof

/-! ## The fields of an instruction word (R80) -/

/-- `op = word[31:27]`. -/
def opField (w : Word) : BitVec 5 := w.extractLsb' 27 5

/-- `m1 = word[26:24]`. -/
def mode1Field (w : Word) : BitVec 3 := w.extractLsb' 24 3

/-- `a1 = word[23:16]`. -/
def addr1Field (w : Word) : BitVec 8 := w.extractLsb' 16 8

/-- `m2 = word[15:13]`. -/
def mode2Field (w : Word) : BitVec 3 := w.extractLsb' 13 3

/-- `a2 = word[12:5]`. -/
def addr2Field (w : Word) : BitVec 8 := w.extractLsb' 5 8

/-- The word with its reserved bits [4:0] cleared, which is the word it executes as (R88). -/
def clearReserved (w : Word) : Word := w &&& 0xFFFFFFE0#32

/-- `op[4:0] : m1[2:0] : a1[7:0] : m2[2:0] : a2[7:0] : rsv[4:0]` with the reserved bits written as 0 (R80, R88). -/
def packWord (op : BitVec 5) (m1 : BitVec 3) (a1 : BitVec 8) (m2 : BitVec 3) (a2 : BitVec 8) : Word :=
  op ++ m1 ++ a1 ++ m2 ++ a2 ++ 0#5

/-! ## Decoding -/

/-- What the decoder answers (R93). -/
inductive Decoded where
  /-- The all-zero word, whatever its reserved bits: the end of the program (R88, R190). -/
  | halt
  /-- A reserved opcode (R83). -/
  | unknown (op : Nat)
  /-- A reserved mode 7 sub-code in the used operand k, which is 1 or 2 (R86). -/
  | badOperand (k : Nat)
  /-- An instruction with the operands its opcode uses. -/
  | instr (i : Instr)
deriving DecidableEq, Repr

/-- A mode 7 address field (R86): `a[7:6]` selects, `a[5:0]` is the sub-code or the register number. `none` is a
reserved sub-code. -/
def decodeSpecial (a : BitVec 8) : Option Operand :=
  match (a.extractLsb' 6 2).toNat, (a.extractLsb' 0 6).toNat with
  | 0, 0 => some .top
  | 0, 1 => some .push
  | 0, 2 => some .pop
  | 1, n => some (.autoInc n)
  | 2, n => some (.autoDec n)
  | _, _ => none

/-- An operand field pair (R85). `none` is a reserved mode 7 sub-code. -/
def decodeOperand (m : BitVec 3) (a : BitVec 8) : Option Operand :=
  match m.toNat with
  | 0 => some (.imm a.toNat)
  | 1 => some (.reg a.toNat)
  | 2 => some (.regInd a.toNat)
  | 3 => some (.direct a.toNat)
  | 4 => some (.indirect a.toNat)
  | 5 => some (.indexed1 a.toNat)
  | 6 => some (.indexed2 a.toNat)
  | _ => decodeSpecial a

/-- The word of an opcode that uses operand 1 only. -/
def decodeOne (w : Word) (build : Operand → Instr) : Decoded :=
  match decodeOperand (mode1Field w) (addr1Field w) with
  | none => .badOperand 1
  | some o => .instr (build o)

/-- The word of an opcode that uses both operands: operand 1 is checked before operand 2 (R93). -/
def decodeTwo (w : Word) (build : Operand → Operand → Instr) : Decoded :=
  match decodeOperand (mode1Field w) (addr1Field w) with
  | none => .badOperand 1
  | some o1 =>
    match decodeOperand (mode2Field w) (addr2Field w) with
    | none => .badOperand 2
    | some o2 => .instr (build o1 o2)

/-- The opcode map (R82): the opcode alone selects the instruction. Every number R82 does not list spells none (R83). -/
def decodeByOpcode (w : Word) : Decoded :=
  match (opField w).toNat with
  | 0x00 => .instr .eop
  | 0x01 => decodeOne w .prnt
  | 0x02 => decodeOne w .scan
  | 0x08 => decodeTwo w .mov
  | 0x09 => decodeOne w .push
  | 0x0A => decodeOne w .pop
  | 0x10 => decodeTwo w .add
  | 0x11 => decodeTwo w .sub
  | 0x12 => decodeTwo w .mul
  | 0x13 => decodeTwo w .div
  | 0x14 => decodeTwo w .mod
  | 0x15 => decodeOne w .call
  | 0x16 => .instr .ret
  | 0x18 => decodeOne w .jmp
  | 0x19 => decodeOne w .jeq
  | 0x1A => decodeOne w .jne
  | 0x1B => decodeOne w .jlt
  | 0x1C => decodeOne w .jle
  | 0x1D => decodeOne w .jgt
  | 0x1E => decodeOne w .jge
  | op => .unknown op

/-- The decoder (R93): total, and the reserved bits [4:0] play no part, the all-zero test included (R88, C9; log
entry 5). -/
def decode (w : Word) : Decoded :=
  if clearReserved w = 0#32 then .halt else decodeByOpcode w

/-- The instruction a table word spells. A row's word is the machine's one word, whatever bits of it the table
numbers. The all-zero word is the assembled `EOP` (R82, R272), which `decode` calls the end of the program. -/
def decodeTableWord (nbits w : Nat) : Option Instr :=
  match decode (BitVec.ofNat 32 (w % 2 ^ nbits)) with
  | .halt => some .eop
  | .unknown _ => none
  | .badOperand _ => none
  | .instr i => some i

/-! ## Encoding -/

/-- The mode code of an operand (R85). -/
def modeCode : Operand → BitVec 3
  | .imm _ => 0
  | .reg _ => 1
  | .regInd _ => 2
  | .direct _ => 3
  | .indirect _ => 4
  | .indexed1 _ => 5
  | .indexed2 _ => 6
  | .top => 7
  | .push => 7
  | .pop => 7
  | .autoInc _ => 7
  | .autoDec _ => 7

/-- The address field of an operand (R85, R86). -/
def addrCode : Operand → BitVec 8
  | .imm n => BitVec.ofNat 8 n
  | .reg n => BitVec.ofNat 8 n
  | .regInd n => BitVec.ofNat 8 n
  | .direct a => BitVec.ofNat 8 a
  | .indirect a => BitVec.ofNat 8 a
  | .indexed1 d => BitVec.ofNat 8 d
  | .indexed2 d => BitVec.ofNat 8 d
  | .top => 0x00
  | .push => 0x01
  | .pop => 0x02
  | .autoInc n => BitVec.ofNat 8 (0x40 + n)
  | .autoDec n => BitVec.ofNat 8 (0x80 + n)

/-- `OPCODE[mn]` of R92: the 5-bit opcode of an instruction (R82). -/
def opcode : Instr → BitVec 5
  | .eop => 0x00
  | .prnt _ => 0x01
  | .scan _ => 0x02
  | .mov _ _ => 0x08
  | .push _ => 0x09
  | .pop _ => 0x0A
  | .add _ _ => 0x10
  | .sub _ _ => 0x11
  | .mul _ _ => 0x12
  | .div _ _ => 0x13
  | .mod _ _ => 0x14
  | .call _ => 0x15
  | .ret => 0x16
  | .jmp _ => 0x18
  | .jeq _ => 0x19
  | .jne _ => 0x1A
  | .jlt _ => 0x1B
  | .jle _ => 0x1C
  | .jgt _ => 0x1D
  | .jge _ => 0x1E

/-- `EncodeInstr` (R92): the operands the instruction has, missing ones as mode 0, address 0. -/
def encodeInstr (i : Instr) : Word :=
  match i.operands with
  | [] => packWord (opcode i) 0 0 0 0
  | [o] => packWord (opcode i) (modeCode o.2) (addrCode o.2) 0 0
  | o1 :: o2 :: _ => packWord (opcode i) (modeCode o1.2) (addrCode o1.2) (modeCode o2.2) (addrCode o2.2)

end Sys2Proof
end

