-- ==== Sys2Proof/Config.lean ====
section
/-! DEFINITION. The implementation parameters of R7 and their default values. -/

namespace Sys2Proof

/-- The named parameters the machine is built and launched with (R7). `CODE_END` is not among them: the loader
computes it from the program's length (R332). -/
structure Params where
  /-- `NREG`, the number of register-file slots. -/
  nreg : Nat
  /-- `NMEM`, the number of memory slots. -/
  nmem : Nat
  /-- `CODE_BASE`, the program counter at reset. -/
  codeBase : Nat
  /-- `STACK_BASE`, the fixed base pointer. -/
  stackBase : Nat
  /-- `IDX1_REG`, the register slot of I1. -/
  idx1Reg : Nat
  /-- `IDX2_REG`, the register slot of I2. -/
  idx2Reg : Nat
deriving DecidableEq, Repr

/-- The spec's own default values (R7). -/
def Params.default : Params where
  nreg := 16
  nmem := 256
  codeBase := 0
  stackBase := 224
  idx1Reg := 14
  idx2Reg := 15

/-- The constraints of R7 on the parameters. -/
abbrev Params.Ok (p : Params) : Prop :=
  (16 ≤ p.nreg ∧ p.nreg ≤ 256) ∧ 256 ≤ p.nmem ∧ p.codeBase < p.nmem ∧ p.stackBase < p.nmem ∧
    p.idx1Reg ≠ p.idx2Reg ∧ p.idx1Reg < p.nreg ∧ p.idx2Reg < p.nreg

end Sys2Proof
end

