-- ==== Sys2Proof/Machine/State.lean ====
section
/-! DEFINITION. The machine's state as plain data (R30), the reasons a step can stop, and the state after reset. -/

namespace Sys2Proof.Machine

/-! ## Condition, faults and status -/

/-- `CC`, the sign of the most recent SUB's exact difference (R37). -/
inductive Cond where
  | lt
  | eq
  | gt
deriving DecidableEq, Repr

/-- The six fault kinds of R300. `assemblyError` arises only at assembly and never in a run. -/
inductive FaultKind where
  | assemblyError
  | addressFault
  | arithmeticFault
  | stackFault
  | unknownOpcodeFault
  | encodeFault
deriving DecidableEq, Repr

/-- The reasons of R300 that arise at run time. The two reasons spelled `Underflow` there are told apart by their
kind: `underflow` serves StackFault and EncodeFault alike. -/
inductive FaultReason where
  | outOfRange
  | notInteger
  | noLocation
  | noValue
  | divideByZero
  | moduloByZero
  | underflow
  | empty
  | reservedOpcode
  | reservedOperand
  | overflow
deriving DecidableEq, Repr

/-- A run-time fault with the offending value R302 asks to be recorded: one constructor per row of R301. -/
inductive FaultCause where
  /-- AddressFault(OutOfRange, reg n): register number n is at or above NREG (R33). -/
  | registerOutOfRange (n : Nat)
  /-- AddressFault(OutOfRange, v): the integer v is outside memory (R61, R171). -/
  | addressOutOfRange (v : Number)
  /-- AddressFault(NotInteger, v): the address v is no integer (R61). -/
  | addressNotInteger (v : Number)
  /-- AddressFault(NoLocation): the operand names no location or no target (R161, R162, R167, R168). -/
  | noLocation
  /-- AddressFault(NoValue): a push destination has no value to read (R168, R175). -/
  | noValue
  /-- ArithmeticFault(DivideByZero), recovered (R213). -/
  | divideByZero
  /-- ArithmeticFault(ModuloByZero), recovered (R214). -/
  | moduloByZero
  /-- StackFault(Underflow): a pop of the empty stack (R172). -/
  | stackUnderflow
  /-- StackFault(Empty): the top of the empty stack (R173). -/
  | stackEmpty
  /-- UnknownOpcodeFault(ReservedOpcode, op) (R83). -/
  | reservedOpcode (op : Nat)
  /-- UnknownOpcodeFault(ReservedOperand, k) (R86). -/
  | reservedOperand (k : Nat)
  /-- EncodeFault(Overflow, v) (R135). -/
  | encodeOverflow (v : Number)
  /-- EncodeFault(Underflow, v) (R138). -/
  | encodeUnderflow (v : Number)
deriving DecidableEq, Repr

/-- Why a run halted cleanly (R40). -/
inductive HaltReason where
  /-- EOP executed (R272). -/
  | eop
  /-- A fetch found an all-zero word, its reserved bits aside (R88), or an address past the program (R190). -/
  | endOfProgram
deriving DecidableEq, Repr

/-- The run status (R40). -/
inductive Status where
  | running
  | halted (why : HaltReason)
  | faulted (kind : FaultKind) (reason : FaultReason) (pc : Nat)
deriving DecidableEq, Repr

/-- One entry of the diagnostic channel (R340): a recovered ArithmeticFault or the fatal fault record, with the
address of the faulting instruction (R302). -/
structure Report where
  cause : FaultCause
  pc : Nat
deriving DecidableEq, Repr

/-! ## The state -/

/-- The memory array (R43) as a list of cells in one canonical form. Slot a is held as the four cells 4a to 4a + 3
(log entry 1). An unlisted cell reads as 0, the reset contents (R330). -/
abbrev Memory := List Host.Cell

/-- The launch constants, which no instruction writes (R30, R7). `NREG` is the length of the register file. -/
structure Launch where
  /-- `NMEM`, the number of memory slots. -/
  nmem : Nat
  /-- `IDX1_REG`, the register slot of I1. -/
  idx1Reg : Nat
  /-- `IDX2_REG`, the register slot of I2. -/
  idx2Reg : Nat
  /-- `SPR`, the fixed stack base pointer (R38). -/
  spr : Nat
  /-- `CODE_END`, one past the last assembled word (R332). -/
  codeEnd : Nat
deriving DecidableEq, Repr

/-- The architectural state (R30) and the CORE's channels (R340). -/
structure State where
  /-- The register file: slot n is entry n, and `NREG` is the length (R31). -/
  regs : List Word
  /-- The memory array (R43). -/
  mem : Memory
  /-- `PC`, the address of the next instruction to fetch (R35). -/
  pc : Nat
  /-- `IR`, the address of the instruction most recently fetched (R36). -/
  ir : Nat
  /-- `TSP`, the top-of-stack pointer (R39). -/
  tsp : Nat
  /-- `CC`, the condition state (R37). -/
  cc : Cond
  /-- The run status (R40). -/
  status : Status
  /-- The launch constants (R7, R30). -/
  launch : Launch
  /-- The input channel (R340): the values the host supplies to SCAN, the next one first (log entry 3). -/
  input : List Number
  /-- The output channel (R340): the values printed so far, the oldest first. -/
  output : List Number
  /-- The diagnostic channel (R340): the reports so far, the oldest first. -/
  diag : List Report
deriving DecidableEq, Repr

/-! ## The reasons a step can stop -/

/-- Why no step exists. Both are the spec's own ends of a run and are safe: the model never goes on where the
hardware stops, nor stops where it goes on (R40, R196). A fatal fault of an instruction is not one of these: it is a
next state whose status is `faulted` (R303). -/
inductive Fault where
  /-- Raised by `step` alone, when the run has halted cleanly: no further step exists (R40). Safe. -/
  | runHalted
  /-- Raised by `step` alone, when a fatal fault has ended the run: no further step exists (R40). Safe. -/
  | runFaulted
deriving DecidableEq, Repr

/-- Why an instruction is refused. -/
inductive Refusal where
  /-- An instruction without a meaning yet, by its mnemonic. No arm raises it: every instruction has its meaning. Safe. -/
  | notModelled (mnemonic : String)
deriving DecidableEq, Repr

/-! ## Reset -/

/-- The reset state of R330 for the parameters p, before the loader's image: nothing is loaded, so `CODE_END` is
`CODE_BASE` plus the length 0 (R332). -/
def State.resetWith (p : Params) : State where
  regs := List.replicate p.nreg 0#32
  mem := []
  pc := p.codeBase
  ir := 0
  tsp := p.stackBase
  cc := .eq
  status := .running
  launch := { nmem := p.nmem, idx1Reg := p.idx1Reg, idx2Reg := p.idx2Reg, spr := p.stackBase, codeEnd := p.codeBase }
  input := []
  output := []
  diag := []

/-- The machine right after reset, with the default parameters of R7. -/
def State.reset : State := State.resetWith Params.default

end Sys2Proof.Machine
end

