-- ==== Sys2Proof/Machine/Flags.lean ====
section
/-! DEFINITION. The one flag computation, CC from SUB's difference (R37, R211), and the conditions jumps test. -/

namespace Sys2Proof.Machine

/-- The sign of an exact difference: LT if negative, EQ if zero, GT if positive (R37, R211). -/
def condOf (r : Number) : Cond :=
  if r < 0 then .lt else if r = 0 then .eq else .gt

/-- `always` (R231). -/
def condAlways (_ : Cond) : Bool := true

/-- `CC == EQ` (R232). -/
def condEq : Cond → Bool
  | .lt => false
  | .eq => true
  | .gt => false

/-- `CC != EQ` (R233). -/
def condNe : Cond → Bool
  | .lt => true
  | .eq => false
  | .gt => true

/-- `CC == LT` (R234). -/
def condLt : Cond → Bool
  | .lt => true
  | .eq => false
  | .gt => false

/-- `CC == LT or CC == EQ` (R235). -/
def condLe : Cond → Bool
  | .lt => true
  | .eq => true
  | .gt => false

/-- `CC == GT` (R236). -/
def condGt : Cond → Bool
  | .lt => false
  | .eq => false
  | .gt => true

/-- `CC == GT or CC == EQ` (R237). -/
def condGe : Cond → Bool
  | .lt => false
  | .eq => true
  | .gt => true

end Sys2Proof.Machine
end

