-- ==== Sys2Proof/Machine/Codec.lean ====
section
/-! DEFINITION. `custom_fp_codec`: the encoder (R132 to R135, R138) and the decoder (R136, R137). It has no state. -/

namespace Sys2Proof.Machine

/-! ## The encoded word (R130) -/

/-- The sign bit s, `w[31]`. -/
def signField (w : Word) : BitVec 1 := w.extractLsb' 31 1

/-- The biased exponent B, `w[30:23]`. -/
def exponentField (w : Word) : BitVec 8 := w.extractLsb' 23 8

/-- The fraction F, `w[22:0]`. -/
def fractionField (w : Word) : BitVec 23 := w.extractLsb' 0 23

/-- The exponent bias, 127. -/
def bias : Int := 127

/-- `s[0] : B[7:0] : F[22:0]`. -/
def packFields (s : BitVec 1) (B : BitVec 8) (F : BitVec 23) : Word := s ++ B ++ F

/-! ## Encode (toWord) -/

/-- The reasons of EncodeFault (R140). -/
inductive EncodeReason where
  | overflow
  | underflow
deriving DecidableEq, Repr

/-- What the encoder answers: a word, or EncodeFault with its reason (R145). -/
inductive Encoded where
  | word (w : Word)
  | fault (r : EncodeReason)
deriving DecidableEq, Repr

/-- `FloorLog2(a)` for a > 0 (R133), exact: the bit lengths of numerator and denominator give the exponent to
within one, and an exact comparison settles it. -/
def floorLog2 (a : Number) : Int :=
  let k : Int := (a.num.natAbs.log2 : Int) - (a.den.log2 : Int)
  if (2 : Rat) ^ k ≤ a then k else k - 1

/-- The loop of R134: n more bits of m, doubled out from the most significant down, onto the bits F. -/
def extractBits (n : Nat) (m : Number) (F : Nat) : Nat :=
  match n with
  | 0 => F
  | k + 1 => if 1 ≤ 2 * m then extractBits k (2 * m - 1) (2 * F + 1) else extractBits k (2 * m) (2 * F)

/-- `ExtractBits23(m)` (R134). -/
def extractBits23 (m : Number) : Nat := extractBits 23 m 0

/-- The sign bit of a number: 1 when it is negative (R132). -/
def signBit (v : Number) : BitVec 1 := if v < 0 then 1 else 0

/-- `encode(v)` (R132). -/
def encode (v : Number) : Encoded :=
  if v = 0 then .word 0x00000000#32
  else
    let e := floorLog2 |v|
    let B := e + bias
    if 255 < B then .fault .overflow
    else if B < 0 then .fault .underflow
    else .word (packFields (signBit v) (BitVec.ofInt 8 B) (BitVec.ofNat 23 (extractBits23 (|v| / (2 : Rat) ^ e - 1))))

/-! ## Decode (toDecimal) -/

/-- `Value(w)` (R136): the exact value of a word, before rounding. -/
def wordValue (w : Word) : Number :=
  if w = 0x00000000#32 then 0
  else
    (if signField w = 1 then -1 else 1) * (2 : Rat) ^ ((exponentField w).toNat - bias) *
      (1 + (fractionField w).toNat / 2 ^ 23)

/-- `RoundHalfEven(x)` (R137): the nearest integer, and the even one when x lies halfway. -/
def roundHalfEven (x : Number) : Int :=
  let f := x.floor
  let r := x - f
  if r < 1 / 2 then f
  else if 1 / 2 < r then f + 1
  else if f % 2 = 0 then f
  else f + 1

/-- The count of hundredths the decoder may return (R145). -/
def decodeHundredths (w : Word) : Int := roundHalfEven (wordValue w * 100)

/-- `decode(w)` (R136), total on every word. -/
def decodeNum (w : Word) : Number := (decodeHundredths w : Rat) / 100

/-- The numbers that are integer multiples of 1/100, the range of the decoder (R9). -/
abbrev IsDec2 (v : Number) : Prop := (v * 100).den = 1

end Sys2Proof.Machine
end

