-- ==== Sys2Proof/Machine/Memory.lean ====
section
/-! DEFINITION. Reading and writing the memory array, which is held as a canonical list of cells (R43, R60). -/

namespace Sys2Proof.Machine

/-- What an unlisted cell reads as: the reset contents 0x00000000 of every slot (R330). -/
def unlistedByte : Byte := 0#8

/-- The byte of cell k. -/
def readByte (m : Memory) (k : Nat) : Byte :=
  match m with
  | [] => unlistedByte
  | c :: rest => if c.1 = k then c.2 else readByte rest k

/-- Cell k with the byte b put in front of the cells above it. A byte that an unlisted cell reads as is not listed. -/
def consCell (k : Nat) (b : Byte) (m : Memory) : Memory :=
  if b = unlistedByte then m else (k, b) :: m

/-- Memory with cell k holding the byte b. -/
def writeByte (m : Memory) (k : Nat) (b : Byte) : Memory :=
  match m with
  | [] => consCell k b []
  | c :: rest =>
    if k < c.1 then consCell k b (c :: rest)
    else if k = c.1 then consCell k b rest
    else c :: writeByte rest k b

/-- The canonical form: cells strictly rising, and none that holds what an unlisted cell reads as. -/
abbrev Memory.wf (m : Memory) : Prop :=
  m.Pairwise (fun c d => c.1 < d.1) ∧ ∀ c ∈ m, c.2 ≠ unlistedByte

/-- The four cells of slot a, the least significant byte in the first (log entry 1). -/
def slotCell (a lane : Nat) : Nat := 4 * a + lane

/-- `MemRead(a)`: the word in memory slot a (R10). -/
def readSlot (m : Memory) (a : Nat) : Word :=
  readByte m (slotCell a 3) ++ readByte m (slotCell a 2) ++ readByte m (slotCell a 1) ++ readByte m (slotCell a 0)

/-- `MemWrite(a, w)`: memory with the word w in slot a (R10). -/
def writeSlot (m : Memory) (a : Nat) (w : Word) : Memory :=
  writeByte
    (writeByte
      (writeByte (writeByte m (slotCell a 0) (w.extractLsb' 0 8)) (slotCell a 1) (w.extractLsb' 8 8))
      (slotCell a 2) (w.extractLsb' 16 8))
    (slotCell a 3) (w.extractLsb' 24 8)

/-- Every listed cell belongs to a slot below n. -/
abbrev Memory.within (m : Memory) (n : Nat) : Prop := ∀ c ∈ m, c.1 < 4 * n

end Sys2Proof.Machine
end

