-- ==== Sys2Proof/Machine/Ops.lean ====
section
/-! DEFINITION. The shared operations: faults and their entry, register and memory access, the stack protocol, the
locations an instruction writes, and the program counter. -/

namespace Sys2Proof.Machine

/-! ## Faults (60_exceptions.md) -/

/-- The kind of a fault (R300). -/
def FaultCause.kind : FaultCause → FaultKind
  | .registerOutOfRange _ => .addressFault
  | .addressOutOfRange _ => .addressFault
  | .addressNotInteger _ => .addressFault
  | .noLocation => .addressFault
  | .noValue => .addressFault
  | .divideByZero => .arithmeticFault
  | .moduloByZero => .arithmeticFault
  | .stackUnderflow => .stackFault
  | .stackEmpty => .stackFault
  | .reservedOpcode _ => .unknownOpcodeFault
  | .reservedOperand _ => .unknownOpcodeFault
  | .encodeOverflow _ => .encodeFault
  | .encodeUnderflow _ => .encodeFault

/-- The reason of a fault (R300). -/
def FaultCause.reason : FaultCause → FaultReason
  | .registerOutOfRange _ => .outOfRange
  | .addressOutOfRange _ => .outOfRange
  | .addressNotInteger _ => .notInteger
  | .noLocation => .noLocation
  | .noValue => .noValue
  | .divideByZero => .divideByZero
  | .moduloByZero => .moduloByZero
  | .stackUnderflow => .underflow
  | .stackEmpty => .empty
  | .reservedOpcode _ => .reservedOpcode
  | .reservedOperand _ => .reservedOperand
  | .encodeOverflow _ => .overflow
  | .encodeUnderflow _ => .underflow

/-- The numeric code of a fault kind (R300). -/
def FaultKind.code : FaultKind → Nat
  | .assemblyError => 1
  | .addressFault => 2
  | .arithmeticFault => 3
  | .stackFault => 4
  | .unknownOpcodeFault => 5
  | .encodeFault => 6

/-- The fatal flag of a fault kind: every kind but ArithmeticFault stops the run (R300, R302). -/
def FaultKind.fatal : FaultKind → Bool
  | .assemblyError => true
  | .addressFault => true
  | .arithmeticFault => false
  | .stackFault => true
  | .unknownOpcodeFault => true
  | .encodeFault => true

/-- A report on the diagnostic channel, with the address of the instruction at work (R302, R304). -/
def report (c : FaultCause) (s : State) : State :=
  { s with diag := s.diag ++ [{ cause := c, pc := s.pc }] }

/-- FATAL FAULT ENTRY (R303): the status becomes `Faulted(kind, reason, PC)` and the record goes out on the
diagnostic channel. PC and IR keep the faulting instruction's address, and what earlier stages wrote stays (R305).
There is no handler and no return (R307). -/
def takeFault (c : FaultCause) (s : State) : State :=
  { report c s with status := .faulted c.kind c.reason s.pc }

/-- A clean halt: the status becomes `Halted(why)` and PC stays (R190, R272). -/
def haltWith (why : HaltReason) (s : State) : State :=
  { s with status := .halted why }

/-! ## Results of the parts of an instruction -/

/-- What a part of an instruction answers: a value and the state it leaves, or a fatal fault raised in the state
that the writes before it left (R11, R305). -/
inductive Res (α : Type) where
  | ok (a : α) (s : State)
  | raise (c : FaultCause) (s : State)
deriving DecidableEq, Repr

/-- One part, then the next: a raise ends the instruction (R11). -/
def Res.bind {α β : Type} (r : Res α) (f : α → State → Res β) : Res β :=
  match r with
  | .ok a s => f a s
  | .raise c s => .raise c s

/-- The end of an instruction whose parts answer the next PC: PC is updated once, after the last write, and not at
all when a fatal fault was raised (R191, R195). -/
def conclude (r : Res Nat) : Host.Outcome State Fault Refusal :=
  match r with
  | .ok next s => .next { s with pc := next }
  | .raise c s => .next (takeFault c s)

/-- `next = PC + 1`, never wrapped (R191). -/
def advance (s : State) : Res Nat := .ok (s.pc + 1) s

/-! ## Registers and memory -/

/-- `NREG`, the number of register slots (R31). -/
abbrev State.nreg (s : State) : Nat := s.regs.length

/-- `CheckReg(n)` (R160, R33). -/
def checkReg (n : Nat) (s : State) : Res Nat :=
  if n < s.nreg then .ok n s else .raise (.registerOutOfRange n) s

/-- `CheckAddr(v)` (R61): an integer in [0, NMEM), or AddressFault; nothing is clamped or rounded. -/
def checkAddr (v : Number) (s : State) : Res Nat :=
  if v.den ≠ 1 then .raise (.addressNotInteger v) s
  else if v.num < 0 ∨ (s.launch.nmem : Int) ≤ v.num then .raise (.addressOutOfRange v) s
  else .ok v.num.toNat s

/-- The word in register slot n (R31). -/
def regWord (s : State) (n : Nat) : Word := s.regs.getD n 0#32

/-- The state with the word w in register slot n. -/
def setReg (n : Nat) (w : Word) (s : State) : State := { s with regs := s.regs.set n w }

/-- The state with the word w in memory slot p. -/
def setSlot (p : Nat) (w : Word) (s : State) : State := { s with mem := writeSlot s.mem p w }

/-- The value of register n: `decode(reg[CheckReg(n)])` (R34, R162). -/
def readReg (n : Nat) (s : State) : Res Number :=
  (checkReg n s).bind fun r s1 => .ok (decodeNum (regWord s1 r)) s1

/-- A data read of slot p: `decode(MemRead(p))` (R63). An address outside memory raises AddressFault (R61). -/
def readMem (p : Nat) (s : State) : Res Number :=
  (checkAddr p s).bind fun a s1 => .ok (decodeNum (readSlot s1.mem a)) s1

/-- `encode(v)`, with EncodeFault raised (R132, R174). -/
def encodeOrRaise (v : Number) (s : State) : Res Word :=
  match encode v with
  | .word w => .ok w s
  | .fault .overflow => .raise (.encodeOverflow v) s
  | .fault .underflow => .raise (.encodeUnderflow v) s

/-- `reg[n] <- w` (R10); a number at or above NREG raises AddressFault (R33). -/
def writeReg (n : Nat) (w : Word) (s : State) : Res Unit :=
  (checkReg n s).bind fun r s1 => .ok () (setReg r w s1)

/-- `MemWrite(p, w)` (R10); an address outside memory raises AddressFault (R61). -/
def writeMem (p : Nat) (w : Word) (s : State) : Res Unit :=
  (checkAddr p s).bind fun a s1 => .ok () (setSlot a w s1)

/-! ## The stack protocol (R170 to R173) -/

/-- `Push(w)` (R170): a push that would move TSP to NMEM or beyond raises AddressFault and changes nothing (R171). -/
def push (w : Word) (s : State) : Res Unit :=
  if s.launch.nmem ≤ s.tsp + 1 then .raise (.addressOutOfRange (s.tsp + 1 : Nat)) s
  else .ok () (setSlot (s.tsp + 1) w { s with tsp := s.tsp + 1 })

/-- `Pop()` (R172): the slot that was popped keeps its word. -/
def pop (s : State) : Res Number :=
  if s.tsp ≤ s.launch.spr then .raise .stackUnderflow s
  else (readMem s.tsp s).bind fun v s1 => .ok v { s1 with tsp := s1.tsp - 1 }

/-- `Top()` (R173). -/
def top (s : State) : Res Number :=
  if s.tsp ≤ s.launch.spr then .raise .stackEmpty s else readMem s.tsp s

/-! ## Locations (R160, R174) -/

/-- A location: a register slot, a memory slot, or the next stack slot (R160). -/
inductive Loc where
  | regL (n : Nat)
  | memL (p : Nat)
  | pushL
deriving DecidableEq, Repr

/-- `ReadLoc(L)` (R160): a push destination has no value. -/
def readLoc (L : Loc) (s : State) : Res Number :=
  match L with
  | .regL n => readReg n s
  | .memL p => readMem p s
  | .pushL => .raise .noValue s

/-- The write half of `WriteLoc` (R174): the encoded word into the location. -/
def storeLoc (L : Loc) (w : Word) (s : State) : Res Unit :=
  match L with
  | .regL n => writeReg n w s
  | .memL p => writeMem p w s
  | .pushL => push w s

/-- `WriteLoc(L, v)` (R174): the value is encoded first, so a value that does not encode writes nothing, and of a push
it leaves TSP unchanged (R170). DESIGN CHOICE, log entry 18: where the stack is full and the value does not encode
either, EncodeFault is the fault taken, although R306 lists a full stack before it. -/
def writeLoc (L : Loc) (v : Number) (s : State) : Res Unit :=
  (encodeOrRaise v s).bind fun w s1 => storeLoc L w s1

/-! ## Fetch (R190) -/

/-- What a fetch answers: the end of the program, or a raw instruction word, no numeric decode (R62). -/
inductive Fetched where
  | ended
  | word (w : Word)
deriving DecidableEq, Repr

/-- `Fetch()` (R190): past the program, past memory, or an all-zero word is a clean end and no fault. A word with
nothing but reserved bits runs as the all-zero word (R88, C9; log entry 5). -/
def fetch (s : State) : Fetched :=
  if s.launch.codeEnd ≤ s.pc ∨ s.launch.nmem ≤ s.pc then .ended
  else if clearReserved (readSlot s.mem s.pc) = 0#32 then .ended
  else .word (readSlot s.mem s.pc)

end Sys2Proof.Machine
end

