-- ==== Sys2Proof/Machine/Operands.lean ====
section
/-! DEFINITION. `addressing_resolver`: an operand as an effective address, a value, a location or a target (R160). -/

namespace Sys2Proof.Machine

/-- `EA(2, a)` (R163): the address register n holds. -/
def eaRegInd (n : Nat) (s : State) : Res Nat :=
  (readReg n s).bind fun v s1 => checkAddr v s1

/-- `EA(3, a)` (R164): the address itself. The check never raises on an encoded address, as NMEM ≥ 256. -/
def eaDirect (a : Nat) (s : State) : Res Nat :=
  checkAddr a s

/-- `EA(4, a)` (R165): the address memory slot a holds. -/
def eaIndirect (a : Nat) (s : State) : Res Nat :=
  (readMem a s).bind fun v s1 => checkAddr v s1

/-- `EA(5, a)` and `EA(6, a)` (R166): index register plus displacement. The index register's number is below NREG (R7). -/
def eaIndexed (idx d : Nat) (s : State) : Res Nat :=
  (readReg idx s).bind fun v s1 => checkAddr (v + d) s1

/-- `EA_inc(n)` (R169): the address is checked before the register is stepped. -/
def eaInc (n : Nat) (s : State) : Res Nat :=
  (readReg n s).bind fun v s1 =>
  (checkAddr v s1).bind fun p s2 =>
  (writeLoc (.regL n) (p + 1) s2).bind fun _ s3 => .ok p s3

/-- `EA_dec(n)` (R169): the stepped-down address is checked before the register is written. -/
def eaDec (n : Nat) (s : State) : Res Nat :=
  (readReg n s).bind fun v s1 =>
  (checkAddr (v - 1) s1).bind fun p s2 =>
  (writeLoc (.regL n) p s2).bind fun _ s3 => .ok p s3

/-- `Val(m, a)` (R160 to R169): the operand's value, with its side effects. -/
def val (o : Operand) (s : State) : Res Number :=
  match o with
  | .imm n => .ok n s
  | .reg n => readReg n s
  | .regInd n => (eaRegInd n s).bind fun p s1 => readMem p s1
  | .direct a => (eaDirect a s).bind fun p s1 => readMem p s1
  | .indirect a => (eaIndirect a s).bind fun p s1 => readMem p s1
  | .indexed1 d => (eaIndexed s.launch.idx1Reg d s).bind fun p s1 => readMem p s1
  | .indexed2 d => (eaIndexed s.launch.idx2Reg d s).bind fun p s1 => readMem p s1
  | .top => top s
  | .push => .raise .noValue s
  | .pop => pop s
  | .autoInc n => (eaInc n s).bind fun p s1 => readMem p s1
  | .autoDec n => (eaDec n s).bind fun p s1 => readMem p s1

/-- `Loc(m, a)` (R160 to R169): the operand's location, with its side effects. -/
def loc (o : Operand) (s : State) : Res Loc :=
  match o with
  | .imm _ => .raise .noLocation s
  | .reg n => (checkReg n s).bind fun r s1 => .ok (.regL r) s1
  | .regInd n => (eaRegInd n s).bind fun p s1 => .ok (.memL p) s1
  | .direct a => (eaDirect a s).bind fun p s1 => .ok (.memL p) s1
  | .indirect a => (eaIndirect a s).bind fun p s1 => .ok (.memL p) s1
  | .indexed1 d => (eaIndexed s.launch.idx1Reg d s).bind fun p s1 => .ok (.memL p) s1
  | .indexed2 d => (eaIndexed s.launch.idx2Reg d s).bind fun p s1 => .ok (.memL p) s1
  | .top => .raise .noLocation s
  | .push => .ok .pushL s
  | .pop => .raise .noLocation s
  | .autoInc n => (eaInc n s).bind fun p s1 => .ok (.memL p) s1
  | .autoDec n => (eaDec n s).bind fun p s1 => .ok (.memL p) s1

/-- `Tgt(m, a)` (R160 to R169): the operand's control-transfer target, with its side effects. It is always a valid
address (R230). -/
def tgt (o : Operand) (s : State) : Res Nat :=
  match o with
  | .imm n => checkAddr n s
  | .reg _ => .raise .noLocation s
  | .regInd n => eaRegInd n s
  | .direct a => eaDirect a s
  | .indirect a => eaIndirect a s
  | .indexed1 d => eaIndexed s.launch.idx1Reg d s
  | .indexed2 d => eaIndexed s.launch.idx2Reg d s
  | .top => .raise .noLocation s
  | .push => .raise .noLocation s
  | .pop => .raise .noLocation s
  | .autoInc n => eaInc n s
  | .autoDec n => eaDec n s

end Sys2Proof.Machine
end

