-- ==== Sys2Proof/Machine/Arithmetic.lean ====
section
/-! DEFINITION. `alu_datapath`: ADD, SUB, MUL, DIV and MOD (43_arithmetic.md). -/

namespace Sys2Proof.Machine

/-- What the ALU computes: the exact result, and the recovered fault to report, if there is one (R215, R304). -/
structure AluResult where
  result : Number
  recovered : Option FaultCause
deriving DecidableEq, Repr

/-- `x + y` (R210). -/
def aluAdd (x y : Number) : AluResult := { result := x + y, recovered := none }

/-- `x - y` (R211). -/
def aluSub (x y : Number) : AluResult := { result := x - y, recovered := none }

/-- `x × y` (R212). -/
def aluMul (x y : Number) : AluResult := { result := x * y, recovered := none }

/-- The exact quotient; a zero divisor is the recovered fault with the neutral result 0 (R213). -/
def aluDiv (x y : Number) : AluResult :=
  if y = 0 then { result := 0, recovered := some .divideByZero } else { result := x / y, recovered := none }

/-- The floored remainder; a zero divisor is the recovered fault with the neutral result 0 (R214). -/
def aluMod (x y : Number) : AluResult :=
  if y = 0 then { result := 0, recovered := some .moduloByZero }
  else { result := x - y * (x / y).floor, recovered := none }

/-- The recovered fault's report, if there is one (R304). -/
def reportRecovered (c : Option FaultCause) (s : State) : State :=
  match c with
  | none => s
  | some c => report c s

/-- The template of the arithmetic class (R209): operand 1 is resolved once, read, and written back with the exact
result, which the template answers (R175). -/
def arith (op : Number → Number → AluResult) (dst src : Operand) (s : State) : Res Number :=
  (loc dst s).bind fun L s1 =>
  (readLoc L s1).bind fun x s2 =>
  (val src s2).bind fun y s3 =>
  (writeLoc L (op x y).result (reportRecovered (op x y).recovered s3)).bind fun _ s4 => .ok (op x y).result s4

/-- `ADD dst, src` (R210). -/
def execAdd (dst src : Operand) (s : State) : Host.Outcome State Fault Refusal :=
  conclude ((arith aluAdd dst src s).bind fun _ s1 => advance s1)

/-- `SUB dst, src` (R211): CC gets the sign of the exact difference, after the location is written. -/
def execSub (dst src : Operand) (s : State) : Host.Outcome State Fault Refusal :=
  conclude ((arith aluSub dst src s).bind fun r s1 => advance { s1 with cc := condOf r })

/-- `MUL dst, src` (R212). -/
def execMul (dst src : Operand) (s : State) : Host.Outcome State Fault Refusal :=
  conclude ((arith aluMul dst src s).bind fun _ s1 => advance s1)

/-- `DIV dst, src` (R213). -/
def execDiv (dst src : Operand) (s : State) : Host.Outcome State Fault Refusal :=
  conclude ((arith aluDiv dst src s).bind fun _ s1 => advance s1)

/-- `MOD dst, src` (R214). -/
def execMod (dst src : Operand) (s : State) : Host.Outcome State Fault Refusal :=
  conclude ((arith aluMod dst src s).bind fun _ s1 => advance s1)

end Sys2Proof.Machine
end

