-- ==== Sys2Proof/Machine/ControlTransfer.lean ====
section
/-! DEFINITION. The jumps, CALL and RET (44_control_transfer.md). -/

namespace Sys2Proof.Machine

/-- The template of the jump class (R230): the target is resolved before the condition is tested, taken or not. -/
def jump (cond : Cond → Bool) (target : Operand) (s : State) : Res Nat :=
  (tgt target s).bind fun t s1 => if cond s1.cc then .ok t s1 else advance s1

/-- `JMP target` (R231). -/
def execJmp (target : Operand) (s : State) : Host.Outcome State Fault Refusal :=
  conclude (jump condAlways target s)

/-- `JEQ target` (R232). -/
def execJeq (target : Operand) (s : State) : Host.Outcome State Fault Refusal :=
  conclude (jump condEq target s)

/-- `JNE target` (R233). -/
def execJne (target : Operand) (s : State) : Host.Outcome State Fault Refusal :=
  conclude (jump condNe target s)

/-- `JLT target` (R234). -/
def execJlt (target : Operand) (s : State) : Host.Outcome State Fault Refusal :=
  conclude (jump condLt target s)

/-- `JLE target` (R235). -/
def execJle (target : Operand) (s : State) : Host.Outcome State Fault Refusal :=
  conclude (jump condLe target s)

/-- `JGT target` (R236). -/
def execJgt (target : Operand) (s : State) : Host.Outcome State Fault Refusal :=
  conclude (jump condGt target s)

/-- `JGE target` (R237). -/
def execJge (target : Operand) (s : State) : Host.Outcome State Fault Refusal :=
  conclude (jump condGe target s)

/-- `CALL target` (R238): the target is resolved, then the encoded return address PC + 1 is pushed. -/
def execCall (target : Operand) (s : State) : Host.Outcome State Fault Refusal :=
  conclude <|
    (tgt target s).bind fun t s1 =>
    (writeLoc .pushL (s1.pc + 1 : Nat) s1).bind fun _ s2 => .ok t s2

/-- `RET` (R239): a popped value that is no valid address faults after the pop, which stays done (R305). -/
def execRet (s : State) : Host.Outcome State Fault Refusal :=
  conclude ((pop s).bind fun v s1 => checkAddr v s1)

end Sys2Proof.Machine
end

