-- ==== Sys2Proof/Machine/DataMovement.lean ====
section
/-! DEFINITION. MOV, PUSH and POP (45_data_movement.md). -/

namespace Sys2Proof.Machine

/-- `MOV dst, src` (R250): the value is copied through the codec, not the word. -/
def execMov (dst src : Operand) (s : State) : Host.Outcome State Fault Refusal :=
  conclude <|
    (loc dst s).bind fun L s1 =>
    (val src s1).bind fun v s2 =>
    (writeLoc L v s2).bind fun _ s3 => advance s3

/-- `PUSH src` (R251). -/
def execPush (src : Operand) (s : State) : Host.Outcome State Fault Refusal :=
  conclude <|
    (val src s).bind fun v s1 =>
    (writeLoc .pushL v s1).bind fun _ s2 => advance s2

/-- `POP dst` (R252): the destination is resolved before the pop. -/
def execPop (dst : Operand) (s : State) : Host.Outcome State Fault Refusal :=
  conclude <|
    (loc dst s).bind fun L s1 =>
    (pop s1).bind fun v s2 =>
    (writeLoc L v s2).bind fun _ s3 => advance s3

end Sys2Proof.Machine
end

