-- ==== Sys2Proof/Machine/IoControl.lean ====
section
/-! DEFINITION. PRNT, SCAN and EOP (46_io_control.md). -/

namespace Sys2Proof.Machine

/-- `Output(v)` (R270): v is appended to the output channel. -/
def emit (v : Number) (s : State) : State := { s with output := s.output ++ [v] }

/-- `PRNT src` (R270). -/
def execPrnt (src : Operand) (s : State) : Host.Outcome State Fault Refusal :=
  conclude ((val src s).bind fun v s1 => advance (emit v s1))

/-- `SCAN dst` (R271). The resolution faults of the destination come before the wait. With no input supplied the
CORE waits: it stays Running at this instruction, and the next state is this one, whole, with the destination not
yet resolved (R197, R315, log entry 4). -/
def execScan (dst : Operand) (s : State) : Host.Outcome State Fault Refusal :=
  match loc dst s, s.input with
  | .raise c s1, _ => .next (takeFault c s1)
  | .ok _ _, [] => .next s
  | .ok L s1, v :: rest =>
    conclude ((writeLoc L v { s1 with input := rest }).bind fun _ s2 => advance s2)

/-- `EOP` (R272): PC keeps its address. -/
def execEop (s : State) : Host.Outcome State Fault Refusal :=
  .next (haltWith .eop s)

end Sys2Proof.Machine
end

