-- ==== Sys2Proof/Machine/Dispatch.lean ====
section
/-! DEFINITION. One arm per instruction (R194). -/

namespace Sys2Proof.Machine

/-- The effect of one instruction, its PC update included (R193, R195). -/
def exec (i : Instr) (s : State) : Host.Outcome State Fault Refusal :=
  match i with
  | .eop => Sys2Proof.Machine.execEop s
  | .prnt src => Sys2Proof.Machine.execPrnt src s
  | .scan dst => Sys2Proof.Machine.execScan dst s
  | .mov dst src => Sys2Proof.Machine.execMov dst src s
  | .push src => Sys2Proof.Machine.execPush src s
  | .pop dst => Sys2Proof.Machine.execPop dst s
  | .add dst src => Sys2Proof.Machine.execAdd dst src s
  | .sub dst src => Sys2Proof.Machine.execSub dst src s
  | .mul dst src => Sys2Proof.Machine.execMul dst src s
  | .div dst src => Sys2Proof.Machine.execDiv dst src s
  | .mod dst src => Sys2Proof.Machine.execMod dst src s
  | .call target => Sys2Proof.Machine.execCall target s
  | .ret => Sys2Proof.Machine.execRet s
  | .jmp target => Sys2Proof.Machine.execJmp target s
  | .jeq target => Sys2Proof.Machine.execJeq target s
  | .jne target => Sys2Proof.Machine.execJne target s
  | .jlt target => Sys2Proof.Machine.execJlt target s
  | .jle target => Sys2Proof.Machine.execJle target s
  | .jgt target => Sys2Proof.Machine.execJgt target s
  | .jge target => Sys2Proof.Machine.execJge target s

end Sys2Proof.Machine
end

