-- ==== Sys2Proof/Machine/Step.lean ====
section
/-! DEFINITION. The step (R195), and how a word is placed where the next step fetches it. -/

namespace Sys2Proof.Machine

/-- `Step()` (R195): fetch, IR, decode, execute. A run that has ended has no step (R40). -/
def step (s : State) : Host.Outcome State Fault Refusal :=
  match s.status with
  | .halted _ => .fault .runHalted
  | .faulted _ _ _ => .fault .runFaulted
  | .running =>
    match fetch s with
    | .ended => .next (haltWith .endOfProgram s)
    | .word w =>
      match decode w with
      | .halt => .next (haltWith .endOfProgram s)
      | .unknown op => .next (takeFault (.reservedOpcode op) { s with ir := s.pc })
      | .badOperand k => .next (takeFault (.reservedOperand k) { s with ir := s.pc })
      | .instr i => exec i { s with ir := s.pc }

/-- The state with an instruction word in the slot that the next fetch reads, and `CODE_END` above it, as the
loader would leave it (R332). -/
def State.withFetchWord (s : State) (nbits w : Nat) : State :=
  { s with
    mem := writeSlot s.mem s.pc (BitVec.ofNat 32 (w % 2 ^ nbits))
    launch := { s.launch with codeEnd := max s.launch.codeEnd (s.pc + 1) } }

end Sys2Proof.Machine
end

