-- ==== Sys2Proof/Machine/HostInterface.lean ====
section
/-! DEFINITION. The host's side of the CORE at transaction level (R332, R340): load, input, exit code, readback. -/

namespace Sys2Proof.Machine

/-- The data image as encoded words (R332 item 1). `none`: a value that does not encode has no word. -/
def encodeImage (image : List (Nat × Number)) : Option (List (Nat × Word)) :=
  match image with
  | [] => some []
  | (a, v) :: rest =>
    match encode v, encodeImage rest with
    | .word w, some ws => some ((a, w) :: ws)
    | .word _, none => none
    | .fault _, _ => none

/-- Words stored verbatim, each in its slot, in list order (R64, R332). -/
def placeWords (words : List (Nat × Word)) (m : Memory) : Memory :=
  match words with
  | [] => m
  | (a, w) :: rest => placeWords rest (writeSlot m a w)

/-- The instruction words at base, base + 1, ... (R106, R332 item 2). -/
def placeProgram (base : Nat) (program : List Word) (m : Memory) : Memory :=
  match program with
  | [] => m
  | w :: rest => placeProgram (base + 1) rest (writeSlot m base w)

/-- THE LOADER (R332): from the reset state of R330, the data image, then the program's words over it, then
`CODE_END`. `none` where the loader refuses: parameters outside R7, an image slot outside memory, or a program
longer than `NMEM − CODE_BASE` words (R106). -/
def load (p : Params) (image : List (Nat × Word)) (program : List Word) : Option State :=
  if p.Ok ∧ (∀ c ∈ image, c.1 < p.nmem) ∧ program.length ≤ p.nmem - p.codeBase then
    let s := State.resetWith p
    some { s with
      mem := placeProgram p.codeBase program (placeWords image s.mem)
      launch := { s.launch with codeEnd := p.codeBase + program.length } }
  else none

/-- A SCAN waits: the run is Running at a SCAN whose destination resolves, and no input is there (R271). -/
def waiting (s : State) : Bool :=
  match s.status, fetch s, s.input with
  | .running, .word w, [] =>
    match decode w with
    | .instr (.scan dst) =>
      match loc dst s with
      | .ok _ _ => true
      | .raise _ _ => false
    | _ => false
  | _, _, _ => false

/-- The host's answer to a SCAN: one number, and only while a SCAN waits (R340). `none`: no SCAN waits, so the channel
takes nothing. A second number for the same SCAN is refused, because the answered SCAN no longer waits. -/
def supplyInput (v : Number) (s : State) : Option State :=
  if waiting s then some { s with input := [v] } else none

/-- The exit code the host sees (R340). Which non-zero number it is, the host chooses (U10). -/
inductive ExitCode where
  | zero
  | nonZero
deriving DecidableEq, Repr

/-- The exit code of an ended run: 0 for a clean halt, non-zero for a fault; none while it runs (R340). -/
def exitCode (s : State) : Option ExitCode :=
  match s.status with
  | .running => none
  | .halted _ => some .zero
  | .faulted _ _ _ => some .nonZero

/-- What the host may read back (R340). -/
structure Readback where
  regs : List Word
  mem : List Word
  pc : Nat
  tsp : Nat
  cc : Cond
deriving DecidableEq, Repr

/-- Readback, after the end of the run only (R340). -/
def readback (s : State) : Option Readback :=
  match exitCode s with
  | none => none
  | some _ =>
    some { regs := s.regs, mem := (List.range s.launch.nmem).map (readSlot s.mem), pc := s.pc, tsp := s.tsp, cc := s.cc }

end Sys2Proof.Machine
end

