-- ==== Sys2Proof/Machine/Toolchain.lean ====
section
/-! DEFINITION. The toolchain syntax of 30_encoding.md section 5: assembler (R100 to R106) and disassembler (R107).
It is software outside the CORE (R5): no step reads it. -/

namespace Sys2Proof.Machine

/-- A whitespace-separated word of a source line (R100). -/
abbrev Token := List Char

/-- Why the assembler rejects a program (R300). -/
inductive AsmReason where
  /-- AssemblyError(UnknownMnemonic) (R101). -/
  | unknownMnemonic
  /-- AssemblyError(BadBracket): malformed bracket-index syntax (R104 item 3). -/
  | badBracket
  /-- AssemblyError(OperandCount) (R89, R92). -/
  | operandCount
  /-- AssemblyError(BadOperand) (R90, R102, R103). -/
  | badOperand
  /-- AddressFault(UndefinedSymbol) (R102). -/
  | undefinedSymbol
  /-- AssemblyError for a program too long to place (R106). R300 lists no reason for it; the name is the model's
  (log entry 11). -/
  | programTooLong
deriving DecidableEq, Repr

/-- The fault kind of an assembly-time error: an undefined symbol is an AddressFault, every other an AssemblyError
(R102, R106, R300). -/
def AsmReason.kind : AsmReason → FaultKind
  | .unknownMnemonic => .assemblyError
  | .badBracket => .assemblyError
  | .operandCount => .assemblyError
  | .badOperand => .assemblyError
  | .undefinedSymbol => .addressFault
  | .programTooLong => .assemblyError

/-- The numeric code of an assembly-time error: that of its kind (R300). -/
def AsmReason.code (r : AsmReason) : Nat := r.kind.code

/-! ## Mnemonics (R89, R101) -/

/-- The twenty mnemonics (R101). -/
inductive Mnemonic where
  | eop | prnt | scan | mov | push | pop | add | sub | mul | div | mod | call | ret
  | jmp | jeq | jne | jlt | jle | jgt | jge
deriving DecidableEq, Repr

/-- The spelling of a mnemonic (R82). -/
def Mnemonic.name : Mnemonic → Token
  | .eop => "EOP".toList
  | .prnt => "PRNT".toList
  | .scan => "SCAN".toList
  | .mov => "MOV".toList
  | .push => "PUSH".toList
  | .pop => "POP".toList
  | .add => "ADD".toList
  | .sub => "SUB".toList
  | .mul => "MUL".toList
  | .div => "DIV".toList
  | .mod => "MOD".toList
  | .call => "CALL".toList
  | .ret => "RET".toList
  | .jmp => "JMP".toList
  | .jeq => "JEQ".toList
  | .jne => "JNE".toList
  | .jlt => "JLT".toList
  | .jle => "JLE".toList
  | .jgt => "JGT".toList
  | .jge => "JGE".toList

/-- Every mnemonic once. -/
def allMnemonics : List Mnemonic :=
  [.eop, .prnt, .scan, .mov, .push, .pop, .add, .sub, .mul, .div, .mod, .call, .ret,
   .jmp, .jeq, .jne, .jlt, .jle, .jgt, .jge]

/-- The mnemonic a token spells, without regard to case (R101). -/
def mnemonicOf (t : Token) : Option Mnemonic :=
  allMnemonics.find? fun m => m.name = t.map Char.toUpper

/-- `COUNT[mn]`: how many operands a mnemonic takes (R89, R92). -/
def Mnemonic.count : Mnemonic → Nat
  | .eop => 0
  | .prnt => 1
  | .scan => 1
  | .mov => 2
  | .push => 1
  | .pop => 1
  | .add => 2
  | .sub => 2
  | .mul => 2
  | .div => 2
  | .mod => 2
  | .call => 1
  | .ret => 0
  | .jmp => 1
  | .jeq => 1
  | .jne => 1
  | .jlt => 1
  | .jle => 1
  | .jgt => 1
  | .jge => 1

/-- The instruction of a mnemonic and its operands; `none` where there are not `COUNT[mn]` of them (R89, R92). -/
def buildInstr (m : Mnemonic) (ops : List Operand) : Option Instr :=
  match m, ops with
  | .eop, [] => some .eop
  | .ret, [] => some .ret
  | .prnt, [o] => some (.prnt o)
  | .scan, [o] => some (.scan o)
  | .push, [o] => some (.push o)
  | .pop, [o] => some (.pop o)
  | .call, [o] => some (.call o)
  | .jmp, [o] => some (.jmp o)
  | .jeq, [o] => some (.jeq o)
  | .jne, [o] => some (.jne o)
  | .jlt, [o] => some (.jlt o)
  | .jle, [o] => some (.jle o)
  | .jgt, [o] => some (.jgt o)
  | .jge, [o] => some (.jge o)
  | .mov, [a, b] => some (.mov a b)
  | .add, [a, b] => some (.add a b)
  | .sub, [a, b] => some (.sub a b)
  | .mul, [a, b] => some (.mul a b)
  | .div, [a, b] => some (.div a b)
  | .mod, [a, b] => some (.mod a b)
  | _, _ => none

/-- The mnemonics with a compound form (R104 item 2). -/
def isConditionalJump : Mnemonic → Bool
  | .jeq => true
  | .jne => true
  | .jlt => true
  | .jle => true
  | .jgt => true
  | .jge => true
  | _ => false

/-! ## Decimal numbers -/

/-- The value of one more decimal digit. -/
def digitStep (acc : Option Nat) (c : Char) : Option Nat :=
  match acc with
  | none => none
  | some n => if c.isDigit then some (10 * n + (c.toNat - '0'.toNat)) else none

/-- A decimal number: one or more digits. -/
def parseDec (t : Token) : Option Nat :=
  match t with
  | [] => none
  | c :: rest => (c :: rest).foldl digitStep (some 0)

/-- A number in decimal, without leading zeros. -/
def renderDec (n : Nat) : Token := Nat.toDigits 10 n

/-! ## Operands (R102) -/

/-- A number that fits a field of `bound` values, or AssemblyError (R90, R102). -/
def fitting (bound : Nat) (n : Nat) : Except AsmReason Nat :=
  if n < bound then .ok n else .error .badOperand

/-- The dedicated registers are no operands (R103). -/
def dedicatedNames : List Token := ["PC".toList, "IR".toList, "SPR".toList, "TSP".toList]

/-- `Rn`. -/
def parseRn (t : Token) : Option Nat :=
  match t with
  | 'R' :: ds => parseDec ds
  | _ => none

/-- `Rn`, `I1` or `I2`. -/
def parseReg (p : Params) (t : Token) : Option Nat :=
  if t = "I1".toList then some p.idx1Reg
  else if t = "I2".toList then some p.idx2Reg
  else parseRn t

/-- The symbol table: the loader's array pointers and the labels (R103). -/
abbrev Symbols := List (Token × Nat)

/-- The address of a symbol, which must fit the 8-bit field (R102, R103). -/
def resolveSymbol (syms : Symbols) (t : Token) : Except AsmReason Nat :=
  if t ∈ dedicatedNames then .error .badOperand
  else
    match syms.lookup t with
    | none => .error .undefinedSymbol
    | some a => fitting 256 a

/-- `n` or `NAME`. -/
def parseAddress (syms : Symbols) (t : Token) : Except AsmReason Nat :=
  match parseDec t with
  | some n => fitting 256 n
  | none => resolveSymbol syms t

/-- What stands after `&` or `*`: `n`, `Rn` (the number itself) or `NAME` (R102). DESIGN CHOICE, log entry 19: R102 lists
`&Rn` and not `*Rn`, and the model reads `*Rn` as it reads `&Rn`, so as indirect through slot n; `I1` and `I2` here are
names. -/
def parseSlot (syms : Symbols) (t : Token) : Except AsmReason Nat :=
  match parseRn t with
  | some n => fitting 256 n
  | none => parseAddress syms t

/-- An operand from a number that must fit. -/
def withNumber (build : Nat → Operand) (r : Except AsmReason Nat) : Except AsmReason Operand :=
  match r with
  | .ok n => .ok (build n)
  | .error e => .error e

/-- An operand from an optional number that must fit. -/
def withOption (bound : Nat) (build : Nat → Operand) (r : Option Nat) : Except AsmReason Operand :=
  match r with
  | some n => withNumber build (fitting bound n)
  | none => .error .badOperand

/-- A token without a leading sigil: a stack pseudo-operand, `Rn+`, a register name, or a bare address. -/
def parseBare (p : Params) (syms : Symbols) (t : Token) : Except AsmReason Operand :=
  if t = "TOP".toList then .ok .top
  else if t = "PUSH".toList then .ok .push
  else if t = "POP".toList then .ok .pop
  else if t.getLast? = some '+' then withOption 64 .autoInc (parseRn t.dropLast)
  else
    match parseReg p t with
    | some n => withNumber .reg (fitting 256 n)
    | none => withNumber .direct (parseAddress syms t)

/-- One operand written as one token (R102). -/
def parseOperand (p : Params) (syms : Symbols) (t : Token) : Except AsmReason Operand :=
  match t with
  | '#' :: rest => withOption 256 .imm (parseDec rest)
  | '@' :: rest => withOption 256 .regInd (parseReg p rest)
  | '&' :: rest => withNumber .direct (parseSlot syms rest)
  | '*' :: rest => withNumber .indirect (parseSlot syms rest)
  | '-' :: rest => withOption 64 .autoDec (parseRn rest)
  | t => parseBare p syms t

/-- One more operand in front of the parsed rest. -/
def consOperand (o : Except AsmReason Operand) (os : Except AsmReason (List Operand)) : Except AsmReason (List Operand) :=
  match o, os with
  | .ok o, .ok os => .ok (o :: os)
  | .error e, _ => .error e
  | .ok _, .error e => .error e

/-- An operand as it is written: one token, or the two tokens of an indexed operand, whose base is kept (R102). -/
inductive OperandText where
  | single (t : Token)
  | indexed1 (base : Token)
  | indexed2 (base : Token)
deriving DecidableEq, Repr

/-- The operands that the tokens spell: `INDX1 B` and `INDX2 B` take two tokens, every other operand one (R102).
DESIGN CHOICE, log entry 17: a last token `INDX1` or `INDX2`, with no base after it, is an operand of one token, so it
is read as a bare symbol of that name. -/
def splitOperands (ts : List Token) : List OperandText :=
  match ts with
  | [] => []
  | [t] => [.single t]
  | t :: u :: rest =>
    if t = "INDX1".toList then .indexed1 u :: splitOperands rest
    else if t = "INDX2".toList then .indexed2 u :: splitOperands rest
    else .single t :: splitOperands (u :: rest)

/-- `Operand` of R92 on one written operand (R102). -/
def parseOperandText (p : Params) (syms : Symbols) : OperandText → Except AsmReason Operand
  | .single t => parseOperand p syms t
  | .indexed1 base => withNumber .indexed1 (parseAddress syms base)
  | .indexed2 base => withNumber .indexed2 (parseAddress syms base)

/-- `Operand` of R92 on every written operand, operand 1 first. -/
def parseOperands (p : Params) (syms : Symbols) (os : List OperandText) : Except AsmReason (List Operand) :=
  match os with
  | [] => .ok []
  | o :: rest => consOperand (parseOperandText p syms o) (parseOperands p syms rest)

/-! ## Pass 1: macro expansion (R104) -/

/-- What a source line expands to: labels, which emit no word, and instructions, which emit one each. -/
inductive SourceItem where
  | label (name : Token)
  | instr (mnemonic : Token) (operands : List Token)
deriving DecidableEq, Repr

/-- `BASE[I1]` becomes `INDX1 BASE` and `BASE[I2]` becomes `INDX2 BASE`. Any other index name and any malformed
bracket, an empty base or a bracket out of place, is AssemblyError(BadBracket) (R104 item 3, R300). -/
def rewriteBracket (t : Token) : Except AsmReason (List Token) :=
  if t.contains '[' || t.contains ']' then
    let base := t.takeWhile (· ≠ '[')
    let index := (t.dropWhile (· ≠ '[')).drop 1
    if base = [] ∨ base.contains ']' then .error .badBracket
    else if index = "I1]".toList then .ok ["INDX1".toList, base]
    else if index = "I2]".toList then .ok ["INDX2".toList, base]
    else .error .badBracket
  else .ok [t]

/-- The bracket rewriting over all operand tokens. -/
def rewriteBrackets (ts : List Token) : Except AsmReason (List Token) :=
  match ts with
  | [] => .ok []
  | t :: rest =>
    match rewriteBracket t, rewriteBrackets rest with
    | .ok us, .ok vs => .ok (us ++ vs)
    | .error e, _ => .error e
    | .ok _, .error e => .error e

/-- The compound conditional jump, four tokens, becomes SUB and the jump (R104 item 2). -/
def expandCompound (ts : List Token) : List SourceItem :=
  match ts with
  | [] => []
  | [m, a, b, target] =>
    match mnemonicOf m with
    | none => [.instr m [a, b, target]]
    | some mn =>
      if isConditionalJump mn then [.instr Mnemonic.sub.name [a, b], .instr m [target]] else [.instr m [a, b, target]]
  | m :: ops => [.instr m ops]

/-- A line whose only token ends with a colon declares a label (R104 item 1). -/
def expandLine (ts : List Token) : List SourceItem :=
  match ts with
  | [t] => if t.getLast? = some ':' then [.label t.dropLast] else expandCompound [t]
  | ts => expandCompound ts

/-- The bracket rewriting of one expanded instruction's operands (R104 item 3). -/
def rewriteItem : SourceItem → Except AsmReason SourceItem
  | .label n => .ok (.label n)
  | .instr m ops =>
    match rewriteBrackets ops with
    | .ok ts => .ok (.instr m ts)
    | .error e => .error e

/-- The bracket rewriting of the expanded program (R104 item 3). -/
def rewriteItems (items : List SourceItem) : Except AsmReason (List SourceItem) :=
  match items with
  | [] => .ok []
  | i :: rest =>
    match rewriteItem i, rewriteItems rest with
    | .ok j, .ok js => .ok (j :: js)
    | .error e, _ => .error e
    | .ok _, .error e => .error e

/-- PASS 1 (R104): every source line expanded and its bracket operands rewritten. -/
def expandProgram (lines : List (List Token)) : Except AsmReason (List SourceItem) :=
  rewriteItems (lines.flatMap expandLine)

/-- Each label with the address of the next word emitted (R104 item 1). -/
def bindLabels (addr : Nat) (items : List SourceItem) : Symbols :=
  match items with
  | [] => []
  | .label n :: rest => (n, addr) :: bindLabels addr rest
  | .instr _ _ :: rest => bindLabels (addr + 1) rest

/-! ## Pass 2: encoding and placement (R92, R106) -/

/-- `EncodeInstr` of R92 on one expanded instruction: the mnemonic is looked up first, then the operands are counted,
then operand 1 is read, and then operand 2. -/
def assembleInstr (p : Params) (syms : Symbols) (m : Token) (ops : List Token) : Except AsmReason Word :=
  match mnemonicOf m with
  | none => .error .unknownMnemonic
  | some mn =>
    if (splitOperands ops).length ≠ mn.count then .error .operandCount
    else
      match parseOperands p syms (splitOperands ops) with
      | .error e => .error e
      | .ok os =>
        match buildInstr mn os with
        | none => .error .operandCount
        | some i => .ok (encodeInstr i)

/-- The words of the expanded program; a label emits none. -/
def assembleItems (p : Params) (syms : Symbols) (items : List SourceItem) : Except AsmReason (List Word) :=
  match items with
  | [] => .ok []
  | .label _ :: rest => assembleItems p syms rest
  | .instr m ops :: rest =>
    match assembleInstr p syms m ops, assembleItems p syms rest with
    | .ok w, .ok ws => .ok (w :: ws)
    | .error e, _ => .error e
    | .ok _, .error e => .error e

/-- THE ASSEMBLER: from tokenized source lines and the loader's symbols to the program's words (R92, R104, R106).
DESIGN CHOICE, log entry 17: of several errors in one program, the one reported is the first that pass 1 finds in any
line, else the first that pass 2 finds, else that the program is too long. -/
def assemble (p : Params) (arrays : Symbols) (lines : List (List Token)) : Except AsmReason (List Word) :=
  match expandProgram lines with
  | .error e => .error e
  | .ok items =>
    match assembleItems p (bindLabels p.codeBase items ++ arrays) items with
    | .error e => .error e
    | .ok ws => if ws.length ≤ p.nmem - p.codeBase then .ok ws else .error .programTooLong

/-! ## Disassembly (R107) -/

/-- The canonical spelling of an operand (R107). -/
def renderOperand : Operand → List Token
  | .imm n => ['#' :: renderDec n]
  | .reg n => ['R' :: renderDec n]
  | .regInd n => ['@' :: 'R' :: renderDec n]
  | .direct a => ['&' :: renderDec a]
  | .indirect a => ['*' :: renderDec a]
  | .indexed1 d => ["INDX1".toList, renderDec d]
  | .indexed2 d => ["INDX2".toList, renderDec d]
  | .top => ["TOP".toList]
  | .push => ["PUSH".toList]
  | .pop => ["POP".toList]
  | .autoInc n => ['R' :: (renderDec n ++ ['+'])]
  | .autoDec n => ['-' :: 'R' :: renderDec n]

/-- The mnemonic of an opcode (R82); `none` for a reserved opcode. -/
def mnemonicOfOpcode (op : Nat) : Option Mnemonic :=
  match op with
  | 0x00 => some .eop
  | 0x01 => some .prnt
  | 0x02 => some .scan
  | 0x08 => some .mov
  | 0x09 => some .push
  | 0x0A => some .pop
  | 0x10 => some .add
  | 0x11 => some .sub
  | 0x12 => some .mul
  | 0x13 => some .div
  | 0x14 => some .mod
  | 0x15 => some .call
  | 0x16 => some .ret
  | 0x18 => some .jmp
  | 0x19 => some .jeq
  | 0x1A => some .jne
  | 0x1B => some .jlt
  | 0x1C => some .jle
  | 0x1D => some .jgt
  | 0x1E => some .jge
  | _ => none

/-- One operand field pair: rendered when the opcode always takes it or its bits are not all zero (R107). `none`: a
reserved sub-code, for which R107 gives no spelling. -/
def renderField (always : Bool) (m : BitVec 3) (a : BitVec 8) : Option (List Token) :=
  if always = false ∧ m = 0 ∧ a = 0 then some []
  else (decodeOperand m a).map renderOperand

/-- The n lowest bits of a number, the most significant first, as binary digits. -/
def renderBits (n v : Nat) : Token :=
  match n with
  | 0 => []
  | k + 1 => renderBits k (v / 2) ++ [if v % 2 = 1 then '1' else '0']

/-- The unknown-opcode marker `UNKNOWN(0bXXXXX)` (R107). -/
def unknownMarker (op : Nat) : Token := "UNKNOWN(0b".toList ++ renderBits 5 op ++ [')']

/-- THE DISASSEMBLER: the tokens of a word's canonical text (R107). An opcode always takes its `COUNT[mn]` operands
(R89). DESIGN CHOICE, log entry 20: of a word with a reserved opcode the marker is the whole text, whatever its operand
fields hold. -/
def disassemble (w : Word) : Option (List Token) :=
  match mnemonicOfOpcode (opField w).toNat with
  | none => some [unknownMarker (opField w).toNat]
  | some mn =>
    match renderField (decide (1 ≤ mn.count)) (mode1Field w) (addr1Field w),
      renderField (decide (2 ≤ mn.count)) (mode2Field w) (addr2Field w) with
    | some xs, some ys => some (mn.name :: (xs ++ ys))
    | _, _ => none

end Sys2Proof.Machine
end

