-- ==== Sys2Proof/Safety.lean ====
section
/-! DEFINITION. What holds of every reachable state, what a good run is, and the terms the statements use. -/

namespace Sys2Proof.Machine

/-! ## The invariant -/

/-- The launch constants obey the constraints of R7. -/
structure LaunchOk (s : State) : Prop where
  nreg_ge : 16 ≤ s.nreg
  nreg_le : s.nreg ≤ 256
  nmem_ge : 256 ≤ s.launch.nmem
  idx_ne : s.launch.idx1Reg ≠ s.launch.idx2Reg
  idx1_lt : s.launch.idx1Reg < s.nreg
  idx2_lt : s.launch.idx2Reg < s.nreg
  spr_lt : s.launch.spr < s.launch.nmem
  codeEnd_le : s.launch.codeEnd ≤ s.launch.nmem

/-- A status the run can have: a fault that ended it is of a fatal kind (R300, R303). -/
def Status.legal : Status → Bool
  | .running => true
  | .halted _ => true
  | .faulted k _ _ => k.fatal

/-- The invariant of the machine: the ranges R30 gives the pointers, the stack invariant of R39, the memory's
canonical form within the address space, a legal status, and an output channel of `Dec2` numbers (R270). -/
structure Inv (s : State) : Prop where
  launch : LaunchOk s
  mem_wf : s.mem.wf
  mem_within : s.mem.within s.launch.nmem
  pc_le : s.pc ≤ s.launch.nmem
  ir_lt : s.ir < s.launch.nmem
  spr_le_tsp : s.launch.spr ≤ s.tsp
  tsp_lt : s.tsp < s.launch.nmem
  status_legal : s.status.legal = true
  output_dec2 : ∀ v ∈ s.output, IsDec2 v

/-! ## Good runs -/

/-- The run has ended (R196). -/
def State.ended (s : State) : Bool :=
  match s.status with
  | .running => false
  | .halted _ => true
  | .faulted _ _ _ => true

/-- A fatal fault has ended the run. -/
def State.hasFaulted (s : State) : Bool :=
  match s.status with
  | .running => false
  | .halted _ => false
  | .faulted _ _ _ => true

/-! ## Operand roles -/

/-- Operand `o`, resolved by its role (R193), raises the fault `c`: `Val` for a source, `Loc` for a destination, `Loc`
and then the read for a destination that is also read, `Tgt` for a target. -/
def RaisesByRole (r : Role) (o : Operand) (c : FaultCause) (s t : State) : Prop :=
  match r with
  | .source => val o s = .raise c t
  | .write => loc o s = .raise c t
  | .readWrite => loc o s = .raise c t ∨ ∃ L s1, loc o s = .ok L s1 ∧ readLoc L s1 = .raise c t
  | .target => tgt o s = .raise c t

/-- An operand that pushes when it is written or pops when it is read (R168). -/
def operandMovesStack : Operand → Bool
  | .push => true
  | .pop => true
  | .imm _ => false
  | .reg _ => false
  | .regInd _ => false
  | .direct _ => false
  | .indirect _ => false
  | .indexed1 _ => false
  | .indexed2 _ => false
  | .top => false
  | .autoInc _ => false
  | .autoDec _ => false

/-- An instruction that can move TSP: PUSH, POP, CALL, RET, or one with a pushing or popping operand (R30, R39). -/
def movesStack (i : Instr) : Bool :=
  match i with
  | .push _ => true
  | .pop _ => true
  | .call _ => true
  | .ret => true
  | .eop => false
  | .prnt src => operandMovesStack src
  | .scan dst => operandMovesStack dst
  | .mov dst src => operandMovesStack dst || operandMovesStack src
  | .add dst src => operandMovesStack dst || operandMovesStack src
  | .sub dst src => operandMovesStack dst || operandMovesStack src
  | .mul dst src => operandMovesStack dst || operandMovesStack src
  | .div dst src => operandMovesStack dst || operandMovesStack src
  | .mod dst src => operandMovesStack dst || operandMovesStack src
  | .jmp _ => false
  | .jeq _ => false
  | .jne _ => false
  | .jlt _ => false
  | .jle _ => false
  | .jgt _ => false
  | .jge _ => false

/-! ## What an instruction may touch -/

/-- The register an operand steps when it is resolved (R169). -/
def steppedReg : Operand → List Nat
  | .autoInc n => [n]
  | .autoDec n => [n]
  | .imm _ => []
  | .reg _ => []
  | .regInd _ => []
  | .direct _ => []
  | .indirect _ => []
  | .indexed1 _ => []
  | .indexed2 _ => []
  | .top => []
  | .push => []
  | .pop => []

/-- The register an operand names as a destination in register mode (R162). -/
def namedReg : Operand → List Nat
  | .reg n => [n]
  | .autoInc _ => []
  | .autoDec _ => []
  | .imm _ => []
  | .regInd _ => []
  | .direct _ => []
  | .indirect _ => []
  | .indexed1 _ => []
  | .indexed2 _ => []
  | .top => []
  | .push => []
  | .pop => []

/-- The registers one used operand can change: the register it names, when its role writes it, and the register
it steps. -/
def operandRegs (o : Role × Operand) : List Nat :=
  match o.1 with
  | .readWrite => namedReg o.2 ++ steppedReg o.2
  | .write => namedReg o.2 ++ steppedReg o.2
  | .source => steppedReg o.2
  | .target => steppedReg o.2

/-- The registers an instruction can change. -/
def touchedRegs (i : Instr) : List Nat := i.operands.flatMap operandRegs

/-- The memory slot a location stores to, from the state the store finds: the slot itself, or the next stack slot. -/
def Loc.slot (L : Loc) (s : State) : Option Nat :=
  match L with
  | .regL _ => none
  | .memL p => some p
  | .pushL => some (s.tsp + 1)

/-- The slot an instruction of destination `dst` and source `src` stores to: `dst` is resolved first, and a push
goes above the top that the source left. -/
def storedSlotTwo (dst src : Operand) (s : State) : Option Nat :=
  match loc dst s with
  | .raise _ _ => none
  | .ok L s1 =>
    match val src s1 with
    | .raise _ _ => none
    | .ok _ s2 => L.slot s2

/-- The slot POP stores to: its destination is resolved before the pop. -/
def storedSlotPop (dst : Operand) (s : State) : Option Nat :=
  match loc dst s with
  | .raise _ _ => none
  | .ok L s1 =>
    match pop s1 with
    | .raise _ _ => none
    | .ok _ s2 => L.slot s2

/-- The slot SCAN stores to. -/
def storedSlotScan (dst : Operand) (s : State) : Option Nat :=
  match loc dst s with
  | .raise _ _ => none
  | .ok L s1 => L.slot s1

/-- The memory slot an instruction stores to, if it stores to memory: operands with their side effects first. -/
def storedSlot (i : Instr) (s : State) : Option Nat :=
  match i with
  | .eop => none
  | .prnt _ => none
  | .scan dst => storedSlotScan dst s
  | .mov dst src => storedSlotTwo dst src s
  | .push src =>
    match val src s with
    | .raise _ _ => none
    | .ok _ s1 => some (s1.tsp + 1)
  | .pop dst => storedSlotPop dst s
  | .add dst src => storedSlotTwo dst src s
  | .sub dst src => storedSlotTwo dst src s
  | .mul dst src => storedSlotTwo dst src s
  | .div dst src => storedSlotTwo dst src s
  | .mod dst src => storedSlotTwo dst src s
  | .call target =>
    match tgt target s with
    | .raise _ _ => none
    | .ok _ s1 => some (s1.tsp + 1)
  | .ret => none
  | .jmp _ => none
  | .jeq _ => none
  | .jne _ => none
  | .jlt _ => none
  | .jle _ => none
  | .jgt _ => none
  | .jge _ => none

/-- The state with the word w stored in the location: the register slot, the memory slot, or the slot above the top
of the stack, which becomes the new top (R170, R174). -/
def Loc.put (L : Loc) (w : Word) (s : State) : State :=
  match L with
  | .regL n => setReg n w s
  | .memL p => setSlot p w s
  | .pushL => setSlot (s.tsp + 1) w { s with tsp := s.tsp + 1 }

/-- Every byte of memory outside the four of the slot reads as before (all of them, where there is no slot). -/
def MemSameOutside (slot : Option Nat) (s t : State) : Prop :=
  ∀ k, (∀ p, slot = some p → k < 4 * p ∨ 4 * p + 4 ≤ k) → readByte t.mem k = readByte s.mem k

/-- Every register but the listed ones reads as before. -/
def RegsSameOutside (ns : List Nat) (s t : State) : Prop :=
  ∀ n, n ∉ ns → regWord t n = regWord s n

end Sys2Proof.Machine
end

