-- ==== Sys2Proof/Certificates/Slice0/Obligations.lean ====
section
/-! DEFINITION. The statements for the provers. -/

open Sys2Proof Sys2Proof.Machine

/-! ## Addresses and operands -/

/-- R61: an address is an integer in [0, NMEM). A number that is no integer raises NotInteger, an integer out of range
raises OutOfRange, and nothing is clamped, rounded or written. -/
def Obligations.AddressCheckFaultsAndNeverClamps : Prop :=
  ∀ (v : Number) (s : State),
    (∀ p : Nat, v = p → p < s.launch.nmem → checkAddr v s = .ok p s) ∧
    ((¬ ∃ z : Int, v = z) → checkAddr v s = .raise (.addressNotInteger v) s) ∧
    (∀ z : Int, v = z → z < 0 ∨ (s.launch.nmem : Int) ≤ z → checkAddr v s = .raise (.addressOutOfRange v) s)

/-- R161: an immediate is its own value, is no location, and as a target is the address n. -/
def Obligations.ImmediateOperandIsItsLiteral : Prop :=
  ∀ (n : Nat) (s : State),
    val (.imm n) s = .ok (n : Number) s ∧ loc (.imm n) s = .raise .noLocation s ∧
    (n ≤ 255 → 256 ≤ s.launch.nmem → tgt (.imm n) s = .ok n s)

/-- R162: a register operand reads the decoded register, is the register as a location, and is no target. A number
at or above NREG raises AddressFault(OutOfRange). -/
def Obligations.RegisterOperandIsTheSlot : Prop :=
  ∀ (n : Nat) (s : State),
    (n < s.nreg → val (.reg n) s = .ok (decodeNum (regWord s n)) s ∧ loc (.reg n) s = .ok (.regL n) s) ∧
    (s.nreg ≤ n →
      val (.reg n) s = .raise (.registerOutOfRange n) s ∧ loc (.reg n) s = .raise (.registerOutOfRange n) s) ∧
    tgt (.reg n) s = .raise .noLocation s

/-- R163: register-indirect resolves to the memory slot whose address the register holds, and raises what the register
check or the address check raises. -/
def Obligations.RegisterIndirectReachesTheSlotItHolds : Prop :=
  ∀ (n : Nat) (s : State),
    (s.nreg ≤ n →
      val (.regInd n) s = .raise (.registerOutOfRange n) s ∧ loc (.regInd n) s = .raise (.registerOutOfRange n) s ∧
      tgt (.regInd n) s = .raise (.registerOutOfRange n) s) ∧
    (n < s.nreg →
      (∀ p : Nat, decodeNum (regWord s n) = p → p < s.launch.nmem →
        val (.regInd n) s = .ok (decodeNum (readSlot s.mem p)) s ∧ loc (.regInd n) s = .ok (.memL p) s ∧
        tgt (.regInd n) s = .ok p s) ∧
      (∀ c, checkAddr (decodeNum (regWord s n)) s = .raise c s →
        val (.regInd n) s = .raise c s ∧ loc (.regInd n) s = .raise c s ∧ tgt (.regInd n) s = .raise c s))

/-- R164: direct resolves to the slot the field names, which always exists. -/
def Obligations.DirectOperandReachesItsSlot : Prop :=
  ∀ (a : Nat) (s : State), a ≤ 255 → 256 ≤ s.launch.nmem →
    val (.direct a) s = .ok (decodeNum (readSlot s.mem a)) s ∧ loc (.direct a) s = .ok (.memL a) s ∧
    tgt (.direct a) s = .ok a s

/-- R165: indirect resolves to the slot whose address the named slot holds, and raises what the address check raises. -/
def Obligations.IndirectOperandFollowsThePointerCell : Prop :=
  ∀ (a : Nat) (s : State), a ≤ 255 → 256 ≤ s.launch.nmem →
    (∀ p : Nat, decodeNum (readSlot s.mem a) = p → p < s.launch.nmem →
      val (.indirect a) s = .ok (decodeNum (readSlot s.mem p)) s ∧ loc (.indirect a) s = .ok (.memL p) s ∧
      tgt (.indirect a) s = .ok p s) ∧
    (∀ c, checkAddr (decodeNum (readSlot s.mem a)) s = .raise c s →
      val (.indirect a) s = .raise c s ∧ loc (.indirect a) s = .raise c s ∧ tgt (.indirect a) s = .raise c s)

/-- What R166 says of one indexed operand: `idx` is the slot of its index register and `d` the displacement. -/
def IndexedReaches (o : Operand) (idx d : Nat) (s : State) : Prop :=
  (∀ p : Nat, decodeNum (regWord s idx) + d = p → p < s.launch.nmem →
    val o s = .ok (decodeNum (readSlot s.mem p)) s ∧ loc o s = .ok (.memL p) s ∧ tgt o s = .ok p s) ∧
  (∀ c, checkAddr (decodeNum (regWord s idx) + d) s = .raise c s →
    val o s = .raise c s ∧ loc o s = .raise c s ∧ tgt o s = .raise c s)

/-- R166: indexed resolves to the slot at index register plus displacement, for I1 and for I2. -/
def Obligations.IndexedOperandAddsTheDisplacement : Prop :=
  ∀ (d : Nat) (s : State),
    (s.launch.idx1Reg < s.nreg → IndexedReaches (.indexed1 d) s.launch.idx1Reg d s) ∧
    (s.launch.idx2Reg < s.nreg → IndexedReaches (.indexed2 d) s.launch.idx2Reg d s)

/-- R167 and R168: TOP is a value only, PUSH a location only, POP a value only, and none is a target. -/
def Obligations.StackOperandsAdmitTheirOneUse : Prop :=
  ∀ s : State,
    val .top s = top s ∧ loc .top s = .raise .noLocation s ∧ tgt .top s = .raise .noLocation s ∧
    val .push s = .raise .noValue s ∧ loc .push s = .ok .pushL s ∧ tgt .push s = .raise .noLocation s ∧
    val .pop s = pop s ∧ loc .pop s = .raise .noLocation s ∧ tgt .pop s = .raise .noLocation s

/-- What R169 says of one stepping operand: `before` is the address it holds, `after` the register's new value. -/
def StepsThrough (o : Operand) (n : Nat) (before : Number) (after : Nat → Number) (s : State) : Prop :=
  (∀ p : Nat, before = p → p < s.launch.nmem → ∃ w, encode (after p) = .word w ∧
    val o s = .ok (decodeNum (readSlot s.mem p)) (setReg n w s) ∧ loc o s = .ok (.memL p) (setReg n w s) ∧
    tgt o s = .ok p (setReg n w s)) ∧
  (∀ c, checkAddr before s = .raise c s → val o s = .raise c s ∧ loc o s = .raise c s ∧ tgt o s = .raise c s)

/-- R169: autoincrement uses the address and then writes address plus one; autodecrement steps down, checks, writes
and uses the lower address. A faulting address leaves the register unchanged, and the register write never faults. -/
def Obligations.AutoStepsUseAndRewriteTheirRegister : Prop :=
  ∀ (n : Nat) (s : State),
    (n < s.nreg →
      StepsThrough (.autoInc n) n (decodeNum (regWord s n)) (fun p => (p : Number) + 1) s ∧
      StepsThrough (.autoDec n) n (decodeNum (regWord s n) - 1) (fun p => (p : Number)) s) ∧
    (s.nreg ≤ n → ∀ o ∈ [Operand.autoInc n, Operand.autoDec n],
      val o s = .raise (.registerOutOfRange n) s ∧ loc o s = .raise (.registerOutOfRange n) s ∧
      tgt o s = .raise (.registerOutOfRange n) s)

/-! ## The stack and the locations -/

/-- R170 and R171: a push moves TSP up one and stores the word there; a push past the last slot raises AddressFault
and changes nothing. -/
def Obligations.PushStoresAboveTheTop : Prop :=
  ∀ (w : Word) (s : State),
    (s.tsp + 1 < s.launch.nmem → push w s = .ok () (setSlot (s.tsp + 1) w { s with tsp := s.tsp + 1 })) ∧
    (s.launch.nmem ≤ s.tsp + 1 → push w s = .raise (.addressOutOfRange ((s.tsp + 1 : Nat) : Number)) s)

/-- R172: a pop of the empty stack raises StackFault(Underflow) and changes nothing; any other reads the top, moves
TSP down one and leaves the slot's word. -/
def Obligations.PopReadsTheTopAndKeepsTheSlot : Prop :=
  ∀ s : State,
    (s.tsp ≤ s.launch.spr → pop s = .raise .stackUnderflow s) ∧
    (s.launch.spr < s.tsp → s.tsp < s.launch.nmem →
      pop s = .ok (decodeNum (readSlot s.mem s.tsp)) { s with tsp := s.tsp - 1 })

/-- R173: the top is read without mutation, and the top of the empty stack raises StackFault(Empty). -/
def Obligations.TopReadsWithoutMutation : Prop :=
  ∀ s : State,
    (s.tsp ≤ s.launch.spr → top s = .raise .stackEmpty s) ∧
    (s.launch.spr < s.tsp → s.tsp < s.launch.nmem → top s = .ok (decodeNum (readSlot s.mem s.tsp)) s)

/-- R174: a value that does not encode writes nothing; a value that does is stored in the register, the memory slot or
the next stack slot. -/
def Obligations.WriteLocEncodesThenStores : Prop :=
  ∀ (L : Loc) (v : Number) (s : State),
    (encode v = .fault .overflow → writeLoc L v s = .raise (.encodeOverflow v) s) ∧
    (encode v = .fault .underflow → writeLoc L v s = .raise (.encodeUnderflow v) s) ∧
    (∀ w, encode v = .word w →
      (∀ n, L = .regL n → n < s.nreg → writeLoc L v s = .ok () (setReg n w s)) ∧
      (∀ p, L = .memL p → p < s.launch.nmem → writeLoc L v s = .ok () (setSlot p w s)) ∧
      (L = .pushL → writeLoc L v s = push w s))

/-! ## Arithmetic -/

/-- R210: ADD stores the exact sum in operand 1's location, goes on to the next slot, and changes nothing else but what
resolving its operands changed. -/
def Obligations.AddStoresTheExactSum : Prop :=
  ∀ (dst src : Operand) (s s1 s2 : State) (L : Loc) (x y : Number) (w : Word),
    loc dst s = .ok L s1 → readLoc L s1 = .ok x s1 → val src s1 = .ok y s2 → encode (x + y) = .word w →
    exec (.add dst src) s = .next { L.put w s2 with pc := s.pc + 1 }

/-- R211: SUB stores the exact difference and sets CC to its sign. -/
def Obligations.SubStoresTheDifferenceAndSetsCC : Prop :=
  ∀ (dst src : Operand) (s s1 s2 : State) (L : Loc) (x y : Number) (w : Word),
    loc dst s = .ok L s1 → readLoc L s1 = .ok x s1 → val src s1 = .ok y s2 → encode (x - y) = .word w →
    exec (.sub dst src) s = .next { L.put w s2 with
      pc := s.pc + 1, cc := if x < y then .lt else if x = y then .eq else .gt }

/-- R212: MUL stores the exact product. -/
def Obligations.MulStoresTheExactProduct : Prop :=
  ∀ (dst src : Operand) (s s1 s2 : State) (L : Loc) (x y : Number) (w : Word),
    loc dst s = .ok L s1 → readLoc L s1 = .ok x s1 → val src s1 = .ok y s2 → encode (x * y) = .word w →
    exec (.mul dst src) s = .next { L.put w s2 with pc := s.pc + 1 }

/-- R213: DIV by a divisor that is not 0 stores the exact quotient and reports nothing. -/
def Obligations.DivStoresTheExactQuotient : Prop :=
  ∀ (dst src : Operand) (s s1 s2 : State) (L : Loc) (x y : Number) (w : Word),
    loc dst s = .ok L s1 → readLoc L s1 = .ok x s1 → val src s1 = .ok y s2 → y ≠ 0 → encode (x / y) = .word w →
    exec (.div dst src) s = .next { L.put w s2 with pc := s.pc + 1 }

/-- R214: MOD by a divisor that is not 0 stores the floored remainder, which always encodes. -/
def Obligations.ModStoresTheFlooredRemainder : Prop :=
  ∀ (dst src : Operand) (s s1 s2 : State) (L : Loc) (x y : Number), src.wf = true →
    loc dst s = .ok L s1 → readLoc L s1 = .ok x s1 → val src s1 = .ok y s2 → y ≠ 0 →
    ∃ w, encode (x - y * ⌊x / y⌋) = .word w ∧ exec (.mod dst src) s = .next { L.put w s2 with pc := s.pc + 1 }

/-- R304: a zero divisor is recovered. DIV and MOD report ArithmeticFault with the instruction's address, store the
neutral result 0, whose word is all zero, and go on to the next slot with CC and status unchanged. -/
def Obligations.ZeroDivisorIsReportedAndRecovered : Prop :=
  ∀ (dst src : Operand) (s s1 s2 : State) (L : Loc) (x : Number),
    loc dst s = .ok L s1 → readLoc L s1 = .ok x s1 → val src s1 = .ok 0 s2 →
    exec (.div dst src) s = .next { L.put 0#32 s2 with
      pc := s.pc + 1, diag := s2.diag ++ [{ cause := .divideByZero, pc := s.pc }] } ∧
    exec (.mod dst src) s = .next { L.put 0#32 s2 with
      pc := s.pc + 1, diag := s2.diag ++ [{ cause := .moduloByZero, pc := s.pc }] }

/-- R216: a result that is not storable raises EncodeFault with the result as its value, in the state that the operands
left: ADD, SUB, MUL and DIV write nothing and leave CC and PC. -/
def Obligations.UnstorableResultRaisesEncodeFault : Prop :=
  ∀ (dst src : Operand) (s s1 s2 : State) (L : Loc) (x y r : Number) (c : FaultCause),
    loc dst s = .ok L s1 → readLoc L s1 = .ok x s1 → val src s1 = .ok y s2 →
    (encode r = .fault .overflow ∧ c = .encodeOverflow r) ∨ (encode r = .fault .underflow ∧ c = .encodeUnderflow r) →
    (r = x + y → exec (.add dst src) s = .next (takeFault c s2)) ∧
    (r = x - y → exec (.sub dst src) s = .next (takeFault c s2)) ∧
    (r = x * y → exec (.mul dst src) s = .next (takeFault c s2)) ∧
    (y ≠ 0 → r = x / y → exec (.div dst src) s = .next (takeFault c s2))

/-- R214 and R217: the floored remainder is the dividend less a whole multiple of the divisor, and it is 0 or has the
divisor's sign and a smaller magnitude. -/
def Obligations.ModResultHasTheDivisorsSign : Prop :=
  ∀ x y : Number, y ≠ 0 →
    (aluMod x y).recovered = none ∧ (∃ k : Int, (aluMod x y).result = x - y * k) ∧
    (0 < y → 0 ≤ (aluMod x y).result ∧ (aluMod x y).result < y) ∧
    (y < 0 → y < (aluMod x y).result ∧ (aluMod x y).result ≤ 0)

/-- R211, corner cases: for operands that are multiples of 1/100, CC agrees with the sign of the value SUB stored. -/
def Obligations.CCAgreesWithTheStoredDifference : Prop :=
  ∀ (x y : Number) (w : Word), IsDec2 x → IsDec2 y → encode (x - y) = .word w →
    condOf (decodeNum w) = condOf (x - y)

/-! ## Data movement -/

/-- R250: MOV stores the source's value, re-encoded, in operand 1's location. Its value always encodes (R249). Where
that location is a push and the source left the stack full, MOV raises AddressFault in the state the source left. -/
def Obligations.MovStoresTheSourceValue : Prop :=
  ∀ (dst src : Operand) (s s1 s2 : State) (L : Loc) (v : Number), src.wf = true →
    loc dst s = .ok L s1 → val src s1 = .ok v s2 →
    ((L = .pushL → s2.tsp + 1 < s2.launch.nmem) →
      ∃ w, encode v = .word w ∧ exec (.mov dst src) s = .next { L.put w s2 with pc := s.pc + 1 }) ∧
    (L = .pushL → s2.launch.nmem ≤ s2.tsp + 1 →
      exec (.mov dst src) s = .next (takeFault (.addressOutOfRange ((s2.tsp + 1 : Nat) : Number)) s2))

/-- R251: PUSH stores the source's value, re-encoded, above the top; with the stack full it raises AddressFault, with
TSP and memory as the source left them. -/
def Obligations.PushInstructionPushesTheValue : Prop :=
  ∀ (src : Operand) (s s1 : State) (v : Number), src.wf = true → val src s = .ok v s1 →
    (s1.tsp + 1 < s1.launch.nmem →
      ∃ w, encode v = .word w ∧ exec (.push src) s = .next { Loc.pushL.put w s1 with pc := s.pc + 1 }) ∧
    (s1.launch.nmem ≤ s1.tsp + 1 →
      exec (.push src) s = .next (takeFault (.addressOutOfRange ((s1.tsp + 1 : Nat) : Number)) s1))

/-- R252: POP pops the top into its destination, resolved before the pop; on the empty stack it raises
StackFault(Underflow), and a destination that faults leaves the stack unchanged. -/
def Obligations.PopInstructionFillsTheDestination : Prop :=
  ∀ (dst : Operand) (s : State),
    (∀ c s1, loc dst s = .raise c s1 → s1 = s ∧ exec (.pop dst) s = .next (takeFault c s)) ∧
    (∀ L s1, loc dst s = .ok L s1 →
      (s1.tsp ≤ s1.launch.spr → exec (.pop dst) s = .next (takeFault .stackUnderflow s1)) ∧
      (s1.launch.spr < s1.tsp → s1.tsp < s1.launch.nmem →
        ∃ w, encode (decodeNum (readSlot s1.mem s1.tsp)) = .word w ∧
          exec (.pop dst) s = .next { L.put w { s1 with tsp := s1.tsp - 1 } with pc := s.pc + 1 }))

/-! ## Input, output and the end of the program -/

/-- R270: PRNT appends the source's value to the output channel and changes nothing else but what resolving it changed. -/
def Obligations.PrntAppendsTheValue : Prop :=
  ∀ (src : Operand) (s s1 : State) (v : Number), val src s = .ok v s1 →
    exec (.prnt src) s = .next { s1 with output := s.output ++ [v], pc := s.pc + 1 }

/-- R271, with an input supplied: SCAN takes the next input and stores it; an input that does not encode raises
EncodeFault, and one that does raises AddressFault where it would be pushed on a full stack. A destination that faults
does so before any input is taken. The model's own: a taken input leaves the channel also when the store faults (log
entry 3), and of a full stack and an input that does not encode, EncodeFault is the one taken (log entry 18). -/
def Obligations.ScanStoresTheNextInput : Prop :=
  ∀ (dst : Operand) (s : State),
    (∀ c s1, loc dst s = .raise c s1 → exec (.scan dst) s = .next (takeFault c s)) ∧
    (∀ L s1 v rest, loc dst s = .ok L s1 → s.input = v :: rest →
      (encode v = .fault .overflow →
        exec (.scan dst) s = .next (takeFault (.encodeOverflow v) { s1 with input := rest })) ∧
      (encode v = .fault .underflow →
        exec (.scan dst) s = .next (takeFault (.encodeUnderflow v) { s1 with input := rest })) ∧
      (∀ w, encode v = .word w →
        ((L = .pushL → s1.tsp + 1 < s1.launch.nmem) →
          exec (.scan dst) s = .next { L.put w { s1 with input := rest } with pc := s.pc + 1 }) ∧
        (L = .pushL → s1.launch.nmem ≤ s1.tsp + 1 →
          exec (.scan dst) s =
            .next (takeFault (.addressOutOfRange ((s1.tsp + 1 : Nat) : Number)) { s1 with input := rest }))))

/-- R197 and R315: a waiting SCAN never moves on by itself: the step leaves it waiting, with nothing changed but IR,
which the fetch set. That the wait is such a step is the model's own (log entry 4). R340: an input moves only while a
SCAN waits, one number for one SCAN: the answered SCAN waits no longer and takes no second number. -/
def Obligations.WaitingScanStaysWaiting : Prop :=
  ∀ s : State,
    (waiting s = true → step s = .next { s with ir := s.pc } ∧ waiting { s with ir := s.pc } = true) ∧
    ∀ v : Number,
      (waiting s = false → supplyInput v s = none) ∧
      (waiting s = true → ∃ t, supplyInput v s = some t ∧ t = { s with input := [v] } ∧
        ∀ u : Number, supplyInput u t = none)

/-- R272: EOP halts cleanly, with PC at its address and nothing else changed. -/
def Obligations.EopHaltsInPlace : Prop :=
  ∀ s : State, exec .eop s = .next { s with status := .halted .eop }

/-! ## Control transfer -/

/-- R231: JMP goes to its target. -/
def Obligations.JmpGoesToItsTarget : Prop :=
  ∀ (target : Operand) (s s1 : State) (p : Nat), tgt target s = .ok p s1 →
    exec (.jmp target) s = .next { s1 with pc := p }

/-- R232 to R237: a conditional jump goes to its target when CC holds, and to the next slot otherwise; taken or not,
its target has been resolved. -/
def Obligations.ConditionalJumpsTestCC : Prop :=
  ∀ (target : Operand) (s s1 : State) (p : Nat), tgt target s = .ok p s1 →
    exec (.jeq target) s = .next { s1 with pc := if s.cc = .eq then p else s.pc + 1 } ∧
    exec (.jne target) s = .next { s1 with pc := if s.cc = .eq then s.pc + 1 else p } ∧
    exec (.jlt target) s = .next { s1 with pc := if s.cc = .lt then p else s.pc + 1 } ∧
    exec (.jle target) s = .next { s1 with pc := if s.cc = .gt then s.pc + 1 else p } ∧
    exec (.jgt target) s = .next { s1 with pc := if s.cc = .gt then p else s.pc + 1 } ∧
    exec (.jge target) s = .next { s1 with pc := if s.cc = .lt then s.pc + 1 else p }

/-- R238: CALL pushes the encoded address of the next slot and goes to its target; with the stack full it raises
AddressFault and pushes nothing. -/
def Obligations.CallPushesTheReturnAddress : Prop :=
  ∀ (target : Operand) (s s1 : State) (p : Nat) (w : Word), tgt target s = .ok p s1 →
    encode ((s.pc + 1 : Nat) : Number) = .word w →
    (s1.tsp + 1 < s1.launch.nmem → exec (.call target) s = .next { Loc.pushL.put w s1 with pc := p }) ∧
    (s1.launch.nmem ≤ s1.tsp + 1 →
      exec (.call target) s = .next (takeFault (.addressOutOfRange ((s1.tsp + 1 : Nat) : Number)) s1))

/-- R239: RET pops the stack into PC. On the empty stack it raises StackFault(Underflow) with nothing changed; a popped
value that is no valid address raises AddressFault after the pop, so TSP stays decremented. -/
def Obligations.RetPopsTheStackIntoPC : Prop :=
  ∀ s : State,
    (s.tsp ≤ s.launch.spr → exec .ret s = .next (takeFault .stackUnderflow s)) ∧
    (s.launch.spr < s.tsp → s.tsp < s.launch.nmem →
      (∀ p : Nat, decodeNum (readSlot s.mem s.tsp) = p → p < s.launch.nmem →
        exec .ret s = .next { s with tsp := s.tsp - 1, pc := p }) ∧
      (∀ c, checkAddr (decodeNum (readSlot s.mem s.tsp)) s = .raise c s →
        exec .ret s = .next (takeFault c { s with tsp := s.tsp - 1 })))

/-- R238, R239 and R240: a RET that finds the stack as CALL left it returns to the slot after the CALL, with the stack
pointer where it was and memory changed in the pushed slot alone. -/
def Obligations.RetUndoesCall : Prop :=
  ∀ (target : Operand) (s s1 : State) (p : Nat), Inv s → s.launch.nmem ≤ 2 ^ 24 →
    tgt target s = .ok p s1 → s.pc + 1 < s.launch.nmem → s.tsp + 1 < s.launch.nmem →
    ∃ t u, exec (.call target) s = .next t ∧ t.pc = p ∧ t.tsp = s.tsp + 1 ∧
      exec .ret t = .next u ∧ u.pc = s.pc + 1 ∧ u.tsp = s.tsp ∧ u.status = s.status ∧
      MemSameOutside (some (s.tsp + 1)) s u

/-! ## Faults -/

/-- R303 and R305: an instruction that ends a run in a fatal fault records its own address, keeps PC and IR, and leaves
its final write, memory, CC and the output undone. That the record goes out as exactly one report of the diagnostic
channel is the model's reading of R340 (log entry 7). -/
def Obligations.FatalFaultIsPrecise : Prop :=
  ∀ (i : Instr) (s t : State) (k : FaultKind) (r : FaultReason) (p : Nat),
    s.status = .running → exec i s = .next t → t.status = .faulted k r p →
    p = s.pc ∧ t.pc = s.pc ∧ t.ir = s.ir ∧ t.mem = s.mem ∧ t.cc = s.cc ∧ t.output = s.output ∧ k.fatal = true ∧
    (∀ n, (∀ o ∈ i.operands, n ∉ steppedReg o.2) → regWord t n = regWord s n) ∧
    ∃ c : FaultCause, c.kind = k ∧ c.reason = r ∧ t.diag = s.diag ++ [{ cause := c, pc := s.pc }]

/-- R306: the first fault in stage order is the one taken. What operand 1 raises comes first, with nothing changed
beyond operand 1's own side effects; what operand 2 raises comes next. -/
def Obligations.OperandFaultsComeInStageOrder : Prop :=
  ∀ (i : Instr) (r : Role) (o : Operand) (rest : List (Role × Operand)) (s : State), i.operands = (r, o) :: rest →
    (∀ c t, RaisesByRole r o c s t → exec i s = .next (takeFault c t)) ∧
    (∀ src L s1 c t, rest = [(.source, src)] → loc o s = .ok L s1 →
      (r = .readWrite → ∃ x, readLoc L s1 = .ok x s1) → val src s1 = .raise c t → exec i s = .next (takeFault c t))

/-- R301 and R249: EncodeFault is raised by ADD, SUB, MUL, DIV and SCAN alone: never by MOD, MOV, PUSH, POP or CALL,
by stepping a register, or by an instruction that stores nothing. -/
def Obligations.OnlyArithmeticAndScanRaiseEncodeFault : Prop :=
  ∀ (i : Instr) (s t : State) (r : FaultReason) (p : Nat), i.wf = true → s.status = .running → s.pc + 1 < 2 ^ 129 →
    exec i s = .next t → t.status = .faulted .encodeFault r p →
    (∃ dst src, i = .add dst src) ∨ (∃ dst src, i = .sub dst src) ∨ (∃ dst src, i = .mul dst src) ∨
      (∃ dst src, i = .div dst src) ∨ ∃ dst, i = .scan dst

/-! ## The codec -/

/-- R132: the word of a number that is not 0 has its sign, its biased exponent and the truncated fraction. -/
def Obligations.EncodePacksSignExponentFraction : Prop :=
  encode 0 = .word 0x00000000#32 ∧
  ∀ (v : Number) (e : Int), (2 : Rat) ^ e ≤ |v| → |v| < (2 : Rat) ^ (e + 1) → 0 ≤ e + 127 → e + 127 ≤ 255 →
    ∃ w, encode v = .word w ∧ signField w = (if v < 0 then 1 else 0) ∧ ((exponentField w).toNat : Int) = e + 127 ∧
      ((fractionField w).toNat : Int) = ⌊(|v| / (2 : Rat) ^ e - 1) * 2 ^ 23⌋

/-- R133: the exponent is the unique integer e with 2^e ≤ a < 2^(e+1). -/
def Obligations.FloorLog2IsTheUniqueExponent : Prop :=
  ∀ a : Number, 0 < a →
    (2 : Rat) ^ floorLog2 a ≤ a ∧ a < (2 : Rat) ^ (floorLog2 a + 1) ∧
    ∀ e : Int, (2 : Rat) ^ e ≤ a → a < (2 : Rat) ^ (e + 1) → e = floorLog2 a

/-- R134: the loop extracts the fraction truncated to 23 bits, so `encode` rounds toward zero: the word's value has the
number's sign or is 0, and is never larger in magnitude. -/
def Obligations.FractionExtractionTruncates : Prop :=
  (∀ m : Number, 0 ≤ m → m < 1 → (extractBits23 m : Int) = ⌊m * 2 ^ 23⌋) ∧
  ∀ (v : Number) (w : Word), encode v = .word w →
    |wordValue w| ≤ |v| ∧ (0 ≤ v → 0 ≤ wordValue w) ∧ (v ≤ 0 → wordValue w ≤ 0)

/-- R135 and R216: what encodes is 0 and the magnitudes from 2^-127 up to, but not at, 2^129; above is Overflow and below
is Underflow. -/
def Obligations.EncodeFaultsOutsideItsRange : Prop :=
  ∀ v : Number,
    (encode v = .fault .overflow ↔ (2 : Rat) ^ (129 : Int) ≤ |v|) ∧
    (encode v = .fault .underflow ↔ v ≠ 0 ∧ |v| < (2 : Rat) ^ (-127 : Int)) ∧
    ((∃ w, encode v = .word w) ↔ v = 0 ∨ ((2 : Rat) ^ (-127 : Int) ≤ |v| ∧ |v| < (2 : Rat) ^ (129 : Int)))

/-- R136 and R137: the decoded number is the multiple of 1/100 nearest the word's value, and on a tie the one whose count
of hundredths is even; a tie is exactly an odd number of eighths. -/
def Obligations.DecodeRoundsToTheNearestHundredth : Prop :=
  ∀ w : Word,
    decodeNum w * 100 = decodeHundredths w ∧
    |wordValue w * 100 - decodeHundredths w| ≤ 1 / 2 ∧
    (|wordValue w * 100 - decodeHundredths w| = 1 / 2 → decodeHundredths w % 2 = 0) ∧
    (|wordValue w * 100 - decodeHundredths w| = 1 / 2 ↔ ∃ k : Int, k % 2 = 1 ∧ wordValue w = k / 8)

/-- R141: a multiple of 1/100 below 2^16 in magnitude is read back as it was stored, and so is every one below 65536.03,
which is the first that is not. -/
def Obligations.HundredthsRoundTripUpToTheFirstFailure : Prop :=
  (∀ x : Number, IsDec2 x → |x| < 6553603 / 100 → ∃ w, encode x = .word w ∧ decodeNum w = x) ∧
  encode (6553603 / 100) = .word 0x47800003#32 ∧ decodeNum 0x47800003#32 = 6553602 / 100

/-! ## Encoding -/

/-- R92 and R93: decoding the word of a well-formed instruction gives the instruction back, with every operand; the
word of EOP, and no other, is the all-zero word that ends the program. -/
def Obligations.DecodeOfEncodeIsTheInstruction : Prop :=
  ∀ i : Instr, i.wf = true →
    decodeByOpcode (encodeInstr i) = .instr i ∧ decode (encodeInstr i) = (if i = .eop then .halt else .instr i)

/-- The bits of an instruction's word that its opcode uses: the opcode and the fields of the operands it has (R80, R89). -/
def usedBits (i : Instr) : Word :=
  match i.operands with
  | [] => 0xF8000000#32
  | [_] => 0xFFFF0000#32
  | _ :: _ :: _ => 0xFFFFFFE0#32

/-- R80 and R89: a decoded instruction is well formed, and its word is the decoded word with the unused fields and
the reserved bits cleared: no bit the opcode uses is lost. -/
def Obligations.EncodeOfDecodeKeepsTheUsedBits : Prop :=
  ∀ (w : Word) (i : Instr), decode w = .instr i → i.wf = true ∧ encodeInstr i = w &&& usedBits i

/-- R88: an instruction's word has bits [4:0] clear, and the decoder ignores them: a word decodes as it does with those
bits cleared. So a word with nothing but such bits halts at fetch as the all-zero word does, which is the model's
reading of R88 and C9 against the whole-word test of R190 and R93 (log entry 5). -/
def Obligations.ReservedBitsAreIgnored : Prop :=
  (∀ i : Instr, encodeInstr i &&& 0x0000001F#32 = 0#32) ∧
  (∀ w : Word, decode (w &&& 0xFFFFFFE0#32) = decode w) ∧
  ∀ s : State, s.status = .running → (readSlot s.mem s.pc).toNat < 32 →
    step s = .next { s with status := .halted .endOfProgram }

/-- R83: a fetched word with a reserved opcode raises UnknownOpcodeFault(ReservedOpcode, op), whatever its other bits.
That the reserved opcodes are these twelve, which R82 and R83 list although R83 counts eleven, is the model's reading
(log entry 16), and so is the one report on the diagnostic channel (R340, log entry 7). -/
def Obligations.ReservedOpcodesFault : Prop :=
  ∀ (s : State) (w : Word), s.status = .running → fetch s = .word w →
    (opField w).toNat ∈ [0x03, 0x04, 0x05, 0x06, 0x07, 0x0B, 0x0C, 0x0D, 0x0E, 0x0F, 0x17, 0x1F] →
    step s = .next { s with
      ir := s.pc, status := .faulted .unknownOpcodeFault .reservedOpcode s.pc,
      diag := s.diag ++ [{ cause := .reservedOpcode (opField w).toNat, pc := s.pc }] }

/-- A mode 7 address field that R86 reserves. -/
def reservedSub (m : BitVec 3) (a : BitVec 8) : Prop :=
  m = 7 ∧ (192 ≤ a.toNat ∨ (3 ≤ a.toNat ∧ a.toNat < 64))

/-- The opcodes that use operand 1, and those that use operand 2 (R89). -/
def usesOperandOne : List Nat := [0x01, 0x02, 0x08, 0x09, 0x0A, 0x10, 0x11, 0x12, 0x13, 0x14, 0x15, 0x18, 0x19, 0x1A,
  0x1B, 0x1C, 0x1D, 0x1E]
def usesOperandTwo : List Nat := [0x08, 0x10, 0x11, 0x12, 0x13, 0x14]

/-- R86 and R93: a reserved sub-code in an operand the opcode uses, and in no other, is refused, operand 1 before
operand 2; fetched, it raises UnknownOpcodeFault(ReservedOperand, k) before anything is resolved. The one report on the
diagnostic channel is the model's reading of R340 (log entry 7). -/
def Obligations.ReservedSubCodesFault : Prop :=
  (∀ w : Word,
    (decode w = .badOperand 1 ↔
      (opField w).toNat ∈ usesOperandOne ∧ reservedSub (mode1Field w) (addr1Field w)) ∧
    (decode w = .badOperand 2 ↔
      (opField w).toNat ∈ usesOperandTwo ∧ ¬ reservedSub (mode1Field w) (addr1Field w) ∧
        reservedSub (mode2Field w) (addr2Field w))) ∧
  ∀ (s : State) (w : Word) (k : Nat), s.status = .running → fetch s = .word w → decode w = .badOperand k →
    step s = .next { s with
      ir := s.pc, status := .faulted .unknownOpcodeFault .reservedOperand s.pc,
      diag := s.diag ++ [{ cause := .reservedOperand k, pc := s.pc }] }

/-- R80, R82, R85 and R86: words written out field by field decode to the instructions they stand for. -/
def Obligations.WrittenOutWordsDecode : Prop :=
  decode (0b10000#5 ++ 0b001#3 ++ 0x01#8 ++ 0b000#3 ++ 0x01#8 ++ 0#5) = .instr (.add (.reg 1) (.imm 1)) ∧
  decode (0b01000#5 ++ 0b111#3 ++ 0x01#8 ++ 0b111#3 ++ 0x02#8 ++ 0#5) = .instr (.mov .push .pop) ∧
  decode (0b10011#5 ++ 0b110#3 ++ 0x03#8 ++ 0b111#3 ++ 0x45#8 ++ 0#5) = .instr (.div (.indexed2 3) (.autoInc 5)) ∧
  decode (0b11001#5 ++ 0b011#3 ++ 0x0A#8 ++ 0b000#3 ++ 0x00#8 ++ 0#5) = .instr (.jeq (.direct 10)) ∧
  decode (0b00010#5 ++ 0b100#3 ++ 0x1E#8 ++ 0b000#3 ++ 0x00#8 ++ 0#5) = .instr (.scan (.indirect 30)) ∧
  decode (0b10110#5 ++ 0b000#3 ++ 0x00#8 ++ 0b000#3 ++ 0x00#8 ++ 0#5) = .instr .ret ∧
  decode (0b00011#5 ++ 0b000#3 ++ 0x00#8 ++ 0b000#3 ++ 0x00#8 ++ 0#5) = .unknown 3

/-! ## The step -/

/-- R195: when the running machine fetches a word that decodes to an instruction, the step is that instruction's
effect, with IR at the address fetched. -/
def Obligations.StepRunsTheDecodedInstruction : Prop :=
  ∀ (s : State) (i : Instr), s.status = .running → s.pc < s.launch.codeEnd → s.pc < s.launch.nmem →
    decode (readSlot s.mem s.pc) = .instr i → step s = exec i { s with ir := s.pc }

/-- R190: a fetch past the program, past memory or of the all-zero word halts cleanly, with IR and all else unchanged. -/
def Obligations.FetchPastTheProgramHalts : Prop :=
  ∀ s : State, s.status = .running →
    s.launch.codeEnd ≤ s.pc ∨ s.launch.nmem ≤ s.pc ∨ readSlot s.mem s.pc = 0x00000000#32 →
    step s = .next { s with status := .halted .endOfProgram }

/-- R40: once the status is not Running, no further step exists. -/
def Obligations.EndedRunHasNoStep : Prop :=
  ∀ s : State, s.status ≠ .running → ∃ f, step s = .fault f

/-- R330: the reset state, for any parameters. -/
def Obligations.ResetHasTheSpecifiedValues : Prop :=
  ∀ p : Params,
    (State.resetWith p).nreg = p.nreg ∧ (∀ n, regWord (State.resetWith p) n = 0x00000000#32) ∧
    (∀ a, readSlot (State.resetWith p).mem a = 0x00000000#32) ∧
    (State.resetWith p).pc = p.codeBase ∧ (State.resetWith p).ir = 0 ∧
    (State.resetWith p).launch.spr = p.stackBase ∧ (State.resetWith p).tsp = (State.resetWith p).launch.spr ∧
    (State.resetWith p).cc = .eq ∧ (State.resetWith p).status = .running ∧
    (State.resetWith p).output = [] ∧ (State.resetWith p).diag = []

/-- The invariant holds after reset, for every choice of parameters that R7 allows, the default among them. R330 gives
CODE_END no reset value: that it is the one of the empty program, on which the invariant's clause about CODE_END rests
here, is the model's reading of R332 (log entry 2). -/
def Obligations.ResetSatisfiesTheInvariant : Prop :=
  (∀ p : Params, p.Ok → Inv (State.resetWith p)) ∧ Inv State.reset

/-- Every step keeps the invariant, from every state that has it: the ranges of R30, the stack invariant of R39, the
memory's canonical form, and a `Dec2` output channel. -/
def Obligations.StepKeepsTheInvariant : Prop :=
  ∀ s t : State, Inv s → step s = .next t → Inv t

/-! ## Frames -/

/-- Memory: whatever an instruction does, every byte outside the slot it stores to reads as before, and every byte does
where it stores to none. -/
def Obligations.OnlyTheStoredSlotChanges : Prop :=
  ∀ (i : Instr) (s t : State), s.mem.wf → exec i s = .next t → MemSameOutside (storedSlot i s) s t

/-- Registers: whatever an instruction does, every register reads as before but a register-mode destination and the
registers its operands step. -/
def Obligations.OnlyTheNamedRegistersChange : Prop :=
  ∀ (i : Instr) (s t : State), exec i s = .next t → RegsSameOutside (touchedRegs i) s t

/-- All other state: IR and the launch constants never change, CC changes in SUB alone (R37), TSP in stack operations
alone (R30), the output grows in PRNT alone, the input shrinks in SCAN alone, the diagnostics grow by at most one
report, and the status changes in EOP or by a fault. -/
def Obligations.OnlyTheNamedControlStateChanges : Prop :=
  ∀ (i : Instr) (s t : State), exec i s = .next t →
    t.ir = s.ir ∧ t.launch = s.launch ∧ t.nreg = s.nreg ∧
    (t.cc = s.cc ∨ ∃ dst src, i = .sub dst src) ∧
    (t.tsp = s.tsp ∨ movesStack i = true) ∧
    (t.output = s.output ∨ ∃ src v, i = .prnt src ∧ t.output = s.output ++ [v]) ∧
    (t.input = s.input ∨ ∃ dst v, i = .scan dst ∧ s.input = v :: t.input) ∧
    (t.diag = s.diag ∨ ∃ c, t.diag = s.diag ++ [{ cause := c, pc := s.pc }]) ∧
    (t.status = s.status ∨ i = .eop ∨ ∃ c : FaultCause, t.status = .faulted c.kind c.reason s.pc)

/-! ## The host interface and the toolchain -/

/-- R332: what the loader leaves satisfies the invariant, with the program's words at `CODE_BASE` on, `CODE_END` one
past the last, and outside the program the image's words in place and every other slot 0. The image clause is for an
image that names no slot twice. That the loader refuses an image slot outside memory, on which the invariant rests
here, is the model's choice (log entry 15). -/
def Obligations.LoadPlacesTheProgram : Prop :=
  ∀ (p : Params) (image : List (Nat × Word)) (program : List Word) (s : State), load p image program = some s →
    Inv s ∧ s.status = .running ∧ s.pc = p.codeBase ∧ s.launch.codeEnd = p.codeBase + program.length ∧
    (∀ k w, program[k]? = some w → readSlot s.mem (p.codeBase + k) = w) ∧
    ((image.map Prod.fst).Nodup → ∀ a w, (a, w) ∈ image → a < p.codeBase ∨ p.codeBase + program.length ≤ a →
      readSlot s.mem a = w) ∧
    (∀ a, (∀ c ∈ image, c.1 ≠ a) → a < p.codeBase ∨ p.codeBase + program.length ≤ a →
      readSlot s.mem a = 0x00000000#32)

/-- R108: the canonical text of a well-formed instruction's word assembles back to that word. -/
def Obligations.AssembleOfDisassembleIsTheWord : Prop :=
  ∀ (p : Params) (syms : Symbols) (i : Instr), i.wf = true →
    ∃ m ops, disassemble (encodeInstr i) = some (m :: ops) ∧ assembleInstr p syms m ops = .ok (encodeInstr i)
end

