-- ==== Sys2Proof/Laws/Codec.lean ====
section
/-! SUPPORT. The codec: the fields of a packed word, rounding to the nearest integer, and the decoder's range. -/

namespace Sys2Proof.Machine

/-! ## Fields (R130) -/

@[simp] theorem signField_packFields (s : BitVec 1) (B : BitVec 8) (F : BitVec 23) :
    signField (packFields s B F) = s := by
  refine BitVec.eq_of_getLsbD_eq fun i hi => ?_
  simp only [signField, packFields, BitVec.getLsbD_extractLsb', BitVec.getLsbD_append]
  rw [decide_eq_true hi, Bool.true_and, if_neg (by omega), if_neg (by omega)]
  congr 1
  omega

@[simp] theorem exponentField_packFields (s : BitVec 1) (B : BitVec 8) (F : BitVec 23) :
    exponentField (packFields s B F) = B := by
  refine BitVec.eq_of_getLsbD_eq fun i hi => ?_
  simp only [exponentField, packFields, BitVec.getLsbD_extractLsb', BitVec.getLsbD_append]
  rw [decide_eq_true hi, Bool.true_and, if_neg (by omega), if_pos (by omega)]
  congr 1
  omega

@[simp] theorem fractionField_packFields (s : BitVec 1) (B : BitVec 8) (F : BitVec 23) :
    fractionField (packFields s B F) = F := by
  refine BitVec.eq_of_getLsbD_eq fun i hi => ?_
  simp only [fractionField, packFields, BitVec.getLsbD_extractLsb', BitVec.getLsbD_append]
  rw [decide_eq_true hi, Bool.true_and, if_pos (by omega)]
  congr 1
  omega

/-! ## Rounding (R137) -/

/-- The rounded integer is within a half, and even when it is a half away. -/
theorem roundHalfEven_near (x : Number) :
    |x - roundHalfEven x| ≤ 1 / 2 ∧ (|x - roundHalfEven x| = 1 / 2 → roundHalfEven x % 2 = 0) := by
  have h1 := Int.floor_le x
  have h2 := Int.lt_floor_add_one x
  have hf : x.floor = ⌊x⌋ := rfl
  unfold roundHalfEven
  simp only [hf]
  split_ifs with a b c
  · rw [abs_of_nonneg (by linarith)]; exact ⟨a.le, fun h => by linarith⟩
  · push_cast; rw [abs_of_nonpos (by linarith)]; exact ⟨by linarith, fun h => by linarith⟩
  · rw [abs_of_nonneg (by linarith)]; exact ⟨by linarith, fun _ => c⟩
  · push_cast; rw [abs_of_nonpos (by linarith)]; exact ⟨by linarith, fun h => by omega⟩

/-- The only integer less than a half away is the rounded one. -/
theorem roundHalfEven_eq {x : Number} {z : Int} (h : |x - z| < 1 / 2) : roundHalfEven x = z := by
  have hn := (roundHalfEven_near x).1
  have h1 : |(roundHalfEven x : Rat) - z| < 1 := by
    calc |(roundHalfEven x : Rat) - z| = |(x - z) - (x - roundHalfEven x)| := by ring_nf
      _ ≤ |x - z| + |x - roundHalfEven x| := abs_sub _ _
      _ < 1 := by linarith
  have h2 : |roundHalfEven x - z| < 1 := by exact_mod_cast h1
  have := Int.abs_lt_one_iff.mp h2
  omega

/-! ## Multiples of 1/100 (R9) -/

theorem isDec2_iff {x : Number} : IsDec2 x ↔ ∃ z : Int, x * 100 = z := by
  constructor
  · intro h
    refine ⟨(x * 100).num, ?_⟩
    conv_lhs => rw [← Rat.num_div_den (x * 100)]
    rw [h]; simp
  · rintro ⟨z, h⟩
    unfold IsDec2
    rw [h]; simp

theorem isDec2_natCast (n : Nat) : IsDec2 (n : Rat) := isDec2_iff.mpr ⟨100 * n, by push_cast; ring⟩

theorem decodeNum_isDec2 (w : Word) : IsDec2 (decodeNum w) :=
  isDec2_iff.mpr ⟨decodeHundredths w, by unfold decodeNum; ring⟩

/-- A multiple of 1/100 that is not 0 is no smaller than 1/100. -/
theorem IsDec2.le_abs {x : Number} (h : IsDec2 x) (h0 : x ≠ 0) : 1 / 100 ≤ |x| := by
  obtain ⟨z, hz⟩ := isDec2_iff.mp h
  have hz0 : z ≠ 0 := by rintro rfl; apply h0; simpa using hz
  have h1 : 1 ≤ |z| := Int.one_le_abs hz0
  have h2 : (1 : Rat) ≤ |(z : Rat)| := by exact_mod_cast h1
  rw [← hz, abs_mul, abs_of_pos (by norm_num : (0 : Rat) < 100)] at h2
  linarith

/-! ## The decoder's range (R139) -/

/-- A word's value is at most the largest the fields spell. -/
theorem wordValue_abs_le (w : Word) : |wordValue w| ≤ (2 - 1 / 2 ^ 23) * 2 ^ 128 := by
  unfold wordValue
  split
  · simp; norm_num
  · have hB := (exponentField w).isLt
    have hF := (fractionField w).isLt
    have a1 : |if signField w = 1 then (-1 : Rat) else 1| = 1 := by split <;> simp
    have a2 : |(2 : Rat) ^ (((exponentField w).toNat : Int) - bias)| ≤ 2 ^ 128 := by
      rw [abs_of_pos (by positivity), ← zpow_natCast (2 : Rat) 128, zpow_le_zpow_iff_right₀ (by norm_num)]
      unfold bias; push_cast; omega
    have a3 : |1 + ((fractionField w).toNat : Rat) / 2 ^ 23| ≤ 2 - 1 / 2 ^ 23 := by
      rw [abs_of_nonneg (by positivity)]
      have : ((fractionField w).toNat : Rat) + 1 ≤ 2 ^ 23 := by exact_mod_cast hF
      rw [le_sub_iff_add_le, add_assoc, ← add_div, show (2 : Rat) = 1 + 1 by norm_num]
      gcongr
      rw [div_le_one (by norm_num)]; norm_num at this ⊢; linarith
    rw [abs_mul, abs_mul, a1, one_mul, mul_comm]
    gcongr

/-- The decoder's numbers are below 2^129 in magnitude: so they, and what they are stepped to, encode again (R249). -/
theorem decodeNum_abs_le (w : Word) : |decodeNum w| ≤ (2 - 1 / 2 ^ 23) * 2 ^ 128 := by
  have hv := wordValue_abs_le w
  have hn : |wordValue w * 100 - decodeHundredths w| ≤ 1 / 2 := (roundHalfEven_near (wordValue w * 100)).1
  have hM : (((2 - 1 / 2 ^ 23) * 2 ^ 128 * 100 : Rat)) = ((2 ^ 129 - 2 ^ 105) * 100 : Int) := by norm_num
  have h1 : |(decodeHundredths w : Rat)| < ((2 ^ 129 - 2 ^ 105) * 100 : Int) + 1 := by
    rw [← hM]
    have := abs_sub_abs_le_abs_sub (decodeHundredths w : Rat) (wordValue w * 100)
    rw [abs_sub_comm, abs_mul (wordValue w), abs_of_pos (by norm_num : (0 : Rat) < 100)] at this
    linarith
  have h2 : |decodeHundredths w| ≤ (2 ^ 129 - 2 ^ 105) * 100 := by
    have : |decodeHundredths w| < (2 ^ 129 - 2 ^ 105) * 100 + 1 := by exact_mod_cast h1
    omega
  have h3 : |(decodeHundredths w : Rat)| ≤ (((2 ^ 129 - 2 ^ 105) * 100 : Int) : Rat) := by exact_mod_cast h2
  unfold decodeNum
  rw [abs_div, abs_of_pos (by norm_num : (0 : Rat) < 100), div_le_iff₀ (by norm_num), hM]
  exact h3

end Sys2Proof.Machine
end

