-- ==== Sys2Proof/Laws/Memory.lean ====
section
/-! SUPPORT. The laws of memory: a read after a write, and the canonical form that every operation keeps. -/

namespace Sys2Proof.Machine

/-! ## One cell -/

@[simp] theorem readByte_nil (k : Nat) : readByte [] k = unlistedByte := rfl

theorem readByte_cons (c : Host.Cell) (m : Memory) (k : Nat) :
    readByte (c :: m) k = if c.1 = k then c.2 else readByte m k := rfl

/-- A cell that no entry lists reads as an unlisted cell. -/
theorem readByte_unlisted (m : Memory) (k : Nat) (h : ∀ c ∈ m, c.1 ≠ k) : readByte m k = unlistedByte := by
  induction m with
  | nil => rfl
  | cons c m ih =>
    rw [readByte_cons, if_neg (h c (by simp)), ih fun d hd => h d (by simp [hd])]

theorem Memory.wf_tail {c : Host.Cell} {m : Memory} (h : Memory.wf (c :: m)) : Memory.wf m :=
  ⟨(List.pairwise_cons.mp h.1).2, fun d hd => h.2 d (by simp [hd])⟩

theorem Memory.wf_head_lt {c : Host.Cell} {m : Memory} (h : Memory.wf (c :: m)) : ∀ d ∈ m, c.1 < d.1 :=
  (List.pairwise_cons.mp h.1).1

/-- Putting a cell in front of cells above it keeps the canonical form. -/
theorem consCell_wf {k : Nat} {b : Byte} {m : Memory} (h : m.wf) (hk : ∀ d ∈ m, k < d.1) : (consCell k b m).wf := by
  unfold consCell
  split
  · exact h
  · rename_i hb
    exact ⟨List.pairwise_cons.mpr ⟨hk, h.1⟩, List.forall_mem_cons.mpr ⟨hb, h.2⟩⟩

/-- What a cell put in front of cells above it reads as. -/
theorem readByte_consCell {k : Nat} {b : Byte} {m : Memory} (hk : ∀ d ∈ m, k < d.1) (j : Nat) :
    readByte (consCell k b m) j = if j = k then b else readByte m j := by
  unfold consCell
  split
  · rename_i hb
    split
    · subst_vars
      exact readByte_unlisted m _ fun d hd => by have := hk d hd; omega
    · rfl
  · rw [readByte_cons]
    simp [eq_comm]

theorem mem_consCell {k : Nat} {b : Byte} {m : Memory} {d : Host.Cell} (h : d ∈ consCell k b m) :
    d = (k, b) ∨ d ∈ m := by
  unfold consCell at h
  split at h
  · exact .inr h
  · simpa using h

/-- A write lists only the cell written and cells listed before. -/
theorem mem_writeByte {m : Memory} {k : Nat} {b : Byte} {d : Host.Cell} (h : d ∈ writeByte m k b) :
    d.1 = k ∨ d ∈ m := by
  induction m with
  | nil =>
    rcases mem_consCell h with rfl | h
    · exact .inl rfl
    · exact .inr h
  | cons c m ih =>
    unfold writeByte at h
    split at h
    · rcases mem_consCell h with rfl | h
      · exact .inl rfl
      · exact .inr h
    · split at h
      · rcases mem_consCell h with rfl | h
        · exact .inl rfl
        · exact .inr (by simp [h])
      · rcases List.mem_cons.mp h with rfl | h
        · exact .inr (by simp)
        · rcases ih h with h | h
          · exact .inl h
          · exact .inr (by simp [h])

/-- A write keeps the canonical form. -/
theorem writeByte_wf {m : Memory} (h : m.wf) (k : Nat) (b : Byte) : (writeByte m k b).wf := by
  induction m with
  | nil => exact consCell_wf h (by simp)
  | cons c m ih =>
    have ht := Memory.wf_tail h
    have hlt := Memory.wf_head_lt h
    unfold writeByte
    split
    · exact consCell_wf h (by
        intro d hd
        rcases List.mem_cons.mp hd with rfl | hd
        · assumption
        · have := hlt d hd; omega)
    · split
      · subst_vars; exact consCell_wf ht hlt
      · have hw := ih ht
        refine ⟨List.pairwise_cons.mpr ⟨fun d hd => ?_, hw.1⟩, ?_⟩
        · rcases mem_writeByte hd with hd | hd
          · omega
          · exact hlt d hd
        · intro d hd
          rcases List.mem_cons.mp hd with rfl | hd
          · exact h.2 _ (by simp)
          · exact hw.2 d hd

/-- A read after a write: the byte written at its cell, and what was there before everywhere else. -/
theorem readByte_writeByte {m : Memory} (h : m.wf) (k : Nat) (b : Byte) (j : Nat) :
    readByte (writeByte m k b) j = if j = k then b else readByte m j := by
  induction m with
  | nil => exact readByte_consCell (by simp) j
  | cons c m ih =>
    have hlt := Memory.wf_head_lt h
    unfold writeByte
    split
    · exact readByte_consCell (by
        intro d hd
        rcases List.mem_cons.mp hd with rfl | hd
        · assumption
        · have := hlt d hd; omega) j
    · split
      · subst_vars
        rw [readByte_consCell hlt, readByte_cons]
        by_cases hj : j = c.1 <;> simp [hj, eq_comm]
      · rw [readByte_cons, readByte_cons, ih (Memory.wf_tail h)]
        by_cases hc : c.1 = j
        · simp [hc]; omega
        · simp [hc]

/-- A write stays within the address space of n slots when its cell does. -/
theorem writeByte_within {m : Memory} {n k : Nat} (h : m.within n) (hk : k < 4 * n) (b : Byte) :
    (writeByte m k b).within n := by
  intro d hd
  rcases mem_writeByte hd with hd | hd
  · omega
  · exact h d hd

/-- Two memories in canonical form that read alike are equal. -/
theorem Memory.ext_of_wf {m n : Memory} (hm : m.wf) (hn : n.wf) (h : ∀ k, readByte m k = readByte n k) : m = n := by
  induction m generalizing n with
  | nil =>
    cases n with
    | nil => rfl
    | cons d n =>
      have := h d.1
      rw [readByte_cons, if_pos rfl] at this
      exact absurd this.symm (hn.2 d (by simp))
  | cons c m ih =>
    cases n with
    | nil =>
      have := h c.1
      rw [readByte_cons, if_pos rfl] at this
      exact absurd this (hm.2 c (by simp))
    | cons d n =>
      have hcm := Memory.wf_head_lt hm
      have hdn := Memory.wf_head_lt hn
      have hkey : c.1 = d.1 := by
        by_contra hne
        rcases Nat.lt_or_gt_of_ne hne with hlt | hlt
        · have := h c.1
          rw [readByte_cons, if_pos rfl, readByte_unlisted (d :: n) c.1 (by
            intro e he
            rcases List.mem_cons.mp he with rfl | he
            · omega
            · have := hdn e he; omega)] at this
          exact hm.2 c (by simp) this
        · have := h d.1
          rw [readByte_cons d, if_pos rfl, readByte_unlisted (c :: m) d.1 (by
            intro e he
            rcases List.mem_cons.mp he with rfl | he
            · omega
            · have := hcm e he; omega)] at this
          exact hn.2 d (by simp) this.symm
      have hval : c.2 = d.2 := by
        have := h c.1
        rwa [readByte_cons, if_pos rfl, readByte_cons, if_pos hkey.symm] at this
      have hcd : c = d := Prod.ext hkey hval
      subst hcd
      congr 1
      refine ih (Memory.wf_tail hm) (Memory.wf_tail hn) fun k => ?_
      by_cases hk : c.1 = k
      · subst hk
        rw [readByte_unlisted m _ fun e he => by have := hcm e he; omega,
          readByte_unlisted n _ fun e he => by have := hdn e he; omega]
      · have := h k
        rwa [readByte_cons, readByte_cons, if_neg hk, if_neg hk] at this

/-! ## One slot -/

/-- Writing a slot keeps the canonical form. -/
theorem writeSlot_wf {m : Memory} (h : m.wf) (a : Nat) (w : Word) : (writeSlot m a w).wf :=
  writeByte_wf (writeByte_wf (writeByte_wf (writeByte_wf h _ _) _ _) _ _) _ _

/-- Writing a slot of the address space lists nothing outside it. -/
theorem writeSlot_within {m : Memory} {n a : Nat} (h : m.within n) (ha : a < n) (w : Word) :
    (writeSlot m a w).within n := by
  unfold writeSlot slotCell
  exact writeByte_within (writeByte_within (writeByte_within (writeByte_within h (by omega) _) (by omega) _)
    (by omega) _) (by omega) _

/-- The byte of a cell after a slot is written: one of the word's four, or what was there before. -/
theorem readByte_writeSlot {m : Memory} (h : m.wf) (a : Nat) (w : Word) (k : Nat) :
    readByte (writeSlot m a w) k =
      if k = 4 * a + 3 then w.extractLsb' 24 8 else if k = 4 * a + 2 then w.extractLsb' 16 8
      else if k = 4 * a + 1 then w.extractLsb' 8 8 else if k = 4 * a then w.extractLsb' 0 8 else readByte m k := by
  have h0 := writeByte_wf h (slotCell a 0) (w.extractLsb' 0 8)
  have h1 := writeByte_wf h0 (slotCell a 1) (w.extractLsb' 8 8)
  have h2 := writeByte_wf h1 (slotCell a 2) (w.extractLsb' 16 8)
  rw [writeSlot, readByte_writeByte h2, readByte_writeByte h1, readByte_writeByte h0, readByte_writeByte h]
  simp only [slotCell, Nat.add_zero]
  rfl

/-- A cell outside the slot written reads as before. -/
theorem readByte_writeSlot_of_outside {m : Memory} (h : m.wf) {a k : Nat} (hk : k < 4 * a ∨ 4 * a + 4 ≤ k) (w : Word) :
    readByte (writeSlot m a w) k = readByte m k := by
  rw [readByte_writeSlot h, if_neg (by omega), if_neg (by omega), if_neg (by omega), if_neg (by omega)]

/-- The four bytes of a word, put together again. -/
theorem word_of_bytes (w : Word) :
    (w.extractLsb' 24 8 ++ w.extractLsb' 16 8 ++ w.extractLsb' 8 8 ++ w.extractLsb' 0 8 : BitVec 32) = w := by
  refine BitVec.eq_of_getLsbD_eq fun i hi => ?_
  simp only [BitVec.getLsbD_append, BitVec.getLsbD_extractLsb']
  split_ifs <;> rw [decide_eq_true (by omega), Bool.true_and] <;> congr 1 <;> omega

/-- A read of a slot after a write of one: the word written there, and what was there before elsewhere (R71). -/
theorem readSlot_writeSlot {m : Memory} (h : m.wf) (a : Nat) (w : Word) (b : Nat) :
    readSlot (writeSlot m a w) b = if b = a then w else readSlot m b := by
  unfold readSlot slotCell
  by_cases hb : b = a
  · subst hb
    simp only [readByte_writeSlot h]
    simp [word_of_bytes]
  · simp only [if_neg hb]
    rw [readByte_writeSlot_of_outside h (by omega), readByte_writeSlot_of_outside h (by omega),
      readByte_writeSlot_of_outside h (by omega), readByte_writeSlot_of_outside h (by omega)]

@[simp] theorem readSlot_nil (a : Nat) : readSlot [] a = 0#32 := by
  simp only [readSlot, readByte_nil]
  decide

/-! ## The loader and reset -/

theorem placeWords_wf (ws : List (Nat × Word)) {m : Memory} (h : m.wf) : (placeWords ws m).wf := by
  induction ws generalizing m with
  | nil => exact h
  | cons c ws ih => exact ih (writeSlot_wf h _ _)

theorem placeProgram_wf (ws : List Word) (base : Nat) {m : Memory} (h : m.wf) : (placeProgram base ws m).wf := by
  induction ws generalizing m base with
  | nil => exact h
  | cons c ws ih => exact ih (base + 1) (writeSlot_wf h _ _)

/-- The memory of every reset state has the canonical form. -/
theorem resetWith_mem_wf (p : Params) : (State.resetWith p).mem.wf := ⟨List.Pairwise.nil, by simp [State.resetWith]⟩

theorem reset_mem_wf : State.reset.mem.wf := resetWith_mem_wf Params.default

end Sys2Proof.Machine
end

