-- ==== Sys2Proof/Laws/State.lean ====
section
/-! SUPPORT. What each update of the state does to each field, so that no proof unfolds a record update. -/

namespace Sys2Proof.Machine

/-! ## `report` -/

@[simp] theorem report_regs (c : FaultCause) (s : State) : (report c s).regs = s.regs := rfl
@[simp] theorem report_mem (c : FaultCause) (s : State) : (report c s).mem = s.mem := rfl
@[simp] theorem report_pc (c : FaultCause) (s : State) : (report c s).pc = s.pc := rfl
@[simp] theorem report_ir (c : FaultCause) (s : State) : (report c s).ir = s.ir := rfl
@[simp] theorem report_tsp (c : FaultCause) (s : State) : (report c s).tsp = s.tsp := rfl
@[simp] theorem report_cc (c : FaultCause) (s : State) : (report c s).cc = s.cc := rfl
@[simp] theorem report_status (c : FaultCause) (s : State) : (report c s).status = s.status := rfl
@[simp] theorem report_launch (c : FaultCause) (s : State) : (report c s).launch = s.launch := rfl
@[simp] theorem report_input (c : FaultCause) (s : State) : (report c s).input = s.input := rfl
@[simp] theorem report_output (c : FaultCause) (s : State) : (report c s).output = s.output := rfl
@[simp] theorem report_diag (c : FaultCause) (s : State) : (report c s).diag = s.diag ++ [{ cause := c, pc := s.pc }] := rfl

/-! ## `takeFault` -/

@[simp] theorem takeFault_regs (c : FaultCause) (s : State) : (takeFault c s).regs = s.regs := rfl
@[simp] theorem takeFault_mem (c : FaultCause) (s : State) : (takeFault c s).mem = s.mem := rfl
@[simp] theorem takeFault_pc (c : FaultCause) (s : State) : (takeFault c s).pc = s.pc := rfl
@[simp] theorem takeFault_ir (c : FaultCause) (s : State) : (takeFault c s).ir = s.ir := rfl
@[simp] theorem takeFault_tsp (c : FaultCause) (s : State) : (takeFault c s).tsp = s.tsp := rfl
@[simp] theorem takeFault_cc (c : FaultCause) (s : State) : (takeFault c s).cc = s.cc := rfl
@[simp] theorem takeFault_status (c : FaultCause) (s : State) : (takeFault c s).status = .faulted c.kind c.reason s.pc := rfl
@[simp] theorem takeFault_launch (c : FaultCause) (s : State) : (takeFault c s).launch = s.launch := rfl
@[simp] theorem takeFault_input (c : FaultCause) (s : State) : (takeFault c s).input = s.input := rfl
@[simp] theorem takeFault_output (c : FaultCause) (s : State) : (takeFault c s).output = s.output := rfl
@[simp] theorem takeFault_diag (c : FaultCause) (s : State) : (takeFault c s).diag = s.diag ++ [{ cause := c, pc := s.pc }] := rfl

/-! ## `haltWith` -/

@[simp] theorem haltWith_regs (why : HaltReason) (s : State) : (haltWith why s).regs = s.regs := rfl
@[simp] theorem haltWith_mem (why : HaltReason) (s : State) : (haltWith why s).mem = s.mem := rfl
@[simp] theorem haltWith_pc (why : HaltReason) (s : State) : (haltWith why s).pc = s.pc := rfl
@[simp] theorem haltWith_ir (why : HaltReason) (s : State) : (haltWith why s).ir = s.ir := rfl
@[simp] theorem haltWith_tsp (why : HaltReason) (s : State) : (haltWith why s).tsp = s.tsp := rfl
@[simp] theorem haltWith_cc (why : HaltReason) (s : State) : (haltWith why s).cc = s.cc := rfl
@[simp] theorem haltWith_status (why : HaltReason) (s : State) : (haltWith why s).status = .halted why := rfl
@[simp] theorem haltWith_launch (why : HaltReason) (s : State) : (haltWith why s).launch = s.launch := rfl
@[simp] theorem haltWith_input (why : HaltReason) (s : State) : (haltWith why s).input = s.input := rfl
@[simp] theorem haltWith_output (why : HaltReason) (s : State) : (haltWith why s).output = s.output := rfl
@[simp] theorem haltWith_diag (why : HaltReason) (s : State) : (haltWith why s).diag = s.diag := rfl

/-! ## `emit` -/

@[simp] theorem emit_regs (v : Number) (s : State) : (emit v s).regs = s.regs := rfl
@[simp] theorem emit_mem (v : Number) (s : State) : (emit v s).mem = s.mem := rfl
@[simp] theorem emit_pc (v : Number) (s : State) : (emit v s).pc = s.pc := rfl
@[simp] theorem emit_ir (v : Number) (s : State) : (emit v s).ir = s.ir := rfl
@[simp] theorem emit_tsp (v : Number) (s : State) : (emit v s).tsp = s.tsp := rfl
@[simp] theorem emit_cc (v : Number) (s : State) : (emit v s).cc = s.cc := rfl
@[simp] theorem emit_status (v : Number) (s : State) : (emit v s).status = s.status := rfl
@[simp] theorem emit_launch (v : Number) (s : State) : (emit v s).launch = s.launch := rfl
@[simp] theorem emit_input (v : Number) (s : State) : (emit v s).input = s.input := rfl
@[simp] theorem emit_output (v : Number) (s : State) : (emit v s).output = s.output ++ [v] := rfl
@[simp] theorem emit_diag (v : Number) (s : State) : (emit v s).diag = s.diag := rfl

/-! ## `supplyInput` -/

/-- An input moves only while a SCAN waits, and then the channel holds that one number (R340). -/
theorem supplyInput_eq_some (v : Number) (s t : State) :
    supplyInput v s = some t ↔ waiting s = true ∧ t = { s with input := [v] } := by
  unfold supplyInput
  split
  · next h => exact ⟨fun e => ⟨h, (Option.some.inj e).symm⟩, fun e => e.2 ▸ rfl⟩
  · next h => exact ⟨nofun, fun e => absurd e.1 h⟩

/-- A SCAN that has been answered no longer waits. -/
theorem waiting_answered (v : Number) (rest : List Number) (s : State) : waiting { s with input := v :: rest } = false := by
  unfold waiting
  split <;> simp_all

/-! ## `setReg` -/

@[simp] theorem setReg_regs (n : Nat) (w : Word) (s : State) : (setReg n w s).regs = s.regs.set n w := rfl
@[simp] theorem setReg_mem (n : Nat) (w : Word) (s : State) : (setReg n w s).mem = s.mem := rfl
@[simp] theorem setReg_pc (n : Nat) (w : Word) (s : State) : (setReg n w s).pc = s.pc := rfl
@[simp] theorem setReg_ir (n : Nat) (w : Word) (s : State) : (setReg n w s).ir = s.ir := rfl
@[simp] theorem setReg_tsp (n : Nat) (w : Word) (s : State) : (setReg n w s).tsp = s.tsp := rfl
@[simp] theorem setReg_cc (n : Nat) (w : Word) (s : State) : (setReg n w s).cc = s.cc := rfl
@[simp] theorem setReg_status (n : Nat) (w : Word) (s : State) : (setReg n w s).status = s.status := rfl
@[simp] theorem setReg_launch (n : Nat) (w : Word) (s : State) : (setReg n w s).launch = s.launch := rfl
@[simp] theorem setReg_input (n : Nat) (w : Word) (s : State) : (setReg n w s).input = s.input := rfl
@[simp] theorem setReg_output (n : Nat) (w : Word) (s : State) : (setReg n w s).output = s.output := rfl
@[simp] theorem setReg_diag (n : Nat) (w : Word) (s : State) : (setReg n w s).diag = s.diag := rfl

/-! ## `setSlot` -/

@[simp] theorem setSlot_regs (n : Nat) (w : Word) (s : State) : (setSlot n w s).regs = s.regs := rfl
@[simp] theorem setSlot_mem (n : Nat) (w : Word) (s : State) : (setSlot n w s).mem = writeSlot s.mem n w := rfl
@[simp] theorem setSlot_pc (n : Nat) (w : Word) (s : State) : (setSlot n w s).pc = s.pc := rfl
@[simp] theorem setSlot_ir (n : Nat) (w : Word) (s : State) : (setSlot n w s).ir = s.ir := rfl
@[simp] theorem setSlot_tsp (n : Nat) (w : Word) (s : State) : (setSlot n w s).tsp = s.tsp := rfl
@[simp] theorem setSlot_cc (n : Nat) (w : Word) (s : State) : (setSlot n w s).cc = s.cc := rfl
@[simp] theorem setSlot_status (n : Nat) (w : Word) (s : State) : (setSlot n w s).status = s.status := rfl
@[simp] theorem setSlot_launch (n : Nat) (w : Word) (s : State) : (setSlot n w s).launch = s.launch := rfl
@[simp] theorem setSlot_input (n : Nat) (w : Word) (s : State) : (setSlot n w s).input = s.input := rfl
@[simp] theorem setSlot_output (n : Nat) (w : Word) (s : State) : (setSlot n w s).output = s.output := rfl
@[simp] theorem setSlot_diag (n : Nat) (w : Word) (s : State) : (setSlot n w s).diag = s.diag := rfl

/-! ## `withFetchWord` -/

@[simp] theorem withFetchWord_regs (s : State) (nbits w : Nat) :
    (s.withFetchWord nbits w).regs = s.regs := rfl
@[simp] theorem withFetchWord_mem (s : State) (nbits w : Nat) :
    (s.withFetchWord nbits w).mem = writeSlot s.mem s.pc (BitVec.ofNat 32 (w % 2 ^ nbits)) := rfl
@[simp] theorem withFetchWord_pc (s : State) (nbits w : Nat) :
    (s.withFetchWord nbits w).pc = s.pc := rfl
@[simp] theorem withFetchWord_ir (s : State) (nbits w : Nat) :
    (s.withFetchWord nbits w).ir = s.ir := rfl
@[simp] theorem withFetchWord_tsp (s : State) (nbits w : Nat) :
    (s.withFetchWord nbits w).tsp = s.tsp := rfl
@[simp] theorem withFetchWord_cc (s : State) (nbits w : Nat) :
    (s.withFetchWord nbits w).cc = s.cc := rfl
@[simp] theorem withFetchWord_status (s : State) (nbits w : Nat) :
    (s.withFetchWord nbits w).status = s.status := rfl
@[simp] theorem withFetchWord_launch (s : State) (nbits w : Nat) :
    (s.withFetchWord nbits w).launch = { s.launch with codeEnd := max s.launch.codeEnd (s.pc + 1) } := rfl
@[simp] theorem withFetchWord_input (s : State) (nbits w : Nat) :
    (s.withFetchWord nbits w).input = s.input := rfl
@[simp] theorem withFetchWord_output (s : State) (nbits w : Nat) :
    (s.withFetchWord nbits w).output = s.output := rfl
@[simp] theorem withFetchWord_diag (s : State) (nbits w : Nat) :
    (s.withFetchWord nbits w).diag = s.diag := rfl

/-! ## Reading registers -/

@[simp] theorem regWord_report (c : FaultCause) (s : State) (n : Nat) : regWord (report c s) n = regWord s n := rfl
@[simp] theorem regWord_takeFault (c : FaultCause) (s : State) (n : Nat) : regWord (takeFault c s) n = regWord s n := rfl
@[simp] theorem regWord_haltWith (h : HaltReason) (s : State) (n : Nat) : regWord (haltWith h s) n = regWord s n := rfl
@[simp] theorem regWord_emit (v : Number) (s : State) (n : Nat) : regWord (emit v s) n = regWord s n := rfl
@[simp] theorem regWord_setSlot (p : Nat) (w : Word) (s : State) (n : Nat) : regWord (setSlot p w s) n = regWord s n := rfl

/-- A register written reads back the word, and every other register reads as before. -/
theorem regWord_setReg (n m : Nat) (w : Word) (s : State) (h : n < s.nreg) :
    regWord (setReg n w s) m = if m = n then w else regWord s m := by
  by_cases hm : m = n
  · subst hm; simp [regWord, h]
  · simp [regWord, hm, Ne.symm hm, List.getD_eq_getElem?_getD]

/-- A register that is not the one written reads as before, whether or not the write found its slot. -/
theorem regWord_setReg_ne {n m : Nat} (w : Word) (s : State) (h : m ≠ n) : regWord (setReg n w s) m = regWord s m := by
  simp [regWord, Ne.symm h, List.getD_eq_getElem?_getD]

/-! ## The number of registers -/

@[simp] theorem setReg_nreg (n : Nat) (w : Word) (s : State) : (setReg n w s).nreg = s.nreg := by simp [State.nreg]
@[simp] theorem setSlot_nreg (p : Nat) (w : Word) (s : State) : (setSlot p w s).nreg = s.nreg := rfl
@[simp] theorem report_nreg (c : FaultCause) (s : State) : (report c s).nreg = s.nreg := rfl
@[simp] theorem takeFault_nreg (c : FaultCause) (s : State) : (takeFault c s).nreg = s.nreg := rfl
@[simp] theorem haltWith_nreg (h : HaltReason) (s : State) : (haltWith h s).nreg = s.nreg := rfl
@[simp] theorem emit_nreg (v : Number) (s : State) : (emit v s).nreg = s.nreg := rfl

/-! ## Reset -/

@[simp] theorem resetWith_regs (p : Params) : (State.resetWith p).regs = List.replicate p.nreg 0#32 := rfl
@[simp] theorem resetWith_mem (p : Params) : (State.resetWith p).mem = [] := rfl
@[simp] theorem resetWith_pc (p : Params) : (State.resetWith p).pc = p.codeBase := rfl
@[simp] theorem resetWith_ir (p : Params) : (State.resetWith p).ir = 0 := rfl
@[simp] theorem resetWith_tsp (p : Params) : (State.resetWith p).tsp = p.stackBase := rfl
@[simp] theorem resetWith_cc (p : Params) : (State.resetWith p).cc = .eq := rfl
@[simp] theorem resetWith_status (p : Params) : (State.resetWith p).status = .running := rfl
@[simp] theorem resetWith_input (p : Params) : (State.resetWith p).input = [] := rfl
@[simp] theorem resetWith_output (p : Params) : (State.resetWith p).output = [] := rfl
@[simp] theorem resetWith_diag (p : Params) : (State.resetWith p).diag = [] := rfl

end Sys2Proof.Machine
end

