-- ==== Sys2Proof/Laws/Ops.lean ====
section
/-! SUPPORT. What each shared operation can do, said once: later proofs cite these and unfold no operation. -/

namespace Sys2Proof.Machine

variable {α β : Type}

/-! ## Sequencing -/

@[simp] theorem Res.bind_ok (a : α) (s : State) (f : α → State → Res β) : (Res.ok a s).bind f = f a s := rfl

@[simp] theorem Res.bind_raise (c : FaultCause) (s : State) (f : α → State → Res β) :
    (Res.raise c s).bind f = .raise c s := rfl

/-- Two parts answer a value exactly when both do. -/
theorem Res.bind_eq_ok {r : Res α} {f : α → State → Res β} {b : β} {t : State} :
    r.bind f = .ok b t ↔ ∃ a s, r = .ok a s ∧ f a s = .ok b t := by
  cases r with
  | ok a s => simp
  | raise c s => simp

/-- Two parts raise exactly when the first does, or the second does after the first answered. -/
theorem Res.bind_eq_raise {r : Res α} {f : α → State → Res β} {c : FaultCause} {t : State} :
    r.bind f = .raise c t ↔ r = .raise c t ∨ ∃ a s, r = .ok a s ∧ f a s = .raise c t := by
  cases r with
  | ok a s => simp
  | raise d s => simp

/-- An instruction always ends in a next state: its parts answered, and PC is the answer, or they raised, and the
fault was taken. -/
theorem conclude_eq_next {r : Res Nat} {t : State} :
    conclude r = .next t ↔
      (∃ n s, r = .ok n s ∧ t = { s with pc := n }) ∨ (∃ c s, r = .raise c s ∧ t = takeFault c s) := by
  cases r with
  | ok n s => simp [conclude, eq_comm]
  | raise c s => simp [conclude, eq_comm]

@[simp] theorem conclude_ok (n : Nat) (s : State) : conclude (.ok n s) = .next { s with pc := n } := rfl

@[simp] theorem conclude_raise (c : FaultCause) (s : State) : conclude (.raise c s) = .next (takeFault c s) := rfl

@[simp] theorem advance_eq (s : State) : advance s = .ok (s.pc + 1) s := rfl

/-! ## Checks -/

theorem checkReg_eq_ok {n r : Nat} {s t : State} : checkReg n s = .ok r t ↔ n < s.nreg ∧ r = n ∧ t = s := by
  unfold checkReg
  split <;> simp_all [eq_comm]

theorem checkReg_eq_raise {n : Nat} {c : FaultCause} {s t : State} :
    checkReg n s = .raise c t ↔ s.nreg ≤ n ∧ c = .registerOutOfRange n ∧ t = s := by
  unfold checkReg
  split <;> simp_all [eq_comm]

/-- A rational with denominator 1 is the natural number p exactly when its numerator is. -/
theorem eq_natCast_iff {v : Number} {p : Nat} : v = (p : Rat) ↔ v.den = 1 ∧ v.num = p := by
  constructor
  · rintro rfl; simp
  · rintro ⟨hd, hn⟩
    rw [← Rat.num_div_den v, hd, hn]; simp

/-- The address check answers exactly the natural numbers below NMEM (R61). -/
theorem checkAddr_eq_ok {v : Number} {p : Nat} {s t : State} :
    checkAddr v s = .ok p t ↔ v = (p : Rat) ∧ p < s.launch.nmem ∧ t = s := by
  rw [eq_natCast_iff]
  unfold checkAddr
  split
  · simp_all
  · split
    · simp only [reduceCtorEq, false_iff]; omega
    · simp only [Res.ok.injEq]
      constructor
      · rintro ⟨rfl, rfl⟩; refine ⟨⟨by simp_all, by omega⟩, by omega, rfl⟩
      · rintro ⟨⟨_, h⟩, _, rfl⟩; refine ⟨by omega, rfl⟩

/-- What the address check raises, and that it changes nothing (R61). -/
theorem checkAddr_eq_raise {v : Number} {c : FaultCause} {s t : State} :
    checkAddr v s = .raise c t ↔
      t = s ∧ ((v.den ≠ 1 ∧ c = .addressNotInteger v) ∨
        (v.den = 1 ∧ (v.num < 0 ∨ (s.launch.nmem : Int) ≤ v.num) ∧ c = .addressOutOfRange v)) := by
  unfold checkAddr
  split
  · simp_all [eq_comm, and_comm]
  · rename_i hd
    rw [not_not] at hd
    split
    · rename_i hr
      simp only [Res.raise.injEq]
      constructor
      · rintro ⟨rfl, rfl⟩; exact ⟨rfl, .inr ⟨hd, hr, rfl⟩⟩
      · rintro ⟨rfl, ⟨h, _⟩ | ⟨_, _, rfl⟩⟩
        · exact absurd hd h
        · exact ⟨rfl, rfl⟩
    · rename_i hr
      simp only [reduceCtorEq, false_iff]
      rintro ⟨_, ⟨h, _⟩ | ⟨_, h, _⟩⟩
      · exact h hd
      · exact hr h

/-- The address check on a natural number. -/
theorem checkAddr_natCast (p : Nat) (s : State) :
    checkAddr (p : Rat) s = if p < s.launch.nmem then .ok p s else .raise (.addressOutOfRange (p : Rat)) s := by
  split
  · rename_i h; exact checkAddr_eq_ok.mpr ⟨rfl, h, rfl⟩
  · rename_i h; refine checkAddr_eq_raise.mpr ⟨rfl, .inr ⟨by simp, .inr (by simp; omega), rfl⟩⟩

/-! ## Reads -/

theorem readReg_eq_ok {n : Nat} {v : Number} {s t : State} :
    readReg n s = .ok v t ↔ n < s.nreg ∧ v = decodeNum (regWord s n) ∧ t = s := by
  unfold readReg checkReg
  split <;> simp_all [eq_comm]

theorem readReg_eq_raise {n : Nat} {c : FaultCause} {s t : State} :
    readReg n s = .raise c t ↔ s.nreg ≤ n ∧ c = .registerOutOfRange n ∧ t = s := by
  unfold readReg checkReg
  split <;> simp_all [eq_comm]

theorem readMem_eq_ok {p : Nat} {v : Number} {s t : State} :
    readMem p s = .ok v t ↔ p < s.launch.nmem ∧ v = decodeNum (readSlot s.mem p) ∧ t = s := by
  unfold readMem
  rw [checkAddr_natCast]
  split <;> simp_all [eq_comm]

theorem readMem_eq_raise {p : Nat} {c : FaultCause} {s t : State} :
    readMem p s = .raise c t ↔ s.launch.nmem ≤ p ∧ c = .addressOutOfRange (p : Rat) ∧ t = s := by
  unfold readMem
  rw [checkAddr_natCast]
  split <;> simp_all [eq_comm]

/-! ## Writes -/

theorem encodeOrRaise_eq_ok {v : Number} {w : Word} {s t : State} :
    encodeOrRaise v s = .ok w t ↔ encode v = .word w ∧ t = s := by
  unfold encodeOrRaise
  split <;> simp_all [eq_comm]

theorem encodeOrRaise_eq_raise {v : Number} {c : FaultCause} {s t : State} :
    encodeOrRaise v s = .raise c t ↔
      t = s ∧ ((encode v = .fault .overflow ∧ c = .encodeOverflow v) ∨
        (encode v = .fault .underflow ∧ c = .encodeUnderflow v)) := by
  unfold encodeOrRaise
  split <;> simp_all [eq_comm, and_comm]

theorem writeReg_eq_ok {n : Nat} {w : Word} {s t : State} {u : Unit} :
    writeReg n w s = .ok u t ↔ n < s.nreg ∧ t = setReg n w s := by
  unfold writeReg checkReg
  split <;> simp_all [eq_comm]

theorem writeReg_eq_raise {n : Nat} {w : Word} {c : FaultCause} {s t : State} :
    writeReg n w s = .raise c t ↔ s.nreg ≤ n ∧ c = .registerOutOfRange n ∧ t = s := by
  unfold writeReg checkReg
  split <;> simp_all [eq_comm]

theorem writeMem_eq_ok {p : Nat} {w : Word} {s t : State} {u : Unit} :
    writeMem p w s = .ok u t ↔ p < s.launch.nmem ∧ t = setSlot p w s := by
  unfold writeMem
  rw [checkAddr_natCast]
  split <;> simp_all [eq_comm]

theorem writeMem_eq_raise {p : Nat} {w : Word} {c : FaultCause} {s t : State} :
    writeMem p w s = .raise c t ↔ s.launch.nmem ≤ p ∧ c = .addressOutOfRange (p : Rat) ∧ t = s := by
  unfold writeMem
  rw [checkAddr_natCast]
  split <;> simp_all [eq_comm]

/-! ## The stack -/

theorem push_eq_ok {w : Word} {s t : State} {u : Unit} :
    push w s = .ok u t ↔
      s.tsp + 1 < s.launch.nmem ∧ t = setSlot (s.tsp + 1) w { s with tsp := s.tsp + 1 } := by
  unfold push
  split <;> simp_all [eq_comm]

theorem push_eq_raise {w : Word} {c : FaultCause} {s t : State} :
    push w s = .raise c t ↔
      s.launch.nmem ≤ s.tsp + 1 ∧ c = .addressOutOfRange ((s.tsp + 1 : Nat) : Rat) ∧ t = s := by
  unfold push
  split <;> simp_all [eq_comm]

theorem pop_eq_ok {v : Number} {s t : State} :
    pop s = .ok v t ↔
      s.launch.spr < s.tsp ∧ s.tsp < s.launch.nmem ∧ v = decodeNum (readSlot s.mem s.tsp) ∧
        t = { s with tsp := s.tsp - 1 } := by
  unfold pop
  split
  · simp; omega
  · simp only [Res.bind_eq_ok, readMem_eq_ok]
    constructor
    · rintro ⟨a, u, ⟨h1, rfl, rfl⟩, h2⟩; cases h2; exact ⟨by omega, h1, rfl, rfl⟩
    · rintro ⟨h1, h2, rfl, rfl⟩; exact ⟨_, _, ⟨h2, rfl, rfl⟩, rfl⟩

/-- What a pop raises, with nothing changed: the empty stack, or a top pointer outside memory, which `Inv` rules out. -/
theorem pop_eq_raise {c : FaultCause} {s t : State} :
    pop s = .raise c t ↔
      t = s ∧ ((s.tsp ≤ s.launch.spr ∧ c = .stackUnderflow) ∨
        (s.launch.spr < s.tsp ∧ s.launch.nmem ≤ s.tsp ∧ c = .addressOutOfRange (s.tsp : Rat))) := by
  unfold pop
  split
  · rename_i h; simp [h, Nat.not_lt.mpr h, and_comm, eq_comm]
  · rename_i h
    simp only [Res.bind_eq_raise, readMem_eq_raise, readMem_eq_ok]
    constructor
    · rintro (⟨h1, rfl, rfl⟩ | ⟨_, _, _, h2⟩)
      · exact ⟨rfl, .inr ⟨by omega, h1, rfl⟩⟩
      · cases h2
    · rintro ⟨rfl, ⟨h1, _⟩ | ⟨_, h1, rfl⟩⟩
      · exact absurd h1 h
      · exact .inl ⟨h1, rfl, rfl⟩

theorem top_eq_ok {v : Number} {s t : State} :
    top s = .ok v t ↔
      s.launch.spr < s.tsp ∧ s.tsp < s.launch.nmem ∧ v = decodeNum (readSlot s.mem s.tsp) ∧ t = s := by
  unfold top
  split
  · simp; omega
  · rw [readMem_eq_ok]; simp_all

theorem top_eq_raise {c : FaultCause} {s t : State} :
    top s = .raise c t ↔
      t = s ∧ ((s.tsp ≤ s.launch.spr ∧ c = .stackEmpty) ∨
        (s.launch.spr < s.tsp ∧ s.launch.nmem ≤ s.tsp ∧ c = .addressOutOfRange (s.tsp : Rat))) := by
  unfold top
  split
  · rename_i h; simp [h, Nat.not_lt.mpr h, and_comm, eq_comm]
  · rename_i h; rw [readMem_eq_raise]; simp [h, Nat.lt_of_not_le h]; tauto

/-! ## Locations -/

/-- What a store into a location does. -/
def Stores (L : Loc) (w : Word) (s t : State) : Prop :=
  match L with
  | .regL n => n < s.nreg ∧ t = setReg n w s
  | .memL p => p < s.launch.nmem ∧ t = setSlot p w s
  | .pushL => s.tsp + 1 < s.launch.nmem ∧ t = setSlot (s.tsp + 1) w { s with tsp := s.tsp + 1 }

theorem storeLoc_eq_ok {L : Loc} {w : Word} {s t : State} {u : Unit} :
    storeLoc L w s = .ok u t ↔ Stores L w s t := by
  cases L with
  | regL n => exact writeReg_eq_ok
  | memL p => exact writeMem_eq_ok
  | pushL => exact push_eq_ok

/-- A store that raises has changed nothing. -/
theorem storeLoc_raise_state {L : Loc} {w : Word} {c : FaultCause} {s t : State} (h : storeLoc L w s = .raise c t) :
    t = s := by
  cases L with
  | regL n => exact (writeReg_eq_raise.mp h).2.2
  | memL p => exact (writeMem_eq_raise.mp h).2.2
  | pushL => exact (push_eq_raise.mp h).2.2

/-- A write of a value does exactly the store of its encoding (R174). -/
theorem writeLoc_eq_ok {L : Loc} {v : Number} {s t : State} {u : Unit} :
    writeLoc L v s = .ok u t ↔ ∃ w, encode v = .word w ∧ Stores L w s t := by
  unfold writeLoc
  simp only [Res.bind_eq_ok, encodeOrRaise_eq_ok, storeLoc_eq_ok]
  constructor
  · rintro ⟨w, _, ⟨h1, rfl⟩, h2⟩; exact ⟨w, h1, h2⟩
  · rintro ⟨w, h1, h2⟩; exact ⟨w, _, ⟨h1, rfl⟩, h2⟩

/-- A write that raises has changed nothing (R174). -/
theorem writeLoc_raise_state {L : Loc} {v : Number} {c : FaultCause} {s t : State} (h : writeLoc L v s = .raise c t) :
    t = s := by
  unfold writeLoc at h
  rcases Res.bind_eq_raise.mp h with h | ⟨w, u, h1, h2⟩
  · exact (encodeOrRaise_eq_raise.mp h).1
  · obtain ⟨_, rfl⟩ := encodeOrRaise_eq_ok.mp h1
    exact storeLoc_raise_state h2

/-- A location reads without changing anything, and the next stack slot does not read (R160). -/
theorem readLoc_eq_ok {L : Loc} {v : Number} {s t : State} :
    readLoc L s = .ok v t ↔
      t = s ∧ ((∃ n, L = .regL n ∧ n < s.nreg ∧ v = decodeNum (regWord s n)) ∨
        (∃ p, L = .memL p ∧ p < s.launch.nmem ∧ v = decodeNum (readSlot s.mem p))) := by
  cases L with
  | regL n => simp [readLoc, readReg_eq_ok]; tauto
  | memL p => simp [readLoc, readMem_eq_ok]; tauto
  | pushL => simp [readLoc]

theorem readLoc_raise_state {L : Loc} {c : FaultCause} {s t : State} (h : readLoc L s = .raise c t) : t = s := by
  cases L with
  | regL n => exact (readReg_eq_raise.mp h).2.2
  | memL p => exact (readMem_eq_raise.mp h).2.2
  | pushL => cases h; rfl

/-! ## Fetch -/

theorem fetch_eq_word {s : State} {w : Word} :
    fetch s = .word w ↔
      s.pc < s.launch.codeEnd ∧ s.pc < s.launch.nmem ∧ clearReserved w ≠ 0#32 ∧ w = readSlot s.mem s.pc := by
  unfold fetch
  split
  · simp; omega
  · split
    · simp; rintro _ _ h rfl; contradiction
    · simp only [Fetched.word.injEq]
      constructor
      · rintro rfl; exact ⟨by omega, by omega, by assumption, rfl⟩
      · rintro ⟨_, _, _, rfl⟩; rfl

theorem fetch_eq_ended {s : State} :
    fetch s = .ended ↔
      s.launch.codeEnd ≤ s.pc ∨ s.launch.nmem ≤ s.pc ∨ clearReserved (readSlot s.mem s.pc) = 0#32 := by
  unfold fetch
  split
  · simp; omega
  · split <;> simp_all

end Sys2Proof.Machine
end

