-- ==== Sys2Proof/Laws/Operands.lean ====
section
/-! SUPPORT. What resolving an operand can do: its effective address, value, location or target, and side effects. -/

namespace Sys2Proof.Machine

/-! ## Effective addresses -/

theorem eaRegInd_eq_ok {n p : Nat} {s t : State} :
    eaRegInd n s = .ok p t ↔ n < s.nreg ∧ decodeNum (regWord s n) = (p : Rat) ∧ p < s.launch.nmem ∧ t = s := by
  unfold eaRegInd
  simp only [Res.bind_eq_ok, readReg_eq_ok, checkAddr_eq_ok]
  constructor
  · rintro ⟨_, _, ⟨h, rfl, rfl⟩, h1, h2, rfl⟩; exact ⟨h, h1, h2, rfl⟩
  · rintro ⟨h, h1, h2, rfl⟩; exact ⟨_, _, ⟨h, rfl, rfl⟩, h1, h2, rfl⟩

theorem eaDirect_eq_ok {a p : Nat} {s t : State} : eaDirect a s = .ok p t ↔ p = a ∧ a < s.launch.nmem ∧ t = s := by
  unfold eaDirect
  rw [checkAddr_natCast]
  split
  · rename_i h; simp [h, eq_comm]
  · rename_i h; simp [h]

theorem eaIndirect_eq_ok {a p : Nat} {s t : State} :
    eaIndirect a s = .ok p t ↔
      a < s.launch.nmem ∧ decodeNum (readSlot s.mem a) = (p : Rat) ∧ p < s.launch.nmem ∧ t = s := by
  unfold eaIndirect
  simp only [Res.bind_eq_ok, readMem_eq_ok, checkAddr_eq_ok]
  constructor
  · rintro ⟨_, _, ⟨h, rfl, rfl⟩, h1, h2, rfl⟩; exact ⟨h, h1, h2, rfl⟩
  · rintro ⟨h, h1, h2, rfl⟩; exact ⟨_, _, ⟨h, rfl, rfl⟩, h1, h2, rfl⟩

theorem eaIndexed_eq_ok {idx d p : Nat} {s t : State} :
    eaIndexed idx d s = .ok p t ↔
      idx < s.nreg ∧ decodeNum (regWord s idx) + d = (p : Rat) ∧ p < s.launch.nmem ∧ t = s := by
  unfold eaIndexed
  simp only [Res.bind_eq_ok, readReg_eq_ok, checkAddr_eq_ok]
  constructor
  · rintro ⟨_, _, ⟨h, rfl, rfl⟩, h1, h2, rfl⟩; exact ⟨h, h1, h2, rfl⟩
  · rintro ⟨h, h1, h2, rfl⟩; exact ⟨_, _, ⟨h, rfl, rfl⟩, h1, h2, rfl⟩

theorem eaInc_eq_ok {n p : Nat} {s t : State} :
    eaInc n s = .ok p t ↔
      n < s.nreg ∧ decodeNum (regWord s n) = (p : Rat) ∧ p < s.launch.nmem ∧
        ∃ w, encode (p + 1) = .word w ∧ t = setReg n w s := by
  unfold eaInc
  simp only [Res.bind_eq_ok, readReg_eq_ok, checkAddr_eq_ok, writeLoc_eq_ok, Stores, Res.ok.injEq]
  constructor
  · rintro ⟨_, _, ⟨h, rfl, rfl⟩, _, _, ⟨h1, h2, rfl⟩, _, _, ⟨w, h3, _, rfl⟩, rfl, rfl⟩
    exact ⟨h, h1, h2, w, h3, rfl⟩
  · rintro ⟨h, h1, h2, w, h3, rfl⟩
    exact ⟨_, _, ⟨h, rfl, rfl⟩, _, _, ⟨h1, h2, rfl⟩, (), _, ⟨w, h3, h, rfl⟩, rfl, rfl⟩

theorem eaDec_eq_ok {n p : Nat} {s t : State} :
    eaDec n s = .ok p t ↔
      n < s.nreg ∧ decodeNum (regWord s n) - 1 = (p : Rat) ∧ p < s.launch.nmem ∧
        ∃ w, encode p = .word w ∧ t = setReg n w s := by
  unfold eaDec
  simp only [Res.bind_eq_ok, readReg_eq_ok, checkAddr_eq_ok, writeLoc_eq_ok, Stores, Res.ok.injEq]
  constructor
  · rintro ⟨_, _, ⟨h, rfl, rfl⟩, _, _, ⟨h1, h2, rfl⟩, _, _, ⟨w, h3, _, rfl⟩, rfl, rfl⟩
    exact ⟨h, h1, h2, w, h3, rfl⟩
  · rintro ⟨h, h1, h2, w, h3, rfl⟩
    exact ⟨_, _, ⟨h, rfl, rfl⟩, _, _, ⟨h1, h2, rfl⟩, (), _, ⟨w, h3, h, rfl⟩, rfl, rfl⟩

/-! ## An effective address that faults has changed nothing (R169) -/

theorem eaRegInd_raise_state {n : Nat} {c : FaultCause} {s t : State} (h : eaRegInd n s = .raise c t) : t = s := by
  rcases Res.bind_eq_raise.mp h with h | ⟨_, _, h1, h2⟩
  · exact (readReg_eq_raise.mp h).2.2
  · obtain ⟨_, _, rfl⟩ := readReg_eq_ok.mp h1
    exact (checkAddr_eq_raise.mp h2).1

theorem eaDirect_raise_state {a : Nat} {c : FaultCause} {s t : State} (h : eaDirect a s = .raise c t) : t = s :=
  (checkAddr_eq_raise.mp h).1

theorem eaIndirect_raise_state {a : Nat} {c : FaultCause} {s t : State} (h : eaIndirect a s = .raise c t) : t = s := by
  rcases Res.bind_eq_raise.mp h with h | ⟨_, _, h1, h2⟩
  · exact (readMem_eq_raise.mp h).2.2
  · obtain ⟨_, _, rfl⟩ := readMem_eq_ok.mp h1
    exact (checkAddr_eq_raise.mp h2).1

theorem eaIndexed_raise_state {idx d : Nat} {c : FaultCause} {s t : State} (h : eaIndexed idx d s = .raise c t) :
    t = s := by
  rcases Res.bind_eq_raise.mp h with h | ⟨_, _, h1, h2⟩
  · exact (readReg_eq_raise.mp h).2.2
  · obtain ⟨_, _, rfl⟩ := readReg_eq_ok.mp h1
    exact (checkAddr_eq_raise.mp h2).1

theorem eaInc_raise_state {n : Nat} {c : FaultCause} {s t : State} (h : eaInc n s = .raise c t) : t = s := by
  rcases Res.bind_eq_raise.mp h with h | ⟨_, _, h1, h2⟩
  · exact (readReg_eq_raise.mp h).2.2
  · obtain ⟨_, _, rfl⟩ := readReg_eq_ok.mp h1
    rcases Res.bind_eq_raise.mp h2 with h2 | ⟨_, _, h3, h4⟩
    · exact (checkAddr_eq_raise.mp h2).1
    · obtain ⟨_, _, rfl⟩ := checkAddr_eq_ok.mp h3
      rcases Res.bind_eq_raise.mp h4 with h4 | ⟨_, _, _, h5⟩
      · exact writeLoc_raise_state h4
      · cases h5

theorem eaDec_raise_state {n : Nat} {c : FaultCause} {s t : State} (h : eaDec n s = .raise c t) : t = s := by
  rcases Res.bind_eq_raise.mp h with h | ⟨_, _, h1, h2⟩
  · exact (readReg_eq_raise.mp h).2.2
  · obtain ⟨_, _, rfl⟩ := readReg_eq_ok.mp h1
    rcases Res.bind_eq_raise.mp h2 with h2 | ⟨_, _, h3, h4⟩
    · exact (checkAddr_eq_raise.mp h2).1
    · obtain ⟨_, _, rfl⟩ := checkAddr_eq_ok.mp h3
      rcases Res.bind_eq_raise.mp h4 with h4 | ⟨_, _, _, h5⟩
      · exact writeLoc_raise_state h4
      · cases h5

/-! ## Side effects -/

/-- All that resolving an operand can do to the state (R160): nothing, a step of its own register (R169), or a pop
(R168). -/
inductive SideEffect (o : Operand) (s : State) : State → Prop where
  | none : SideEffect o s s
  | step (n : Nat) (w : Word) (ho : o = .autoInc n ∨ o = .autoDec n) (hn : n < s.nreg) : SideEffect o s (setReg n w s)
  | pop (ho : o = .pop) (hs : s.launch.spr < s.tsp) (hm : s.tsp < s.launch.nmem) :
    SideEffect o s { s with tsp := s.tsp - 1 }

theorem val_ok_effect {o : Operand} {v : Number} {s t : State} (h : val o s = .ok v t) : SideEffect o s t := by
  cases o with
  | imm n => cases h; exact .none
  | reg n => obtain ⟨_, _, rfl⟩ := readReg_eq_ok.mp h; exact .none
  | regInd n =>
    obtain ⟨_, _, h1, h2⟩ := Res.bind_eq_ok.mp h
    obtain ⟨_, _, _, rfl⟩ := eaRegInd_eq_ok.mp h1
    obtain ⟨_, _, rfl⟩ := readMem_eq_ok.mp h2
    exact .none
  | direct a =>
    obtain ⟨_, _, h1, h2⟩ := Res.bind_eq_ok.mp h
    obtain ⟨_, _, rfl⟩ := eaDirect_eq_ok.mp h1
    obtain ⟨_, _, rfl⟩ := readMem_eq_ok.mp h2
    exact .none
  | indirect a =>
    obtain ⟨_, _, h1, h2⟩ := Res.bind_eq_ok.mp h
    obtain ⟨_, _, _, rfl⟩ := eaIndirect_eq_ok.mp h1
    obtain ⟨_, _, rfl⟩ := readMem_eq_ok.mp h2
    exact .none
  | indexed1 d =>
    obtain ⟨_, _, h1, h2⟩ := Res.bind_eq_ok.mp h
    obtain ⟨_, _, _, rfl⟩ := eaIndexed_eq_ok.mp h1
    obtain ⟨_, _, rfl⟩ := readMem_eq_ok.mp h2
    exact .none
  | indexed2 d =>
    obtain ⟨_, _, h1, h2⟩ := Res.bind_eq_ok.mp h
    obtain ⟨_, _, _, rfl⟩ := eaIndexed_eq_ok.mp h1
    obtain ⟨_, _, rfl⟩ := readMem_eq_ok.mp h2
    exact .none
  | top => obtain ⟨_, _, _, rfl⟩ := top_eq_ok.mp h; exact .none
  | push => cases h
  | pop => obtain ⟨h1, h2, _, rfl⟩ := pop_eq_ok.mp h; exact .pop rfl h1 h2
  | autoInc n =>
    obtain ⟨_, _, h1, h2⟩ := Res.bind_eq_ok.mp h
    obtain ⟨hn, _, _, w, _, rfl⟩ := eaInc_eq_ok.mp h1
    obtain ⟨_, _, rfl⟩ := readMem_eq_ok.mp h2
    exact .step n w (.inl rfl) hn
  | autoDec n =>
    obtain ⟨_, _, h1, h2⟩ := Res.bind_eq_ok.mp h
    obtain ⟨hn, _, _, w, _, rfl⟩ := eaDec_eq_ok.mp h1
    obtain ⟨_, _, rfl⟩ := readMem_eq_ok.mp h2
    exact .step n w (.inr rfl) hn

/-- A read that follows a checked address never raises: so a memory operand that raises has raised in its address. -/
theorem ea_then_readMem_raise {r : Res Nat} {c : FaultCause} {t : State} {s : State}
    (hok : ∀ p u, r = .ok p u → p < u.launch.nmem) (hraise : ∀ d u, r = .raise d u → u = s)
    (h : r.bind (fun p s1 => readMem p s1) = .raise c t) : t = s := by
  rcases Res.bind_eq_raise.mp h with h | ⟨p, u, h1, h2⟩
  · exact hraise c t h
  · have := hok p u h1
    have := (readMem_eq_raise.mp h2).1
    omega

theorem val_raise_state {o : Operand} {c : FaultCause} {s t : State} (h : val o s = .raise c t) : t = s := by
  cases o with
  | imm n => cases h
  | reg n => exact (readReg_eq_raise.mp h).2.2
  | regInd n =>
    refine ea_then_readMem_raise (fun p u hp => ?_) (fun _ _ => eaRegInd_raise_state) h
    obtain ⟨_, _, h, rfl⟩ := eaRegInd_eq_ok.mp hp; exact h
  | direct a =>
    refine ea_then_readMem_raise (fun p u hp => ?_) (fun _ _ => eaDirect_raise_state) h
    obtain ⟨rfl, h, rfl⟩ := eaDirect_eq_ok.mp hp; exact h
  | indirect a =>
    refine ea_then_readMem_raise (fun p u hp => ?_) (fun _ _ => eaIndirect_raise_state) h
    obtain ⟨_, _, h, rfl⟩ := eaIndirect_eq_ok.mp hp; exact h
  | indexed1 d =>
    refine ea_then_readMem_raise (fun p u hp => ?_) (fun _ _ => eaIndexed_raise_state) h
    obtain ⟨_, _, h, rfl⟩ := eaIndexed_eq_ok.mp hp; exact h
  | indexed2 d =>
    refine ea_then_readMem_raise (fun p u hp => ?_) (fun _ _ => eaIndexed_raise_state) h
    obtain ⟨_, _, h, rfl⟩ := eaIndexed_eq_ok.mp hp; exact h
  | top => exact (top_eq_raise.mp h).1
  | push => cases h; rfl
  | pop => exact (pop_eq_raise.mp h).1
  | autoInc n =>
    refine ea_then_readMem_raise (fun p u hp => ?_) (fun _ _ => eaInc_raise_state) h
    obtain ⟨_, _, h, _, _, rfl⟩ := eaInc_eq_ok.mp hp; exact h
  | autoDec n =>
    refine ea_then_readMem_raise (fun p u hp => ?_) (fun _ _ => eaDec_raise_state) h
    obtain ⟨_, _, h, _, _, rfl⟩ := eaDec_eq_ok.mp hp; exact h

/-- The location an operand resolves to exists: a register below NREG that the operand names, a memory slot below
NMEM, or the next stack slot, of a `PUSH` operand. -/
def Loc.Valid (L : Loc) (o : Operand) (s : State) : Prop :=
  match L with
  | .regL n => o = .reg n ∧ n < s.nreg
  | .memL p => p < s.launch.nmem
  | .pushL => o = .push

theorem loc_ok_effect {o : Operand} {L : Loc} {s t : State} (h : loc o s = .ok L t) :
    SideEffect o s t ∧ L.Valid o s := by
  cases o with
  | imm n => cases h
  | reg n =>
    obtain ⟨_, _, h1, h2⟩ := Res.bind_eq_ok.mp h
    obtain ⟨hp, rfl, rfl⟩ := checkReg_eq_ok.mp h1
    cases h2; exact ⟨.none, rfl, hp⟩
  | regInd n =>
    obtain ⟨_, _, h1, h2⟩ := Res.bind_eq_ok.mp h
    obtain ⟨_, _, hp, rfl⟩ := eaRegInd_eq_ok.mp h1
    cases h2; exact ⟨.none, hp⟩
  | direct a =>
    obtain ⟨_, _, h1, h2⟩ := Res.bind_eq_ok.mp h
    obtain ⟨rfl, hp, rfl⟩ := eaDirect_eq_ok.mp h1
    cases h2; exact ⟨.none, hp⟩
  | indirect a =>
    obtain ⟨_, _, h1, h2⟩ := Res.bind_eq_ok.mp h
    obtain ⟨_, _, hp, rfl⟩ := eaIndirect_eq_ok.mp h1
    cases h2; exact ⟨.none, hp⟩
  | indexed1 d =>
    obtain ⟨_, _, h1, h2⟩ := Res.bind_eq_ok.mp h
    obtain ⟨_, _, hp, rfl⟩ := eaIndexed_eq_ok.mp h1
    cases h2; exact ⟨.none, hp⟩
  | indexed2 d =>
    obtain ⟨_, _, h1, h2⟩ := Res.bind_eq_ok.mp h
    obtain ⟨_, _, hp, rfl⟩ := eaIndexed_eq_ok.mp h1
    cases h2; exact ⟨.none, hp⟩
  | top => cases h
  | push => cases h; exact ⟨.none, rfl⟩
  | pop => cases h
  | autoInc n =>
    obtain ⟨_, _, h1, h2⟩ := Res.bind_eq_ok.mp h
    obtain ⟨hn, _, hp, w, _, rfl⟩ := eaInc_eq_ok.mp h1
    cases h2; exact ⟨.step n w (.inl rfl) hn, hp⟩
  | autoDec n =>
    obtain ⟨_, _, h1, h2⟩ := Res.bind_eq_ok.mp h
    obtain ⟨hn, _, hp, w, _, rfl⟩ := eaDec_eq_ok.mp h1
    cases h2; exact ⟨.step n w (.inr rfl) hn, hp⟩

/-- An answer wrapped after a part never raises: the part did. -/
theorem bind_ok_raise {α β : Type} {r : Res α} {f : α → β} {c : FaultCause} {t : State}
    (h : (r.bind fun a s1 => .ok (f a) s1) = .raise c t) : r = .raise c t := by
  rcases Res.bind_eq_raise.mp h with h | ⟨_, _, _, h2⟩
  · exact h
  · cases h2

theorem loc_raise_state {o : Operand} {c : FaultCause} {s t : State} (h : loc o s = .raise c t) : t = s := by
  cases o with
  | imm n => cases h; rfl
  | reg n => exact (checkReg_eq_raise.mp (bind_ok_raise h)).2.2
  | regInd n => exact eaRegInd_raise_state (bind_ok_raise h)
  | direct a => exact eaDirect_raise_state (bind_ok_raise h)
  | indirect a => exact eaIndirect_raise_state (bind_ok_raise h)
  | indexed1 d => exact eaIndexed_raise_state (bind_ok_raise h)
  | indexed2 d => exact eaIndexed_raise_state (bind_ok_raise h)
  | top => cases h; rfl
  | push => cases h
  | pop => cases h; rfl
  | autoInc n => exact eaInc_raise_state (bind_ok_raise h)
  | autoDec n => exact eaDec_raise_state (bind_ok_raise h)

theorem tgt_ok_effect {o : Operand} {p : Nat} {s t : State} (h : tgt o s = .ok p t) :
    SideEffect o s t ∧ p < s.launch.nmem := by
  cases o with
  | imm n => obtain ⟨_, hp, rfl⟩ := checkAddr_eq_ok.mp h; exact ⟨.none, hp⟩
  | reg n => cases h
  | regInd n => obtain ⟨_, _, hp, rfl⟩ := eaRegInd_eq_ok.mp h; exact ⟨.none, hp⟩
  | direct a => obtain ⟨rfl, hp, rfl⟩ := eaDirect_eq_ok.mp h; exact ⟨.none, hp⟩
  | indirect a => obtain ⟨_, _, hp, rfl⟩ := eaIndirect_eq_ok.mp h; exact ⟨.none, hp⟩
  | indexed1 d => obtain ⟨_, _, hp, rfl⟩ := eaIndexed_eq_ok.mp h; exact ⟨.none, hp⟩
  | indexed2 d => obtain ⟨_, _, hp, rfl⟩ := eaIndexed_eq_ok.mp h; exact ⟨.none, hp⟩
  | top => cases h
  | push => cases h
  | pop => cases h
  | autoInc n => obtain ⟨hn, _, hp, w, _, rfl⟩ := eaInc_eq_ok.mp h; exact ⟨.step n w (.inl rfl) hn, hp⟩
  | autoDec n => obtain ⟨hn, _, hp, w, _, rfl⟩ := eaDec_eq_ok.mp h; exact ⟨.step n w (.inr rfl) hn, hp⟩

theorem tgt_raise_state {o : Operand} {c : FaultCause} {s t : State} (h : tgt o s = .raise c t) : t = s := by
  cases o with
  | imm n => exact (checkAddr_eq_raise.mp h).1
  | reg n => cases h; rfl
  | regInd n => exact eaRegInd_raise_state h
  | direct a => exact eaDirect_raise_state h
  | indirect a => exact eaIndirect_raise_state h
  | indexed1 d => exact eaIndexed_raise_state h
  | indexed2 d => exact eaIndexed_raise_state h
  | top => cases h; rfl
  | push => cases h; rfl
  | pop => cases h; rfl
  | autoInc n => exact eaInc_raise_state h
  | autoDec n => exact eaDec_raise_state h

/-! ## What is raised is fatal (R300) -/

/-- Whatever the part raises is of a fatal kind: only the ALU's recovered faults are not. -/
def Res.RaisesFatal {α : Type} (r : Res α) : Prop := ∀ c t, r = .raise c t → c.kind.fatal = true

theorem Res.RaisesFatal.bind {α β : Type} {r : Res α} {f : α → State → Res β} (h : r.RaisesFatal)
    (hf : ∀ a s, (f a s).RaisesFatal) : (r.bind f).RaisesFatal := by
  intro c t hr
  rcases Res.bind_eq_raise.mp hr with h1 | ⟨a, s, _, h2⟩
  · exact h c t h1
  · exact hf a s c t h2

theorem raisesFatal_ok {α : Type} (a : α) (s : State) : (Res.ok a s).RaisesFatal := fun _ _ h => by cases h

theorem checkReg_raisesFatal (n : Nat) (s : State) : (checkReg n s).RaisesFatal := fun c t h => by
  rw [(checkReg_eq_raise.mp h).2.1]; rfl

theorem checkAddr_raisesFatal (v : Number) (s : State) : (checkAddr v s).RaisesFatal := fun c t h => by
  rcases (checkAddr_eq_raise.mp h).2 with ⟨_, rfl⟩ | ⟨_, _, rfl⟩ <;> rfl

theorem readReg_raisesFatal (n : Nat) (s : State) : (readReg n s).RaisesFatal :=
  (checkReg_raisesFatal n s).bind fun _ _ => raisesFatal_ok _ _

theorem readMem_raisesFatal (p : Nat) (s : State) : (readMem p s).RaisesFatal :=
  (checkAddr_raisesFatal p s).bind fun _ _ => raisesFatal_ok _ _

theorem pop_raisesFatal (s : State) : (pop s).RaisesFatal := fun c t h => by
  rcases (pop_eq_raise.mp h).2 with ⟨_, rfl⟩ | ⟨_, _, rfl⟩ <;> rfl

theorem top_raisesFatal (s : State) : (top s).RaisesFatal := fun c t h => by
  rcases (top_eq_raise.mp h).2 with ⟨_, rfl⟩ | ⟨_, _, rfl⟩ <;> rfl

theorem writeLoc_raisesFatal (L : Loc) (v : Number) (s : State) : (writeLoc L v s).RaisesFatal := by
  refine Res.RaisesFatal.bind (fun c t h => ?_) fun w s1 => ?_
  · rcases (encodeOrRaise_eq_raise.mp h).2 with ⟨_, rfl⟩ | ⟨_, rfl⟩ <;> rfl
  · cases L with
    | regL n => exact fun c t h => by rw [(writeReg_eq_raise.mp h).2.1]; rfl
    | memL p => exact fun c t h => by rw [(writeMem_eq_raise.mp h).2.1]; rfl
    | pushL => exact fun c t h => by rw [(push_eq_raise.mp h).2.1]; rfl

theorem readLoc_raisesFatal (L : Loc) (s : State) : (readLoc L s).RaisesFatal := by
  cases L with
  | regL n => exact readReg_raisesFatal n s
  | memL p => exact readMem_raisesFatal p s
  | pushL => exact fun c t h => by cases h; rfl

theorem tgt_raisesFatal (o : Operand) (s : State) : (tgt o s).RaisesFatal := by
  cases o with
  | imm n => exact checkAddr_raisesFatal (n : Rat) s
  | direct a => exact checkAddr_raisesFatal (a : Rat) s
  | reg n | top | push | pop => exact fun c t h => by cases h; rfl
  | regInd n | indexed1 d | indexed2 d => exact (readReg_raisesFatal _ _).bind fun _ _ => checkAddr_raisesFatal _ _
  | indirect a => exact (readMem_raisesFatal _ _).bind fun _ _ => checkAddr_raisesFatal _ _
  | autoInc n | autoDec n =>
    exact (readReg_raisesFatal _ _).bind fun _ _ => (checkAddr_raisesFatal _ _).bind fun _ _ =>
      (writeLoc_raisesFatal _ _ _).bind fun _ _ => raisesFatal_ok _ _

theorem loc_raisesFatal (o : Operand) (s : State) : (loc o s).RaisesFatal := by
  cases o with
  | imm n | top | pop => exact fun c t h => by cases h; rfl
  | push => exact raisesFatal_ok _ _
  | reg n => exact (checkReg_raisesFatal _ _).bind fun _ _ => raisesFatal_ok _ _
  | regInd n => exact (tgt_raisesFatal (.regInd n) s).bind fun _ _ => raisesFatal_ok _ _
  | direct n => exact (tgt_raisesFatal (.direct n) s).bind fun _ _ => raisesFatal_ok _ _
  | indirect n => exact (tgt_raisesFatal (.indirect n) s).bind fun _ _ => raisesFatal_ok _ _
  | indexed1 n => exact (tgt_raisesFatal (.indexed1 n) s).bind fun _ _ => raisesFatal_ok _ _
  | indexed2 n => exact (tgt_raisesFatal (.indexed2 n) s).bind fun _ _ => raisesFatal_ok _ _
  | autoInc n => exact (tgt_raisesFatal (.autoInc n) s).bind fun _ _ => raisesFatal_ok _ _
  | autoDec n => exact (tgt_raisesFatal (.autoDec n) s).bind fun _ _ => raisesFatal_ok _ _

theorem val_raisesFatal (o : Operand) (s : State) : (val o s).RaisesFatal := by
  cases o with
  | imm n => exact raisesFatal_ok _ _
  | reg n => exact readReg_raisesFatal n s
  | top => exact top_raisesFatal s
  | push => exact fun c t h => by cases h; rfl
  | pop => exact pop_raisesFatal s
  | regInd n => exact (tgt_raisesFatal (.regInd n) s).bind fun _ _ => readMem_raisesFatal _ _
  | direct n => exact (tgt_raisesFatal (.direct n) s).bind fun _ _ => readMem_raisesFatal _ _
  | indirect n => exact (tgt_raisesFatal (.indirect n) s).bind fun _ _ => readMem_raisesFatal _ _
  | indexed1 n => exact (tgt_raisesFatal (.indexed1 n) s).bind fun _ _ => readMem_raisesFatal _ _
  | indexed2 n => exact (tgt_raisesFatal (.indexed2 n) s).bind fun _ _ => readMem_raisesFatal _ _
  | autoInc n => exact (tgt_raisesFatal (.autoInc n) s).bind fun _ _ => readMem_raisesFatal _ _
  | autoDec n => exact (tgt_raisesFatal (.autoDec n) s).bind fun _ _ => readMem_raisesFatal _ _

end Sys2Proof.Machine
end

