-- ==== Sys2Proof/Laws/Instructions.lean ====
section
/-! SUPPORT. What the templates of the instructions can do: arithmetic, jumps, and the stores that end an instruction. -/

namespace Sys2Proof.Machine

/-! ## What resolving an operand leaves alone -/

/-- Resolving an operand changes registers and TSP only. -/
structure Keeps (s t : State) : Prop where
  mem : t.mem = s.mem
  pc : t.pc = s.pc
  ir : t.ir = s.ir
  cc : t.cc = s.cc
  status : t.status = s.status
  launch : t.launch = s.launch
  nreg : t.nreg = s.nreg
  input : t.input = s.input
  output : t.output = s.output
  diag : t.diag = s.diag

theorem Keeps.refl (s : State) : Keeps s s := ⟨rfl, rfl, rfl, rfl, rfl, rfl, rfl, rfl, rfl, rfl⟩

theorem Keeps.trans {s t u : State} (h : Keeps s t) (k : Keeps t u) : Keeps s u :=
  ⟨k.mem.trans h.mem, k.pc.trans h.pc, k.ir.trans h.ir, k.cc.trans h.cc, k.status.trans h.status,
    k.launch.trans h.launch, k.nreg.trans h.nreg, k.input.trans h.input, k.output.trans h.output, k.diag.trans h.diag⟩

theorem SideEffect.keeps {o : Operand} {s t : State} (h : SideEffect o s t) : Keeps s t := by
  cases h <;> constructor <;> simp

/-- A register that the operand does not step reads as before. -/
theorem SideEffect.regWord {o : Operand} {s t : State} (h : SideEffect o s t) {n : Nat} (hn : n ∉ steppedReg o) :
    regWord t n = regWord s n := by
  cases h with
  | none => rfl
  | step m w ho hm =>
    refine regWord_setReg_ne w s ?_
    rintro rfl
    rcases ho with rfl | rfl <;> simp [steppedReg] at hn
  | pop ho hs hm => rfl

/-- TSP moves only under an operand that moves the stack. -/
theorem SideEffect.tsp {o : Operand} {s t : State} (h : SideEffect o s t) (ho : operandMovesStack o = false) :
    t.tsp = s.tsp := by
  cases h with
  | none => rfl
  | step m w _ hm => rfl
  | pop hp hs hm => subst hp; simp [operandMovesStack] at ho

/-- TSP stays within the stack's bounds. -/
theorem SideEffect.tsp_range {o : Operand} {s t : State} (h : SideEffect o s t) (h1 : s.launch.spr ≤ s.tsp)
    (h2 : s.tsp < s.launch.nmem) : s.launch.spr ≤ t.tsp ∧ t.tsp < s.launch.nmem := by
  cases h with
  | none => exact ⟨h1, h2⟩
  | step m w _ hm => exact ⟨h1, h2⟩
  | pop hp hs hm => constructor <;> simp only <;> omega

/-! ## The values operands give -/

/-- A source's value is a literal or a decoded word. -/
theorem val_ok_value {o : Operand} {v : Number} {s t : State} (h : val o s = .ok v t) :
    (∃ n, o = .imm n ∧ v = n) ∨ ∃ w, v = decodeNum w := by
  cases o with
  | imm n => cases h; exact .inl ⟨n, rfl, rfl⟩
  | reg n => exact .inr ⟨_, (readReg_eq_ok.mp h).2.1⟩
  | top => exact .inr ⟨_, (top_eq_ok.mp h).2.2.1⟩
  | pop => exact .inr ⟨_, (pop_eq_ok.mp h).2.2.1⟩
  | push => cases h
  | regInd n | direct n | indirect n | indexed1 n | indexed2 n | autoInc n | autoDec n =>
    obtain ⟨_, _, _, h2⟩ := Res.bind_eq_ok.mp h
    exact .inr ⟨_, (readMem_eq_ok.mp h2).2.1⟩

theorem val_ok_isDec2 {o : Operand} {v : Number} {s t : State} (h : val o s = .ok v t) : IsDec2 v := by
  rcases val_ok_value h with ⟨n, _, rfl⟩ | ⟨w, rfl⟩
  · exact isDec2_natCast n
  · exact decodeNum_isDec2 w

/-- The value read from a location is a decoded word, and the location is a register or a memory slot. -/
theorem readLoc_ok_value {L : Loc} {v : Number} {s t : State} (h : readLoc L s = .ok v t) :
    t = s ∧ L ≠ .pushL ∧ ∃ w, v = decodeNum w := by
  obtain ⟨rfl, ⟨n, rfl, _, rfl⟩ | ⟨p, rfl, _, rfl⟩⟩ := readLoc_eq_ok.mp h
  · exact ⟨rfl, by simp, _, rfl⟩
  · exact ⟨rfl, by simp, _, rfl⟩

/-! ## Stores that end an instruction -/

/-- A store into a location that an operand resolved to succeeds: only a push on the full stack does not. -/
theorem stores_put {L : Loc} {o : Operand} {s t : State} (hL : L.Valid o s) (hl : t.launch = s.launch)
    (hn : t.nreg = s.nreg) (hp : L = .pushL → t.tsp + 1 < t.launch.nmem) (w : Word) : Stores L w t (L.put w t) := by
  cases L with
  | regL n => exact ⟨by rw [hn]; exact hL.2, rfl⟩
  | memL p => exact ⟨by rw [hl]; exact hL, rfl⟩
  | pushL => exact ⟨hp rfl, rfl⟩

theorem stores_eq_put {L : Loc} {w : Word} {s t : State} (h : Stores L w s t) : t = L.put w s := by
  cases L <;> exact h.2

/-- Why a write of a value into a valid location raises: the value does not encode, or the stack is full. -/
theorem writeLoc_raise_cause {L : Loc} {o : Operand} {v : Number} {c : FaultCause} {s t u : State} (hL : L.Valid o s)
    (hl : t.launch = s.launch) (hn : t.nreg = s.nreg) (h : writeLoc L v t = .raise c u) :
    u = t ∧ ((encode v = .fault .overflow ∧ c = .encodeOverflow v) ∨
      (encode v = .fault .underflow ∧ c = .encodeUnderflow v) ∨
      (L = .pushL ∧ t.launch.nmem ≤ t.tsp + 1 ∧ c = .addressOutOfRange ((t.tsp + 1 : Nat) : Rat))) := by
  refine ⟨writeLoc_raise_state h, ?_⟩
  rcases Res.bind_eq_raise.mp h with h | ⟨w, u, h1, h2⟩
  · rcases (encodeOrRaise_eq_raise.mp h).2 with h | h
    · exact .inl h
    · exact .inr (.inl h)
  · obtain ⟨_, rfl⟩ := encodeOrRaise_eq_ok.mp h1
    by_cases hp : L = .pushL
    · subst hp
      obtain ⟨h3, h4, _⟩ := push_eq_raise.mp h2
      exact .inr (.inr ⟨rfl, h3, h4⟩)
    · have h3 := storeLoc_eq_ok (u := ()).mpr (stores_put hL hl hn (fun h => absurd h hp) w)
      rw [h2] at h3
      cases h3

@[simp] theorem put_pc (L : Loc) (w : Word) (s : State) : (L.put w s).pc = s.pc := by cases L <;> rfl
@[simp] theorem put_ir (L : Loc) (w : Word) (s : State) : (L.put w s).ir = s.ir := by cases L <;> rfl
@[simp] theorem put_cc (L : Loc) (w : Word) (s : State) : (L.put w s).cc = s.cc := by cases L <;> rfl
@[simp] theorem put_status (L : Loc) (w : Word) (s : State) : (L.put w s).status = s.status := by cases L <;> rfl
@[simp] theorem put_launch (L : Loc) (w : Word) (s : State) : (L.put w s).launch = s.launch := by cases L <;> rfl
@[simp] theorem put_nreg (L : Loc) (w : Word) (s : State) : (L.put w s).nreg = s.nreg := by cases L <;> simp [Loc.put]
@[simp] theorem put_input (L : Loc) (w : Word) (s : State) : (L.put w s).input = s.input := by cases L <;> rfl
@[simp] theorem put_output (L : Loc) (w : Word) (s : State) : (L.put w s).output = s.output := by cases L <;> rfl
@[simp] theorem put_diag (L : Loc) (w : Word) (s : State) : (L.put w s).diag = s.diag := by cases L <;> rfl

theorem put_mem_wf {L : Loc} {w : Word} {s : State} (h : s.mem.wf) : (L.put w s).mem.wf := by
  cases L with
  | regL n => exact h
  | memL p => exact writeSlot_wf h p w
  | pushL => exact writeSlot_wf h _ w

/-- A store changes no byte outside its slot. -/
theorem put_memSame {L : Loc} {w : Word} {s : State} (h : s.mem.wf) : MemSameOutside (L.slot s) s (L.put w s) := by
  intro k hk
  cases L with
  | regL n => rfl
  | memL p => exact readByte_writeSlot_of_outside h (hk p rfl) w
  | pushL => exact readByte_writeSlot_of_outside h (hk _ rfl) w

/-! ## The recovered fault's report (R304) -/

@[simp] theorem reportRecovered_none (s : State) : reportRecovered none s = s := rfl
@[simp] theorem reportRecovered_some (c : FaultCause) (s : State) : reportRecovered (some c) s = report c s := rfl
@[simp] theorem reportRecovered_mem (c : Option FaultCause) (s : State) : (reportRecovered c s).mem = s.mem := by
  cases c <;> rfl
@[simp] theorem reportRecovered_pc (c : Option FaultCause) (s : State) : (reportRecovered c s).pc = s.pc := by
  cases c <;> rfl
@[simp] theorem reportRecovered_launch (c : Option FaultCause) (s : State) :
    (reportRecovered c s).launch = s.launch := by cases c <;> rfl
@[simp] theorem reportRecovered_regs (c : Option FaultCause) (s : State) : (reportRecovered c s).regs = s.regs := by
  cases c <;> rfl
@[simp] theorem reportRecovered_tsp (c : Option FaultCause) (s : State) : (reportRecovered c s).tsp = s.tsp := by
  cases c <;> rfl

/-! ## The arithmetic template (R209) -/

/-- What the template does when it succeeds. -/
theorem arith_eq_ok {op : Number → Number → AluResult} {dst src : Operand} {s t : State} {r : Number} :
    arith op dst src s = .ok r t ↔
      ∃ L s1 x y s2 w, loc dst s = .ok L s1 ∧ readLoc L s1 = .ok x s1 ∧ val src s1 = .ok y s2 ∧
        encode (op x y).result = .word w ∧ r = (op x y).result ∧
        t = L.put w (reportRecovered (op x y).recovered s2) := by
  unfold arith
  constructor
  · intro h
    obtain ⟨L, s1, h1, k1⟩ := Res.bind_eq_ok.mp h
    obtain ⟨x, s1', h2, k2⟩ := Res.bind_eq_ok.mp k1
    obtain ⟨rfl, _, _⟩ := readLoc_ok_value h2
    obtain ⟨y, s2, h3, k3⟩ := Res.bind_eq_ok.mp k2
    obtain ⟨_, s4, h4, k4⟩ := Res.bind_eq_ok.mp k3
    obtain ⟨w, h5, h6⟩ := writeLoc_eq_ok.mp h4
    cases k4
    exact ⟨L, _, x, y, s2, w, h1, h2, h3, h5, rfl, stores_eq_put h6⟩
  · rintro ⟨L, s1, x, y, s2, w, h1, h2, h3, h4, rfl, rfl⟩
    obtain ⟨e1, v1⟩ := loc_ok_effect h1
    have k := e1.keeps.trans (val_ok_effect h3).keeps
    have hs : Stores L w (reportRecovered (op x y).recovered s2) (L.put w (reportRecovered (op x y).recovered s2)) :=
      stores_put v1 (by simp [k.launch]) (by simpa [State.nreg] using k.nreg)
        (fun h => absurd h (readLoc_ok_value h2).2.1) w
    rw [h1, Res.bind_ok, h2, Res.bind_ok, h3, Res.bind_ok, writeLoc_eq_ok (u := ()).mpr ⟨w, h4, hs⟩, Res.bind_ok]

/-- Why the template raises: operand 1, its read, operand 2, or a result that does not encode, which then is no
recovered one. -/
theorem arith_eq_raise {op : Number → Number → AluResult} {dst src : Operand} {s t : State} {c : FaultCause}
    (hop : ∀ x y, (op x y).recovered = none ∨ (op x y).result = 0) (h : arith op dst src s = .raise c t) :
    loc dst s = .raise c t ∨ (∃ L s1, loc dst s = .ok L s1 ∧ readLoc L s1 = .raise c t) ∨
    (∃ L s1 x, loc dst s = .ok L s1 ∧ readLoc L s1 = .ok x s1 ∧ val src s1 = .raise c t) ∨
    ∃ L s1 x y, loc dst s = .ok L s1 ∧ readLoc L s1 = .ok x s1 ∧ val src s1 = .ok y t ∧
      ((encode (op x y).result = .fault .overflow ∧ c = .encodeOverflow (op x y).result) ∨
        (encode (op x y).result = .fault .underflow ∧ c = .encodeUnderflow (op x y).result)) := by
  unfold arith at h
  rcases Res.bind_eq_raise.mp h with h | ⟨L, s1, h1, k1⟩
  · exact .inl h
  rcases Res.bind_eq_raise.mp k1 with h | ⟨x, s1', h2, k2⟩
  · exact .inr (.inl ⟨L, s1, h1, h⟩)
  obtain ⟨rfl, hL, _⟩ := readLoc_ok_value h2
  rcases Res.bind_eq_raise.mp k2 with h | ⟨y, s2, h3, k3⟩
  · exact .inr (.inr (.inl ⟨L, _, x, h1, h2, h⟩))
  rcases Res.bind_eq_raise.mp k3 with h | ⟨_, _, _, h⟩
  · obtain ⟨e1, v1⟩ := loc_ok_effect h1
    have k := e1.keeps.trans (val_ok_effect h3).keeps
    obtain ⟨rfl, hc⟩ := writeLoc_raise_cause v1 (by simp [k.launch]) (by simpa [State.nreg] using k.nreg) h
    have hc : _ ∨ _ := hc.imp_right fun h => h.resolve_right fun h => hL h.1
    have hr : (op x y).recovered = none := by
      refine (hop x y).resolve_right fun h0 => ?_
      rw [h0] at hc
      simp [encode] at hc
    rw [hr, reportRecovered_none]
    exact .inr (.inr (.inr ⟨L, _, x, y, h1, h2, h3, hc⟩))
  · cases h

theorem aluAdd_plain (x y : Number) : (aluAdd x y).recovered = none ∨ (aluAdd x y).result = 0 := .inl rfl
theorem aluSub_plain (x y : Number) : (aluSub x y).recovered = none ∨ (aluSub x y).result = 0 := .inl rfl
theorem aluMul_plain (x y : Number) : (aluMul x y).recovered = none ∨ (aluMul x y).result = 0 := .inl rfl

theorem aluDiv_plain (x y : Number) : (aluDiv x y).recovered = none ∨ (aluDiv x y).result = 0 := by
  unfold aluDiv
  split
  · exact .inr rfl
  · exact .inl rfl

theorem aluMod_plain (x y : Number) : (aluMod x y).recovered = none ∨ (aluMod x y).result = 0 := by
  unfold aluMod
  split
  · exact .inr rfl
  · exact .inl rfl

/-! ## The jump template (R230) -/

theorem jump_eq_ok {cond : Cond → Bool} {target : Operand} {s t : State} {n : Nat} :
    jump cond target s = .ok n t ↔ ∃ p, tgt target s = .ok p t ∧ n = if cond s.cc then p else s.pc + 1 := by
  unfold jump
  rw [Res.bind_eq_ok]
  constructor
  · rintro ⟨p, s1, h1, h2⟩
    have k := (tgt_ok_effect h1).1.keeps
    rw [k.cc] at h2
    split at h2
    · cases h2; exact ⟨n, h1, by simp [*]⟩
    · cases h2; exact ⟨p, h1, by simp [*, k.pc]⟩
  · rintro ⟨p, h1, rfl⟩
    have k := (tgt_ok_effect h1).1.keeps
    refine ⟨p, t, h1, ?_⟩
    rw [k.cc, advance, k.pc]
    split <;> rfl

/-- A jump raises only what its target raises. -/
theorem jump_eq_raise {cond : Cond → Bool} {target : Operand} {s t : State} {c : FaultCause} :
    jump cond target s = .raise c t ↔ tgt target s = .raise c t := by
  unfold jump
  rw [Res.bind_eq_raise]
  constructor
  · rintro (h | ⟨p, s1, _, h2⟩)
    · exact h
    · split at h2 <;> cases h2
  · exact .inl

end Sys2Proof.Machine
end

