-- ==== Sys2Proof/Laws/Exec.lean ====
section
/-! SUPPORT. What any instruction can do, said once: the ways `exec` ends, and what each leaves unchanged. -/

namespace Sys2Proof.Machine

/-- `u` is reached from `s` by resolving operands of `i`, pops included: memory and the control state are as before,
and so are TSP and the registers, but for the ones the instruction's operands move. -/
structure Resolved (i : Instr) (s u : State) : Prop where
  keeps : Keeps s u
  regs : ∀ n, (∀ o ∈ i.operands, n ∉ steppedReg o.2) → regWord u n = regWord s n
  tsp : u.tsp = s.tsp ∨ movesStack i = true
  range : s.launch.spr ≤ s.tsp → s.tsp < s.launch.nmem → s.launch.spr ≤ u.tsp ∧ u.tsp < s.launch.nmem

theorem Resolved.refl (i : Instr) (s : State) : Resolved i s s :=
  ⟨Keeps.refl s, fun _ _ => rfl, .inl rfl, fun h1 h2 => ⟨h1, h2⟩⟩

/-- One more operand of the instruction, resolved. -/
theorem Resolved.effect {i : Instr} {o : Operand} {s u v : State} (h : Resolved i s u) (e : SideEffect o u v)
    (ho : ∃ r, (r, o) ∈ i.operands) (hm : operandMovesStack o = true → movesStack i = true) : Resolved i s v := by
  obtain ⟨r, hr⟩ := ho
  refine ⟨h.keeps.trans e.keeps, fun n hn => ?_, ?_, fun h1 h2 => ?_⟩
  · rw [e.regWord (hn _ hr), h.regs n hn]
  · cases hb : operandMovesStack o with
    | false => rw [e.tsp hb]; exact h.tsp
    | true => exact .inr (hm hb)
  · obtain ⟨a, b⟩ := h.range h1 h2
    rw [← h.keeps.launch] at a b ⊢
    exact e.tsp_range a b

/-- One more pop, of an instruction that moves the stack. -/
theorem Resolved.pop {i : Instr} {x : Number} {s u v : State} (h : Resolved i s u) (e : Machine.pop u = .ok x v)
    (hm : movesStack i = true) : Resolved i s v := by
  obtain ⟨h1, h2, _, rfl⟩ := pop_eq_ok.mp e
  refine ⟨h.keeps.trans ⟨rfl, rfl, rfl, rfl, rfl, rfl, rfl, rfl, rfl, rfl⟩, h.regs, .inr hm, fun _ _ => ?_⟩
  have := h.keeps.launch
  simp only at h1 h2 ⊢
  rw [this] at h1 h2
  constructor <;> omega

/-- An operand that resolves to a target pushes and pops nothing. -/
theorem tgt_ok_keeps_stack {o : Operand} {p : Nat} {s t : State} (h : tgt o s = .ok p t) :
    operandMovesStack o = false := by
  cases o with
  | push => cases h
  | pop => cases h
  | _ => rfl

/-- The ways an instruction ends in a next state. -/
inductive Ended (i : Instr) (s : State) : State → Prop where
  /-- A fatal fault, taken in the state that the operands left. SCAN may have taken its input. -/
  | fault (c : FaultCause) (u : State) (inp : List Number) (hu : Resolved i s u)
    (hi : inp = s.input ∨ ∃ dst v, i = .scan dst ∧ s.input = v :: inp) (hc : c.kind.fatal = true) :
    Ended i s (takeFault c { u with input := inp })
  /-- A store, after the operands: one location, PC, and in SUB also CC; DIV and MOD may report, SCAN takes input. -/
  | stored (L : Loc) (w : Word) (u : State) (pc : Nat) (cc : Cond) (inp : List Number) (d : List Report)
    (hu : Resolved i s u) (hpc : pc = s.pc + 1 ∨ pc < s.launch.nmem)
    (hslot : storedSlot i s = L.slot u) (hin : ∀ p, L.slot u = some p → p < s.launch.nmem)
    (hreg : ∀ n, L = .regL n → n ∈ touchedRegs i) (hpush : L = .pushL → movesStack i = true)
    (hcc : cc = s.cc ∨ ∃ dst src, i = .sub dst src)
    (hi : inp = s.input ∨ ∃ dst v, i = .scan dst ∧ s.input = v :: inp)
    (hd : d = s.diag ∨ ∃ c, d = s.diag ++ [{ cause := c, pc := s.pc }]) :
    Ended i s { L.put w u with pc := pc, cc := cc, input := inp, diag := d }
  /-- No store: jumps and RET set PC, and PRNT writes the output. -/
  | moved (u : State) (pc : Nat) (out : List Number) (hu : Resolved i s u)
    (hpc : pc = s.pc + 1 ∨ pc < s.launch.nmem) (hslot : storedSlot i s = none)
    (hout : out = s.output ∨ ∃ src v, i = .prnt src ∧ IsDec2 v ∧ out = s.output ++ [v]) :
    Ended i s { u with pc := pc, output := out }
  /-- EOP. -/
  | halted (hi : i = .eop) : Ended i s { s with status := .halted .eop }
  /-- A SCAN that waits. -/
  | waits (dst : Operand) (hi : i = .scan dst) : Ended i s s

/-- A fault that takes no input. -/
theorem Ended.ofFault {i : Instr} {s u : State} {c : FaultCause} (hc : c.kind.fatal = true) (hu : Resolved i s u) :
    Ended i s (takeFault c u) := by
  have h := Ended.fault c u s.input hu (.inl rfl) hc
  rwa [← hu.keeps.input] at h

/-- A store that changes no control state but PC. -/
theorem Ended.ofStore {i : Instr} {L : Loc} {w : Word} {u s : State} {pc : Nat} (hu : Resolved i s u)
    (hpc : pc = s.pc + 1 ∨ pc < s.launch.nmem) (hslot : storedSlot i s = L.slot u)
    (hin : ∀ p, L.slot u = some p → p < s.launch.nmem) (hreg : ∀ n, L = .regL n → n ∈ touchedRegs i)
    (hpush : L = .pushL → movesStack i = true) : Ended i s { L.put w u with pc := pc } := by
  have h := Ended.stored L w u pc s.cc s.input s.diag hu hpc hslot hin hreg hpush (.inl rfl) (.inl rfl) (.inl rfl)
  have hk := hu.keeps
  convert h using 1
  cases L <;> simp [Loc.put, setReg, setSlot, hk.cc, hk.input, hk.diag]

/-- The slot of a stored location exists. -/
theorem Loc.Valid.slot_lt {L : Loc} {o : Operand} {w : Word} {s u t : State} (h : L.Valid o s)
    (hl : u.launch = s.launch) (hs : Stores L w u t) : ∀ p, L.slot u = some p → p < s.launch.nmem := by
  intro p hp
  cases L with
  | regL n => cases hp
  | memL q => cases hp; exact h
  | pushL => cases hp; rw [← hl]; exact hs.1

/-- The arithmetic instructions. -/
theorem arith_ended {i : Instr} {op : Number → Number → AluResult} {dst src : Operand} {s t : State} {f : Number → Cond}
    (hop : ∀ x y, (op x y).recovered = none ∨ (op x y).result = 0)
    (hops : i.operands = [(.readWrite, dst), (.source, src)])
    (hmv : movesStack i = (operandMovesStack dst || operandMovesStack src))
    (hslot : storedSlot i s = storedSlotTwo dst src s)
    (hcc : (∀ r, f r = s.cc) ∨ ∃ dst src, i = .sub dst src)
    (h : conclude ((arith op dst src s).bind fun r s1 => advance { s1 with cc := f r }) = .next t) : Ended i s t := by
  have m1 : ∃ r, (r, dst) ∈ i.operands := ⟨.readWrite, by simp [hops]⟩
  have m2 : ∃ r, (r, src) ∈ i.operands := ⟨.source, by simp [hops]⟩
  have t1 : operandMovesStack dst = true → movesStack i = true := by rw [hmv]; rintro h; simp [h]
  have t2 : operandMovesStack src = true → movesStack i = true := by rw [hmv]; rintro h; simp [h]
  rcases conclude_eq_next.mp h with ⟨n, u, hr, rfl⟩ | ⟨c, u, hr, rfl⟩
  · obtain ⟨r, u1, ha, hb⟩ := Res.bind_eq_ok.mp hr
    obtain ⟨L, s1, x, y, s2, w, h1, h2, h3, h4, rfl, rfl⟩ := arith_eq_ok.mp ha
    obtain ⟨e1, v1⟩ := loc_ok_effect h1
    have hu := ((Resolved.refl i s).effect e1 m1 t1).effect (val_ok_effect h3) m2 t2
    obtain ⟨_, hL, _⟩ := readLoc_ok_value h2
    cases hb
    have key := Ended.stored (i := i) (s := s) L w s2 (s.pc + 1) (f (op x y).result) s.input
      (reportRecovered (op x y).recovered s2).diag hu (.inl rfl) (by simp [hslot, storedSlotTwo, h1, h3])
      (v1.slot_lt hu.keeps.launch (stores_put v1 hu.keeps.launch hu.keeps.nreg (fun h => absurd h hL) w))
      (by
        rintro n rfl
        obtain ⟨rfl, _⟩ := v1
        simp [touchedRegs, hops, operandRegs, namedReg])
      (fun h => absurd h hL) (hcc.imp_left fun h => h _) (.inl rfl)
      (by
        cases (op x y).recovered with
        | none => exact .inl hu.keeps.diag
        | some c => exact .inr ⟨c, by simp [hu.keeps.diag, hu.keeps.pc]⟩)
    convert key using 1
    cases L with
    | pushL => exact absurd rfl hL
    | regL n => cases (op x y).recovered <;> simp [Loc.put, setReg, report, hu.keeps.pc, hu.keeps.input]
    | memL p => cases (op x y).recovered <;> simp [Loc.put, setSlot, report, hu.keeps.pc, hu.keeps.input]
  · have hc : ((arith op dst src s).bind fun r s1 => advance { s1 with cc := f r }).RaisesFatal :=
      Res.RaisesFatal.bind ((loc_raisesFatal _ _).bind fun _ _ => (readLoc_raisesFatal _ _).bind fun _ _ =>
        (val_raisesFatal _ _).bind fun _ _ => (writeLoc_raisesFatal _ _ _).bind fun _ _ => raisesFatal_ok _ _)
        fun _ _ => raisesFatal_ok _ _
    refine Ended.ofFault (hc c u hr) ?_
    rcases Res.bind_eq_raise.mp hr with hr | ⟨_, _, _, hb⟩
    · rcases arith_eq_raise hop hr with h1 | ⟨L, s1, h1, h2⟩ | ⟨L, s1, x, h1, _, h3⟩ | ⟨L, s1, x, y, h1, _, h3, _⟩
      · rw [loc_raise_state h1]; exact Resolved.refl i s
      · rw [readLoc_raise_state h2]; exact (Resolved.refl i s).effect (loc_ok_effect h1).1 m1 t1
      · rw [val_raise_state h3]; exact (Resolved.refl i s).effect (loc_ok_effect h1).1 m1 t1
      · exact ((Resolved.refl i s).effect (loc_ok_effect h1).1 m1 t1).effect (val_ok_effect h3) m2 t2
    · cases hb

/-- The jumps. -/
theorem jump_ended {i : Instr} {cond : Cond → Bool} {target : Operand} {s t : State}
    (hops : i.operands = [(.target, target)]) (hslot : storedSlot i s = none)
    (h : conclude (jump cond target s) = .next t) : Ended i s t := by
  have m1 : ∃ r, (r, target) ∈ i.operands := ⟨.target, by simp [hops]⟩
  rcases conclude_eq_next.mp h with ⟨n, u, hr, rfl⟩ | ⟨c, u, hr, rfl⟩
  · obtain ⟨p, h1, rfl⟩ := jump_eq_ok.mp hr
    obtain ⟨e1, hp⟩ := tgt_ok_effect h1
    have hu := (Resolved.refl i s).effect e1 m1 (by simp [tgt_ok_keeps_stack h1])
    have key := Ended.moved (i := i) (s := s) u (if cond s.cc then p else s.pc + 1) s.output hu
      (by split; exacts [.inr hp, .inl rfl]) hslot (.inl rfl)
    rwa [← hu.keeps.output] at key
  · refine Ended.ofFault (tgt_raisesFatal _ _ _ _ (jump_eq_raise.mp hr)) ?_
    rw [tgt_raise_state (jump_eq_raise.mp hr)]
    exact Resolved.refl i s

/-- An instruction that concludes with a store of a value into a location. -/
theorem store_ended {i : Instr} {L : Loc} {o : Operand} {v : Number} {s u t : State} {pc : Nat} (hL : L.Valid o s)
    (hu : Resolved i s u) (hpc : pc = s.pc + 1 ∨ pc < s.launch.nmem) (hslot : storedSlot i s = L.slot u)
    (hreg : ∀ n, L = .regL n → n ∈ touchedRegs i) (hpush : L = .pushL → movesStack i = true)
    (h : conclude ((writeLoc L v u).bind fun _ s3 => .ok pc s3) = .next t) : Ended i s t := by
  rcases conclude_eq_next.mp h with ⟨n, u', hr, rfl⟩ | ⟨c, u', hr, rfl⟩
  · obtain ⟨_, _, h1, h2⟩ := Res.bind_eq_ok.mp hr
    cases h2
    obtain ⟨w, _, hs⟩ := writeLoc_eq_ok.mp h1
    have := stores_eq_put hs
    subst this
    exact .ofStore hu hpc hslot (hL.slot_lt hu.keeps.launch hs) hreg hpush
  · refine Ended.ofFault (writeLoc_raisesFatal _ _ _ _ _ (bind_ok_raise (f := fun _ => pc) hr)) ?_
    rw [writeLoc_raise_state (bind_ok_raise (f := fun _ => pc) hr)]
    exact hu

/-- The fault of a part that changed nothing. -/
theorem conclude_bind {α : Type} {r : Res α} {f : α → State → Res Nat} {t : State}
    (h : conclude (r.bind f) = .next t) :
    (∃ c u, r = .raise c u ∧ t = takeFault c u) ∨ ∃ a u, r = .ok a u ∧ conclude (f a u) = .next t := by
  cases r with
  | ok a u => exact .inr ⟨a, u, rfl, h⟩
  | raise c u => cases h; exact .inl ⟨c, u, rfl, rfl⟩

/-- A register location that an operand resolved to is named by it. -/
theorem Loc.Valid.named {n : Nat} {o : Operand} {s : State} (h : (Loc.regL n).Valid o s) : n ∈ namedReg o := by
  rw [h.1]; simp [namedReg]

theorem Loc.Valid.push_moves {o : Operand} {s : State} (h : Loc.pushL.Valid o s) : operandMovesStack o = true := by
  rw [show o = .push from h]; rfl

/-- SAID ONCE: whatever the instruction, if `exec` answers a next state, that state is one of these. -/
theorem exec_ended {i : Instr} {s t : State} (h : exec i s = .next t) : Ended i s t := by
  have noCC {op : Number → Number → AluResult} {dst src : Operand} :
      ((arith op dst src s).bind fun _ s1 => advance s1) =
        (arith op dst src s).bind fun _ s1 => advance { s1 with cc := s.cc } := by
    cases hr : arith op dst src s with
    | raise c u => rfl
    | ok r u =>
      obtain ⟨L, s1, x, y, s2, w, h1, h2, h3, h4, rfl, rfl⟩ := arith_eq_ok.mp hr
      have k := (loc_ok_effect h1).1.keeps.trans (val_ok_effect h3).keeps
      simp only [Res.bind_ok, advance, put_pc]
      congr 1
      cases L <;> cases (op x y).recovered <;> simp [Loc.put, setReg, setSlot, report, k.cc]
  cases i with
  | eop => cases h; exact .halted rfl
  | prnt src =>
    rcases conclude_bind h with ⟨c, u, h1, rfl⟩ | ⟨v, u, h1, h2⟩
    · rw [val_raise_state h1]; exact .ofFault (val_raisesFatal _ _ _ _ h1) (Resolved.refl _ s)
    · have hu : Resolved (.prnt src) s u := (Resolved.refl _ s).effect (val_ok_effect h1) ⟨.source, by simp [Instr.operands]⟩ id
      cases h2
      have key := Ended.moved (i := .prnt src) (s := s) u (s.pc + 1) (s.output ++ [v]) hu (.inl rfl) rfl
        (.inr ⟨src, v, rfl, val_ok_isDec2 h1, rfl⟩)
      simpa [emit, hu.keeps.output, hu.keeps.pc] using key
  | scan dst =>
    change execScan dst s = .next t at h
    unfold execScan at h
    have m1 : ∃ r, (r, dst) ∈ (Instr.scan dst).operands := ⟨.write, by simp [Instr.operands]⟩
    split at h
    · rename_i c s1 h1
      cases h
      rw [loc_raise_state h1]
      exact .ofFault (loc_raisesFatal _ _ _ _ h1) (Resolved.refl _ s)
    · cases h; exact .waits dst rfl
    · rename_i L s1 v rest h1 hin
      obtain ⟨e1, v1⟩ := loc_ok_effect h1
      have hu : Resolved (.scan dst) s s1 := (Resolved.refl _ s).effect e1 m1 id
      have htake : rest = s.input ∨ ∃ dst' v, Instr.scan dst = .scan dst' ∧ s.input = v :: rest :=
        .inr ⟨dst, v, rfl, hin⟩
      rcases conclude_bind h with ⟨c, u, h2, rfl⟩ | ⟨_, u, h2, h3⟩
      · rw [writeLoc_raise_state h2]
        exact .fault c s1 rest hu htake (writeLoc_raisesFatal _ _ _ _ _ h2)
      · cases h3
        obtain ⟨w, _, hs⟩ := writeLoc_eq_ok.mp h2
        have := stores_eq_put hs
        subst this
        have hslot : storedSlot (.scan dst) s = L.slot s1 := by simp [storedSlot, storedSlotScan, h1]
        have key := Ended.stored (i := .scan dst) (s := s) L w s1 (s.pc + 1) s.cc rest s.diag hu (.inl rfl) hslot
          (by
            have := v1.slot_lt (u := { s1 with input := rest }) hu.keeps.launch hs
            cases L <;> exact this)
          (by
            rintro n rfl
            simp [touchedRegs, Instr.operands, operandRegs, v1.named])
          (by rintro rfl; exact v1.push_moves)
          (.inl rfl) htake (.inl rfl)
        convert key using 1
        cases L <;> simp [Loc.put, setReg, setSlot, hu.keeps.pc, hu.keeps.cc, hu.keeps.diag]
  | mov dst src =>
    rcases conclude_bind h with ⟨c, u, h1, rfl⟩ | ⟨L, s1, h1, h2⟩
    · rw [loc_raise_state h1]; exact .ofFault (loc_raisesFatal _ _ _ _ h1) (Resolved.refl _ s)
    · obtain ⟨e1, v1⟩ := loc_ok_effect h1
      have hu1 : Resolved (.mov dst src) s s1 :=
        (Resolved.refl _ s).effect e1 ⟨.write, by simp [Instr.operands]⟩ (by simp +contextual [movesStack])
      rcases conclude_bind h2 with ⟨c, u, h3, rfl⟩ | ⟨v, s2, h3, h4⟩
      · rw [val_raise_state h3]; exact .ofFault (val_raisesFatal _ _ _ _ h3) hu1
      · have hu : Resolved (.mov dst src) s s2 :=
          hu1.effect (val_ok_effect h3) ⟨.source, by simp [Instr.operands]⟩ (by simp +contextual [movesStack])
        refine store_ended v1 hu (.inl rfl) (by simp [storedSlot, storedSlotTwo, h1, h3]) ?_ ?_ (v := v) ?_
        · rintro n rfl; simp [touchedRegs, Instr.operands, operandRegs, v1.named]
        · rintro rfl; simp [movesStack, v1.push_moves]
        · rw [← h4]
          cases hw : writeLoc L v s2 with
          | raise c u => rfl
          | ok a u =>
            obtain ⟨w, _, hs⟩ := writeLoc_eq_ok.mp hw
            rw [stores_eq_put hs]
            simp [advance, hu.keeps.pc]
  | push src =>
    rcases conclude_bind h with ⟨c, u, h1, rfl⟩ | ⟨v, s1, h1, h2⟩
    · rw [val_raise_state h1]; exact .ofFault (val_raisesFatal _ _ _ _ h1) (Resolved.refl _ s)
    · have hu : Resolved (.push src) s s1 :=
        (Resolved.refl _ s).effect (val_ok_effect h1) ⟨.source, by simp [Instr.operands]⟩ (by simp [movesStack])
      refine store_ended (L := .pushL) (o := .push) rfl hu (.inl rfl) (by simp [storedSlot, h1, Loc.slot]) (by simp)
        (by simp [movesStack]) (v := v) ?_
      rw [← h2]
      cases hw : writeLoc .pushL v s1 with
      | raise c u => rfl
      | ok a u =>
        obtain ⟨w, _, hs⟩ := writeLoc_eq_ok.mp hw
        rw [stores_eq_put hs]
        simp [advance, hu.keeps.pc]
  | pop dst =>
    rcases conclude_bind h with ⟨c, u, h1, rfl⟩ | ⟨L, s1, h1, h2⟩
    · rw [loc_raise_state h1]; exact .ofFault (loc_raisesFatal _ _ _ _ h1) (Resolved.refl _ s)
    · obtain ⟨e1, v1⟩ := loc_ok_effect h1
      have hu1 : Resolved (.pop dst) s s1 :=
        (Resolved.refl _ s).effect e1 ⟨.write, by simp [Instr.operands]⟩ (by simp [movesStack])
      rcases conclude_bind h2 with ⟨c, u, h3, rfl⟩ | ⟨v, s2, h3, h4⟩
      · rw [(pop_eq_raise.mp h3).1]; exact .ofFault (pop_raisesFatal _ _ _ h3) hu1
      · have hu : Resolved (.pop dst) s s2 := hu1.pop h3 rfl
        refine store_ended v1 hu (.inl rfl) (by simp [storedSlot, storedSlotPop, h1, h3]) ?_ (by simp [movesStack]) (v := v) ?_
        · rintro n rfl; simp [touchedRegs, Instr.operands, operandRegs, v1.named]
        · rw [← h4]
          cases hw : writeLoc L v s2 with
          | raise c u => rfl
          | ok a u =>
            obtain ⟨w, _, hs⟩ := writeLoc_eq_ok.mp hw
            rw [stores_eq_put hs]
            simp [advance, hu.keeps.pc]
  | add dst src => exact arith_ended (f := fun _ => s.cc) aluAdd_plain rfl rfl rfl (.inl fun _ => rfl) (noCC ▸ h)
  | sub dst src => exact arith_ended (f := condOf) aluSub_plain rfl rfl rfl (.inr ⟨dst, src, rfl⟩) h
  | mul dst src => exact arith_ended (f := fun _ => s.cc) aluMul_plain rfl rfl rfl (.inl fun _ => rfl) (noCC ▸ h)
  | div dst src => exact arith_ended (f := fun _ => s.cc) aluDiv_plain rfl rfl rfl (.inl fun _ => rfl) (noCC ▸ h)
  | mod dst src => exact arith_ended (f := fun _ => s.cc) aluMod_plain rfl rfl rfl (.inl fun _ => rfl) (noCC ▸ h)
  | call target =>
    rcases conclude_bind h with ⟨c, u, h1, rfl⟩ | ⟨p, s1, h1, h2⟩
    · rw [tgt_raise_state h1]; exact .ofFault (tgt_raisesFatal _ _ _ _ h1) (Resolved.refl _ s)
    · obtain ⟨e1, hp⟩ := tgt_ok_effect h1
      have hu : Resolved (.call target) s s1 :=
        (Resolved.refl _ s).effect e1 ⟨.target, by simp [Instr.operands]⟩ (by simp [movesStack])
      exact store_ended (L := .pushL) (o := .push) rfl hu (.inr hp) (by simp [storedSlot, h1, Loc.slot]) (by simp)
        (by simp [movesStack]) h2
  | ret =>
    rcases conclude_bind h with ⟨c, u, h1, rfl⟩ | ⟨v, s1, h1, h2⟩
    · rw [(pop_eq_raise.mp h1).1]; exact .ofFault (pop_raisesFatal _ _ _ h1) (Resolved.refl _ s)
    · have hu : Resolved .ret s s1 := (Resolved.refl _ s).pop h1 rfl
      rcases conclude_eq_next.mp h2 with ⟨n, u, hr, rfl⟩ | ⟨c, u, hr, rfl⟩
      · obtain ⟨_, hn, rfl⟩ := checkAddr_eq_ok.mp hr
        rw [hu.keeps.launch] at hn
        have key := Ended.moved (i := .ret) (s := s) u n s.output hu (.inr hn) rfl (.inl rfl)
        rwa [← hu.keeps.output] at key
      · rw [(checkAddr_eq_raise.mp hr).1]; exact .ofFault (checkAddr_raisesFatal _ _ _ _ hr) hu
  | jmp target => exact jump_ended (cond := condAlways) rfl rfl h
  | jeq target => exact jump_ended (cond := condEq) rfl rfl h
  | jne target => exact jump_ended (cond := condNe) rfl rfl h
  | jlt target => exact jump_ended (cond := condLt) rfl rfl h
  | jle target => exact jump_ended (cond := condLe) rfl rfl h
  | jgt target => exact jump_ended (cond := condGt) rfl rfl h
  | jge target => exact jump_ended (cond := condGe) rfl rfl h

end Sys2Proof.Machine
end

