-- ==== Sys2Proof/Laws/PerInstr.lean ====
section
/-! SUPPORT. The fields of a packed word, the reserved bits cleared, and the family of facts about every instruction as
syntax: its word carries its own opcode (R80, R82). -/

namespace Sys2Proof

/-! ## The fields of a packed word (R80) -/

theorem opField_packWord (op : BitVec 5) (m1 : BitVec 3) (a1 : BitVec 8) (m2 : BitVec 3) (a2 : BitVec 8) :
    opField (packWord op m1 a1 m2 a2) = op := by
  refine BitVec.eq_of_getLsbD_eq fun i hi => ?_
  simp only [opField, packWord, BitVec.getLsbD_extractLsb', BitVec.getLsbD_append]
  interval_cases i <;> simp

theorem mode1Field_packWord (op : BitVec 5) (m1 : BitVec 3) (a1 : BitVec 8) (m2 : BitVec 3) (a2 : BitVec 8) :
    mode1Field (packWord op m1 a1 m2 a2) = m1 := by
  refine BitVec.eq_of_getLsbD_eq fun i hi => ?_
  simp only [mode1Field, packWord, BitVec.getLsbD_extractLsb', BitVec.getLsbD_append]
  interval_cases i <;> simp

theorem addr1Field_packWord (op : BitVec 5) (m1 : BitVec 3) (a1 : BitVec 8) (m2 : BitVec 3) (a2 : BitVec 8) :
    addr1Field (packWord op m1 a1 m2 a2) = a1 := by
  refine BitVec.eq_of_getLsbD_eq fun i hi => ?_
  simp only [addr1Field, packWord, BitVec.getLsbD_extractLsb', BitVec.getLsbD_append]
  interval_cases i <;> simp

theorem mode2Field_packWord (op : BitVec 5) (m1 : BitVec 3) (a1 : BitVec 8) (m2 : BitVec 3) (a2 : BitVec 8) :
    mode2Field (packWord op m1 a1 m2 a2) = m2 := by
  refine BitVec.eq_of_getLsbD_eq fun i hi => ?_
  simp only [mode2Field, packWord, BitVec.getLsbD_extractLsb', BitVec.getLsbD_append]
  interval_cases i <;> simp

theorem addr2Field_packWord (op : BitVec 5) (m1 : BitVec 3) (a1 : BitVec 8) (m2 : BitVec 3) (a2 : BitVec 8) :
    addr2Field (packWord op m1 a1 m2 a2) = a2 := by
  refine BitVec.eq_of_getLsbD_eq fun i hi => ?_
  simp only [addr2Field, packWord, BitVec.getLsbD_extractLsb', BitVec.getLsbD_append]
  interval_cases i <;> simp

/-! ## The reserved bits cleared (R88) -/

theorem clearReserved_eq_packWord (w : Word) :
    clearReserved w = packWord (opField w) (mode1Field w) (addr1Field w) (mode2Field w) (addr2Field w) := by
  refine BitVec.eq_of_getLsbD_eq fun i hi => ?_
  simp only [clearReserved, packWord, opField, mode1Field, addr1Field, mode2Field, addr2Field, BitVec.getLsbD_append,
    BitVec.getLsbD_extractLsb', BitVec.getLsbD_and]
  interval_cases i <;> simp

/-- Clearing the reserved bits changes no field. -/
theorem clearReserved_fields (w : Word) :
    opField (clearReserved w) = opField w ∧ mode1Field (clearReserved w) = mode1Field w ∧
    addr1Field (clearReserved w) = addr1Field w ∧ mode2Field (clearReserved w) = mode2Field w ∧
    addr2Field (clearReserved w) = addr2Field w := by
  rw [clearReserved_eq_packWord]
  exact ⟨opField_packWord .., mode1Field_packWord .., addr1Field_packWord .., mode2Field_packWord .., addr2Field_packWord ..⟩

theorem clearReserved_packWord (op : BitVec 5) (m1 : BitVec 3) (a1 : BitVec 8) (m2 : BitVec 3) (a2 : BitVec 8) :
    clearReserved (packWord op m1 a1 m2 a2) = packWord op m1 a1 m2 a2 := by
  rw [clearReserved_eq_packWord, opField_packWord, mode1Field_packWord, addr1Field_packWord, mode2Field_packWord,
    addr2Field_packWord]

/-- The words with nothing but reserved bits are those below 32. -/
theorem clearReserved_eq_zero_iff (w : Word) : clearReserved w = 0#32 ↔ w.toNat < 32 := by
  have h : (clearReserved w).toNat = 32 * (w.toNat / 32) := by
    have e : clearReserved w = w >>> 5 <<< 5 := by
      refine BitVec.eq_of_getLsbD_eq fun i hi => ?_
      simp only [clearReserved, BitVec.getLsbD_and, BitVec.getLsbD_shiftLeft, BitVec.getLsbD_ushiftRight]
      interval_cases i <;> simp
    rw [e, BitVec.toNat_shiftLeft, BitVec.toNat_ushiftRight, Nat.shiftLeft_eq, Nat.shiftRight_eq_div_pow]
    omega
  rw [← BitVec.toNat_inj, h, BitVec.toNat_ofNat]
  omega

end Sys2Proof

namespace Sys2Proof.Laws.EncodesItsOpcode

/-- The word of an instruction has the instruction's opcode in bits 31 to 27 (R80, R82, R92). -/
def Statement (i : Instr) : Prop := opField (encodeInstr i) = opcode i

theorem eop : Statement .eop := opField_packWord _ _ _ _ _
theorem prnt (src : Operand) : Statement (.prnt src) := opField_packWord _ _ _ _ _
theorem scan (dst : Operand) : Statement (.scan dst) := opField_packWord _ _ _ _ _
theorem mov (dst src : Operand) : Statement (.mov dst src) := opField_packWord _ _ _ _ _
theorem push (src : Operand) : Statement (.push src) := opField_packWord _ _ _ _ _
theorem pop (dst : Operand) : Statement (.pop dst) := opField_packWord _ _ _ _ _
theorem add (dst src : Operand) : Statement (.add dst src) := opField_packWord _ _ _ _ _
theorem sub (dst src : Operand) : Statement (.sub dst src) := opField_packWord _ _ _ _ _
theorem mul (dst src : Operand) : Statement (.mul dst src) := opField_packWord _ _ _ _ _
theorem div (dst src : Operand) : Statement (.div dst src) := opField_packWord _ _ _ _ _
theorem mod (dst src : Operand) : Statement (.mod dst src) := opField_packWord _ _ _ _ _
theorem call (target : Operand) : Statement (.call target) := opField_packWord _ _ _ _ _
theorem ret : Statement .ret := opField_packWord _ _ _ _ _
theorem jmp (target : Operand) : Statement (.jmp target) := opField_packWord _ _ _ _ _
theorem jeq (target : Operand) : Statement (.jeq target) := opField_packWord _ _ _ _ _
theorem jne (target : Operand) : Statement (.jne target) := opField_packWord _ _ _ _ _
theorem jlt (target : Operand) : Statement (.jlt target) := opField_packWord _ _ _ _ _
theorem jle (target : Operand) : Statement (.jle target) := opField_packWord _ _ _ _ _
theorem jgt (target : Operand) : Statement (.jgt target) := opField_packWord _ _ _ _ _
theorem jge (target : Operand) : Statement (.jge target) := opField_packWord _ _ _ _ _

end Sys2Proof.Laws.EncodesItsOpcode
end

