-- ==== Sys2Proof/Tests/Slice0.lean ====
section
/-! SUPPORT. Tests: well-formedness, decoding of written-out words, one step at a time with the expected values of
spec/95_test_vectors.md, and a witness for every statement that has hypotheses. -/

namespace Sys2Proof.Tests

open Sys2Proof Sys2Proof.Machine

set_option Elab.async false

/-! ## Helpers -/

/-- The reset state with words put into registers and memory slots. -/
def setup (regs cells : List (Nat × Word)) : State :=
  cells.foldl (fun s c => setSlot c.1 c.2 s) (regs.foldl (fun s c => setReg c.1 c.2 s) State.reset)

/-- The state with its stack pointer moved. -/
def withTop (tsp : Nat) (s : State) : State := { s with tsp := tsp }

/-- The next state of an outcome. -/
def nextOf (o : Host.Outcome State Fault Refusal) : Option State :=
  match o with
  | .next s => some s
  | .fault _ => none
  | .refused _ => none

/-- One step of a word placed at PC. -/
def run (w : Nat) (s : State) : Option State := nextOf (step (s.withFetchWord 32 w))

/-! ## Well-formedness: each check refuses an ill-formed term -/

theorem test_wf_imm : (Instr.prnt (.imm 256)).wf = false ∧ (Instr.prnt (.imm 255)).wf = true := by decide
theorem test_wf_reg : (Instr.scan (.reg 256)).wf = false ∧ (Instr.scan (.reg 255)).wf = true := by decide
theorem test_wf_regInd : (Instr.jmp (.regInd 256)).wf = false ∧ (Instr.jmp (.regInd 255)).wf = true := by decide
theorem test_wf_direct : (Instr.call (.direct 256)).wf = false ∧ (Instr.call (.direct 255)).wf = true := by decide
theorem test_wf_indirect : (Instr.pop (.indirect 256)).wf = false ∧ (Instr.pop (.indirect 255)).wf = true := by decide
theorem test_wf_indexed1 : (Instr.push (.indexed1 256)).wf = false ∧ (Instr.push (.indexed1 255)).wf = true := by decide
theorem test_wf_indexed2 : (Instr.push (.indexed2 256)).wf = false ∧ (Instr.push (.indexed2 255)).wf = true := by decide
theorem test_wf_autoInc : (Instr.add (.autoInc 64) .top).wf = false ∧ (Instr.add (.autoInc 63) .top).wf = true := by decide
theorem test_wf_autoDec : (Instr.add (.reg 0) (.autoDec 64)).wf = false ∧ (Instr.add (.reg 0) (.autoDec 63)).wf = true := by
  decide

/-! ## Decoding: op, m1, a1, m2, a2 and the reserved bits, written out from R80, R82, R85 and R86 -/

theorem test_decode_eop : decode (0b00000#5 ++ 0b000#3 ++ 0x01#8 ++ 0b000#3 ++ 0x00#8 ++ 0#5) = .instr .eop := by decide
theorem test_decode_prnt : decode (0b00001#5 ++ 0b000#3 ++ 0x09#8 ++ 0b000#3 ++ 0x00#8 ++ 0#5) = .instr (.prnt (.imm 9)) := by
  decide
theorem test_decode_scan : decode (0b00010#5 ++ 0b100#3 ++ 0x1E#8 ++ 0b000#3 ++ 0x00#8 ++ 0#5) = .instr (.scan (.indirect 30)) := by
  decide
theorem test_decode_mov : decode (0b01000#5 ++ 0b111#3 ++ 0x01#8 ++ 0b111#3 ++ 0x02#8 ++ 0#5) = .instr (.mov .push .pop) := by
  decide
theorem test_decode_push : decode (0b01001#5 ++ 0b001#3 ++ 0x0E#8 ++ 0b000#3 ++ 0x00#8 ++ 0#5) = .instr (.push (.reg 14)) := by
  decide
theorem test_decode_pop : decode (0b01010#5 ++ 0b011#3 ++ 0x14#8 ++ 0b000#3 ++ 0x00#8 ++ 0#5) = .instr (.pop (.direct 20)) := by
  decide
theorem test_decode_add : decode (0b10000#5 ++ 0b001#3 ++ 0x01#8 ++ 0b000#3 ++ 0x01#8 ++ 0#5) = .instr (.add (.reg 1) (.imm 1)) := by
  decide
theorem test_decode_sub :
    decode (0b10001#5 ++ 0b010#3 ++ 0x02#8 ++ 0b011#3 ++ 0x07#8 ++ 0#5) = .instr (.sub (.regInd 2) (.direct 7)) := by decide
theorem test_decode_mul :
    decode (0b10010#5 ++ 0b100#3 ++ 0x09#8 ++ 0b101#3 ++ 0x04#8 ++ 0#5) = .instr (.mul (.indirect 9) (.indexed1 4)) := by
  decide
theorem test_decode_div :
    decode (0b10011#5 ++ 0b110#3 ++ 0x03#8 ++ 0b111#3 ++ 0x45#8 ++ 0#5) = .instr (.div (.indexed2 3) (.autoInc 5)) := by
  decide
theorem test_decode_mod : decode (0b10100#5 ++ 0b111#3 ++ 0x86#8 ++ 0b111#3 ++ 0x00#8 ++ 0#5) = .instr (.mod (.autoDec 6) .top) := by
  decide
theorem test_decode_call : decode (0b10101#5 ++ 0b010#3 ++ 0x03#8 ++ 0b000#3 ++ 0x00#8 ++ 0#5) = .instr (.call (.regInd 3)) := by
  decide
theorem test_decode_ret : decode (0b10110#5 ++ 0b000#3 ++ 0x00#8 ++ 0b000#3 ++ 0x00#8 ++ 0#5) = .instr .ret := by decide
theorem test_decode_jmp : decode (0b11000#5 ++ 0b011#3 ++ 0x00#8 ++ 0b000#3 ++ 0x00#8 ++ 0#5) = .instr (.jmp (.direct 0)) := by
  decide
theorem test_decode_jeq : decode (0b11001#5 ++ 0b011#3 ++ 0x0A#8 ++ 0b000#3 ++ 0x00#8 ++ 0#5) = .instr (.jeq (.direct 10)) := by
  decide
theorem test_decode_jne : decode (0b11010#5 ++ 0b011#3 ++ 0x0A#8 ++ 0b000#3 ++ 0x00#8 ++ 0#5) = .instr (.jne (.direct 10)) := by
  decide
theorem test_decode_jlt : decode (0b11011#5 ++ 0b011#3 ++ 0x0A#8 ++ 0b000#3 ++ 0x00#8 ++ 0#5) = .instr (.jlt (.direct 10)) := by
  decide
theorem test_decode_jle : decode (0b11100#5 ++ 0b011#3 ++ 0x0A#8 ++ 0b000#3 ++ 0x00#8 ++ 0#5) = .instr (.jle (.direct 10)) := by
  decide
theorem test_decode_jgt : decode (0b11101#5 ++ 0b011#3 ++ 0x02#8 ++ 0b000#3 ++ 0x00#8 ++ 0#5) = .instr (.jgt (.direct 2)) := by
  decide
theorem test_decode_jge : decode (0b11110#5 ++ 0b011#3 ++ 0x0A#8 ++ 0b000#3 ++ 0x00#8 ++ 0#5) = .instr (.jge (.direct 10)) := by
  decide

/-- R88 and C9: nothing but reserved bits is the all-zero word. -/
theorem test_decode_only_reserved : decode 0x0000001F#32 = .halt ∧ decode 0x0000003F#32 = .instr .eop := by decide

/-- V-E17, V-E18, V-E19, V-E21, V-E22. -/
theorem test_decode_reserved :
    decode 0x1801FFE0#32 = .unknown 3 ∧ decode 0x4101E060#32 = .badOperand 2 ∧ decode 0x4101F800#32 = .badOperand 2 ∧
    decode 0x4900E060#32 = .instr (.push (.reg 0)) ∧ decode 0x410100BF#32 = .instr (.mov (.reg 1) (.imm 5)) := by decide

/-- V-E4, V-E5, V-E8, V-E9, V-E14. -/
theorem test_encodeInstr :
    encodeInstr (.div (.indexed2 3) (.autoInc 5)) = 0x9E03E8A0#32 ∧ encodeInstr (.mod (.autoDec 6) .top) = 0xA786E000#32 ∧
    encodeInstr .ret = 0xB0000000#32 ∧ encodeInstr (.mov .push .pop) = 0x4701E040#32 ∧ encodeInstr .eop = 0#32 := by decide

theorem test_decodeTableWord :
    decodeTableWord 32 0 = some .eop ∧ decodeTableWord 32 0x08090000 = some (.prnt (.imm 9)) ∧
    decodeTableWord 32 0x18000000 = none := by decide

/-! ## The codec (V-C vectors) -/

theorem test_encode_truncates : encode (1 / 10) = .word 0x3DCCCCCC#32 := by decide +kernel
theorem test_encode_negative : encode (-5 / 2) = .word 0xC0200000#32 := by decide +kernel
theorem test_encode_largest : encode (2 ^ 129 - 1) = .word 0x7FFFFFFF#32 := by decide +kernel
theorem test_encode_overflow : encode (-2 ^ 129) = .fault .overflow := by decide +kernel
theorem test_encode_underflow : encode (1 / 2 ^ 128) = .fault .underflow := by decide +kernel
theorem test_decodeNum_tie_down : decodeNum 0x3E000000#32 = 12 / 100 := by decide +kernel
theorem test_decodeNum_tie_up : decodeNum 0x3EC00000#32 = 38 / 100 := by decide +kernel
theorem test_decodeNum_drift : decodeNum 0x47800003#32 = 6553602 / 100 := by decide +kernel
theorem test_decodeNum_exponent255 : decodeNum 0x7F800000#32 = 2 ^ 128 := by decide +kernel
theorem test_decodeNum_negative_tiny : decodeNum 0x80000000#32 = 0 := by decide +kernel

/-! ## One step of each instruction -/

/-- V-I10: the assembled EOP is the all-zero word. -/
theorem test_eop_fetched : (run 0x00000000 State.reset).map (fun t => (t.status, t.pc, t.ir)) =
    some (.halted .endOfProgram, 0, 0) := by decide +kernel
/-- R88: the word runs as it does with bits [4:0] cleared, so IR is not set. -/
theorem test_only_reserved_fetched : (run 0x0000001F { State.reset with pc := 4 }).map (fun t => (t.status, t.pc, t.ir)) =
    some (.halted .endOfProgram, 4, 0) := by decide +kernel
/-- V-E23. -/
theorem test_eop_executed : (run 0x07FFFFE0 State.reset).map (fun t => (t.status, t.pc)) = some (.halted .eop, 0) := by
  decide +kernel
/-- V-I3. -/
theorem test_prnt_pop : (run 0x0F020000 (withTop 225 (setup [] [(225, 0xC0500000#32)]))).map (fun t => (t.output, t.tsp)) =
    some ([-13 / 4], 224) := by decide +kernel
/-- V-I4. -/
theorem test_prnt_top_empty : (run 0x0F000000 State.reset).map (fun t => (t.status, t.output)) =
    some (.faulted .stackFault .empty 0, []) := by decide +kernel
/-- V-I5. -/
theorem test_scan : (run 0x11040000 { State.reset with input := [5 / 2] }).map (fun t => (regWord t 4, t.pc, t.input)) =
    some (0x40200000#32, 1, []) := by decide +kernel
/-- V-I9. -/
theorem test_scan_waits : (run 0x11040000 State.reset).map (fun t => (t.status, t.pc, regWord t 4)) =
    some (.running, 0, 0#32) := by decide +kernel
/-- V-D3. -/
theorem test_mov_push_pop : (run 0x4701E040 (withTop 226 (setup [] [(226, 0x40000000#32)]))).map
    (fun t => (t.tsp, readSlot t.mem 226, t.pc)) = some (226, 0x40000000#32, 1) := by decide +kernel
/-- V-A37: the autoincrement before the fault is kept. -/
theorem test_mov_partial : (run 0x4743E040 (setup [(3, 0x42480000#32)] [])).map (fun t => (t.status, regWord t 3, t.pc)) =
    some (.faulted .stackFault .underflow 0, 0x424C0000#32, 0) := by decide +kernel
/-- V-D5. -/
theorem test_push_top : (run 0x4F000000 (withTop 225 (setup [] [(225, 0x40800000#32)]))).map
    (fun t => (t.tsp, readSlot t.mem 226)) = some (226, 0x40800000#32) := by decide +kernel
/-- V-A33. -/
theorem test_push_full : (run 0x48010000 (withTop 255 State.reset)).map (fun t => (t.status, t.tsp)) =
    some (.faulted .addressFault .outOfRange 0, 255) := by decide +kernel
/-- V-D10. -/
theorem test_pop_autoInc : (run 0x57410000 (withTop 225 (setup [(1, 0x42200000#32)] [(225, 0x40E00000#32)]))).map
    (fun t => (readSlot t.mem 40, regWord t 1, t.tsp)) = some (0x40E00000#32, 0x42240000#32, 224) := by decide +kernel
/-- V-D9. -/
theorem test_pop_no_location : (run 0x50000000 (withTop 225 State.reset)).map (fun t => (t.status, t.tsp)) =
    some (.faulted .addressFault .noLocation 0, 225) := by decide +kernel
/-- V-R3. -/
theorem test_add_signed : (run 0x81011FE0 (setup [(1, 0xBC23D70A#32)] [])).map (fun t => (regWord t 1, t.pc)) =
    some (0x437EFD70#32, 1) := by decide +kernel
/-- V-A18. -/
theorem test_add_steps_once : (run 0x87430020 (setup [(3, 0x42480000#32)] [(50, 0x3FC00000#32)])).map
    (fun t => (readSlot t.mem 50, regWord t 3)) = some (0x40200000#32, 0x424C0000#32) := by decide +kernel
/-- V-R5. -/
theorem test_sub_lt : (run 0x89012040 (setup [(1, 0x40400000#32), (2, 0x40A00000#32)] [])).map
    (fun t => (regWord t 1, t.cc)) = some (0xC0000000#32, .lt) := by decide +kernel
/-- V-R8: an overflow leaves the register and CC. -/
theorem test_sub_overflow : (run 0x89012040 { setup [(1, 0x7FC00000#32), (2, 0xFF800000#32)] [] with cc := .lt }).map
    (fun t => (t.status, regWord t 1, t.cc)) = some (.faulted .encodeFault .overflow 0, 0x7FC00000#32, .lt) := by
  decide +kernel
/-- V-R9. -/
theorem test_mul : (run 0x91012040 (setup [(1, 0x40A00000#32), (2, 0x40400000#32)] [])).map (fun t => regWord t 1) =
    some 0x41700000#32 := by decide +kernel
/-- V-R12. -/
theorem test_div : (run 0x99012040 (setup [(1, 0x41200000#32), (2, 0x40400000#32)] [])).map (fun t => regWord t 1) =
    some 0x40555555#32 := by decide +kernel
/-- V-R17: a divisor word that is not zero and reads as 0. -/
theorem test_div_by_tiny : (run 0x99012040 (setup [(1, 0x41200000#32), (2, 0x3BA3D70A#32)] [])).map
    (fun t => (regWord t 1, t.diag, t.pc, t.status)) = some (0#32, [{ cause := .divideByZero, pc := 0 }], 1, .running) := by
  decide +kernel
/-- V-R19. -/
theorem test_mod_negative_dividend : (run 0xA1012040 (setup [(1, 0xC0E00000#32), (2, 0x40400000#32)] [])).map
    (fun t => regWord t 1) = some 0x40000000#32 := by decide +kernel
/-- V-R20. -/
theorem test_mod_negative_divisor : (run 0xA1012040 (setup [(1, 0x40E00000#32), (2, 0xC0400000#32)] [])).map
    (fun t => regWord t 1) = some 0xC0000000#32 := by decide +kernel
/-- V-J21. -/
theorem test_call : (run 0xAB060000 { State.reset with pc := 2 }).map (fun t => (readSlot t.mem 225, t.tsp, t.pc)) =
    some (0x40400000#32, 225, 6) := by decide +kernel
/-- V-J23. -/
theorem test_ret : (run 0xB0000000 (withTop 225 (setup [] [(225, 0x40400000#32)]))).map (fun t => (t.tsp, t.pc)) =
    some (224, 3) := by decide +kernel
/-- V-J24: the pop is kept. -/
theorem test_ret_not_integer : (run 0xB0000000 (withTop 225 (setup [] [(225, 0x40600000#32)]))).map
    (fun t => (t.status, t.tsp, t.pc)) = some (.faulted .addressFault .notInteger 0, 224, 0) := by decide +kernel
/-- V-J3. -/
theorem test_jmp_indirect : (run 0xC4320000 (setup [] [(50, 0x40E00000#32)])).map (fun t => t.pc) = some 7 := by
  decide +kernel
/-- V-J6. -/
theorem test_jmp_register : (run 0xC1010000 State.reset).map (fun t => t.status) =
    some (.faulted .addressFault .noLocation 0) := by decide +kernel
/-- V-J20: the target is resolved also when the jump is not taken. -/
theorem test_jeq_not_taken : (run 0xCF420000 { setup [(2, 0x41A00000#32)] [] with pc := 3, cc := .gt }).map
    (fun t => (t.pc, regWord t 2)) = some (4, 0x41A80000#32) := by decide +kernel
/-- V-J8. -/
theorem test_jeq_taken : (run 0xCB0A0000 { State.reset with pc := 3 }).map (fun t => t.pc) = some 10 := by decide +kernel
/-- V-J10. -/
theorem test_jne : (run 0xD30A0000 { State.reset with pc := 3, cc := .lt }).map (fun t => t.pc) = some 10 := by
  decide +kernel
/-- V-J13. -/
theorem test_jlt : (run 0xDB0A0000 { State.reset with pc := 3 }).map (fun t => t.pc) = some 4 := by decide +kernel
/-- V-J14. -/
theorem test_jle : (run 0xE30A0000 { State.reset with pc := 3 }).map (fun t => t.pc) = some 10 := by decide +kernel
/-- V-J17. -/
theorem test_jgt : (run 0xEB020000 { State.reset with pc := 4 }).map (fun t => t.pc) = some 5 := by decide +kernel
/-- V-J19. -/
theorem test_jge : (run 0xF30A0000 { State.reset with pc := 3, cc := .lt }).map (fun t => t.pc) = some 4 := by decide +kernel

/-- The host's two questions about a word: the decoder gives the instruction, and the first step after reset runs it. -/
theorem test_withFetchWord : run 0x410100A0 State.reset =
    nextOf (exec (.mov (.reg 1) (.imm 5)) { State.reset.withFetchWord 32 0x410100A0 with ir := 0 }) := by decide +kernel

/-! ## The host interface and the toolchain -/

theorem test_reset_mem_wf : State.reset.mem.wf := reset_mem_wf

/-- The start state of P5, its words placed by the loader. -/
theorem test_load :
    (load Params.default [(100, 0x3FC00000#32), (0, 0x40400000#32)] [0x410E0000#32, 0x41030000#32]).map
      (fun s => (readSlot s.mem 0, readSlot s.mem 1, readSlot s.mem 100, s.launch.codeEnd)) =
    some (0x410E0000#32, 0x41030000#32, 0x3FC00000#32, 2) := by decide +kernel

theorem test_exitCode : exitCode State.reset = none ∧ exitCode (haltWith .eop State.reset) = some .zero ∧
    exitCode (takeFault .stackEmpty State.reset) = some .nonZero := by decide

/-- W4: the compound jump, and the bracket form. -/
theorem test_assemble :
    assemble Params.default [("A1".toList, 100)]
      [["JEQ".toList, "R1".toList, "R2".toList, "LABEL".toList], ["EOP".toList], ["LABEL:".toList], ["EOP".toList]] =
      .ok [0x89012040#32, 0xCB030000#32, 0#32, 0#32] ∧
    assemble Params.default [("A1".toList, 100)] [["MOV".toList, "A1[I1]".toList, "R3".toList]] = .ok [0x45642060#32] := by
  decide +kernel

/-- A number goes to a waiting SCAN, and no second one with it (R340). -/
theorem test_supplyInput :
    (supplyInput (5 / 2) (State.reset.withFetchWord 32 0x11040000)).map (fun t => (t.input, supplyInput 1 t)) =
      some ([5 / 2], none) ∧ supplyInput (5 / 2) State.reset = none := by decide +kernel

/-- R92: the operands are counted before they are read. R104 and R300: brackets. -/
theorem test_assemble_errors :
    assemble Params.default [] [["RET".toList, "FOO".toList]] = .error .operandCount ∧
    assemble Params.default [] [["PUSH".toList, "FOO".toList]] = .error .undefinedSymbol ∧
    assemble Params.default [] [["FOO".toList, "A[I3]".toList]] = .error .badBracket ∧
    assemble Params.default [] [["PUSH".toList, "[I1]".toList]] = .error .badBracket ∧
    assemble Params.default [] [["PUSH".toList, "A1]".toList]] = .error .badBracket := by decide +kernel

/-- R300. -/
theorem test_AsmReason_code : AsmReason.badBracket.code = 1 ∧ AsmReason.undefinedSymbol.code = 2 := by decide

/-- W5. -/
theorem test_assemble_unknown : assemble Params.default [] [["FOO".toList, "R1".toList]] = .error .unknownMnemonic := by
  decide +kernel

/-- R107. -/
theorem test_disassemble : disassemble 0x9E03E8A0#32 = some ["DIV".toList, "INDX2".toList, "3".toList, "R5+".toList] ∧
    disassemble 0x18000000#32 = some ["UNKNOWN(0b00011)".toList] := by decide +kernel

/-! ## Witnesses: a state and operands that meet the hypotheses of a statement, clause by clause -/

/-- Registers and slots with every kind of content the statements' clauses ask for. R1 = 5, R2 = 3, R3 = 255, R4 = 2.5,
R5 = 256, R6 = 0, R7 = -1, I1 = 10, I2 = 6; slots 50 = 1.25, 61 = 255, 62 = 256, 63 = 3.5, 225 = 9; TSP = 225. -/
def rich : State := withTop 225 <|
  setup
    [(1, 0x40A00000#32), (2, 0x40400000#32), (3, 0x437F0000#32), (4, 0x40200000#32), (5, 0x43800000#32),
     (7, 0xBF800000#32), (14, 0x41200000#32), (15, 0x40C00000#32)]
    [(50, 0x3FA00000#32), (61, 0x437F0000#32), (62, 0x43800000#32), (63, 0x40600000#32), (225, 0x41100000#32)]

/-- A number whose denominator is not 1 is no integer. -/
theorem not_integer {v : Number} (h : v.den ≠ 1) : ¬ ∃ z : Int, v = z := by
  rintro ⟨z, rfl⟩
  exact h (by simp)

theorem witness_AddressCheck_inRange : (255 : Number) = (255 : Nat) ∧ 255 < rich.launch.nmem := by decide +kernel
theorem witness_AddressCheck_notInteger : ¬ ∃ z : Int, (5 / 2 : Number) = z := not_integer (by decide +kernel)
theorem witness_AddressCheck_outOfRange :
    ((256 : Number) = (256 : Int) ∧ (rich.launch.nmem : Int) ≤ 256) ∧ (-1 : Number) = (-1 : Int) ∧ (-1 : Int) < 0 := by
  decide +kernel
theorem witness_ImmediateOperand : 255 ≤ 255 ∧ 256 ≤ rich.launch.nmem := by decide
theorem witness_RegisterOperand : 15 < rich.nreg ∧ rich.nreg ≤ 16 := by decide
theorem witness_RegisterIndirect_inRange : 3 < rich.nreg ∧ decodeNum (regWord rich 3) = (255 : Nat) ∧ 255 < rich.launch.nmem := by
  decide +kernel
theorem witness_RegisterIndirect_raises :
    rich.nreg ≤ 16 ∧ checkAddr (decodeNum (regWord rich 5)) rich = .raise (.addressOutOfRange 256) rich ∧
    checkAddr (decodeNum (regWord rich 4)) rich = .raise (.addressNotInteger (5 / 2)) rich := by decide +kernel
theorem witness_DirectOperand : 255 ≤ 255 ∧ 256 ≤ rich.launch.nmem := by decide
theorem witness_IndirectOperand :
    256 ≤ rich.launch.nmem ∧ decodeNum (readSlot rich.mem 61) = (255 : Nat) ∧
    checkAddr (decodeNum (readSlot rich.mem 62)) rich = .raise (.addressOutOfRange 256) rich := by decide +kernel
theorem witness_IndexedOperand :
    rich.launch.idx1Reg < rich.nreg ∧ rich.launch.idx2Reg < rich.nreg ∧
    decodeNum (regWord rich 14) + (245 : Nat) = (255 : Nat) ∧ decodeNum (regWord rich 15) + (249 : Nat) = (255 : Nat) ∧
    checkAddr (decodeNum (regWord rich 15) + (250 : Nat)) rich = .raise (.addressOutOfRange 256) rich := by decide +kernel
theorem witness_AutoSteps :
    decodeNum (regWord rich 3) = (255 : Nat) ∧ decodeNum (regWord rich 5) - 1 = (255 : Nat) ∧
    checkAddr (decodeNum (regWord rich 5)) rich = .raise (.addressOutOfRange 256) rich ∧
    checkAddr (decodeNum (regWord rich 6) - 1) rich = .raise (.addressOutOfRange (-1)) rich := by decide +kernel
theorem witness_PushStores : (withTop 254 rich).tsp + 1 < rich.launch.nmem ∧ rich.launch.nmem ≤ (withTop 255 rich).tsp + 1 := by
  decide
theorem witness_PopReads :
    (withTop 224 rich).tsp ≤ rich.launch.spr ∧ rich.launch.spr < rich.tsp ∧ rich.tsp < rich.launch.nmem := by decide
theorem witness_TopReads :
    (withTop 224 rich).tsp ≤ rich.launch.spr ∧ rich.launch.spr < rich.tsp ∧ rich.tsp < rich.launch.nmem := by decide
theorem witness_WriteLoc :
    encode (2 ^ 129) = .fault .overflow ∧ encode (1 / 2 ^ 128) = .fault .underflow ∧ encode 255 = .word 0x437F0000#32 ∧
    15 < rich.nreg ∧ 255 < rich.launch.nmem := by decide +kernel
theorem witness_AddStores :
    loc (.reg 1) rich = .ok (.regL 1) rich ∧ readLoc (.regL 1) rich = .ok 5 rich ∧ val (.reg 2) rich = .ok 3 rich ∧
    encode (5 + 3) = .word 0x41000000#32 := by decide +kernel
theorem witness_SubStores :
    loc (.reg 1) rich = .ok (.regL 1) rich ∧ readLoc (.regL 1) rich = .ok 5 rich ∧ val (.reg 2) rich = .ok 3 rich ∧
    encode (5 - 3) = .word 0x40000000#32 := by decide +kernel
theorem witness_MulStores :
    loc (.direct 50) rich = .ok (.memL 50) rich ∧ readLoc (.memL 50) rich = .ok (5 / 4) rich ∧
    val (.imm 4) rich = .ok 4 rich ∧ encode (5 / 4 * 4) = .word 0x40A00000#32 := by decide +kernel
theorem witness_DivStores :
    loc (.reg 1) rich = .ok (.regL 1) rich ∧ readLoc (.regL 1) rich = .ok 5 rich ∧ val (.imm 2) rich = .ok 2 rich ∧
    (2 : Number) ≠ 0 ∧ encode (5 / 2) = .word 0x40200000#32 := by decide +kernel
theorem witness_ModStores :
    (Operand.reg 7).wf = true ∧ loc (.reg 1) rich = .ok (.regL 1) rich ∧ readLoc (.regL 1) rich = .ok 5 rich ∧
    val (.reg 7) rich = .ok (-1) rich ∧ (-1 : Number) ≠ 0 := by decide +kernel
theorem witness_ZeroDivisor :
    loc (.reg 1) rich = .ok (.regL 1) rich ∧ readLoc (.regL 1) rich = .ok 5 rich ∧ val (.reg 6) rich = .ok 0 rich := by
  decide +kernel
theorem witness_UnstorableResult_overflow :
    loc (.reg 1) (setup [(1, 0x7FC00000#32)] []) = .ok (.regL 1) (setup [(1, 0x7FC00000#32)] []) ∧
    readLoc (.regL 1) (setup [(1, 0x7FC00000#32)] []) = .ok (3 * 2 ^ 127) (setup [(1, 0x7FC00000#32)] []) ∧
    val (.reg 1) (setup [(1, 0x7FC00000#32)] []) = .ok (3 * 2 ^ 127) (setup [(1, 0x7FC00000#32)] []) ∧
    encode (3 * 2 ^ 127 + 3 * 2 ^ 127) = .fault .overflow := by decide +kernel
/-- V-R16, its operands: 0.01 by 2^121. -/
theorem witness_UnstorableResult_underflow :
    decodeNum 0x3C23D70A#32 = 1 / 100 ∧ decodeNum 0x7C000000#32 = 2 ^ 121 ∧
    encode (1 / 100 / 2 ^ 121) = .fault .underflow := by decide +kernel
theorem witness_ModResult : (3 : Number) ≠ 0 ∧ (0 : Number) < 3 ∧ (-3 : Number) ≠ 0 ∧ (-3 : Number) < 0 := by decide +kernel
theorem witness_CCAgrees :
    IsDec2 (1 / 100) ∧ IsDec2 (2 / 100) ∧ encode (1 / 100 - 2 / 100) = .word 0xBC23D70A#32 := by decide +kernel
theorem witness_MovStores :
    Operand.pop.wf = true ∧ loc .push rich = .ok .pushL rich ∧ val .pop rich = .ok 9 (withTop 224 rich) ∧
    (withTop 224 rich).tsp + 1 < rich.launch.nmem := by decide +kernel
theorem witness_MovStores_full :
    (Operand.reg 1).wf = true ∧ loc .push (withTop 255 rich) = .ok .pushL (withTop 255 rich) ∧
    val (.reg 1) (withTop 255 rich) = .ok 5 (withTop 255 rich) ∧ rich.launch.nmem ≤ (withTop 255 rich).tsp + 1 := by
  decide +kernel
theorem witness_PushInstruction :
    (Operand.imm 255).wf = true ∧ val (.imm 255) (withTop 254 rich) = .ok 255 (withTop 254 rich) ∧
    (withTop 254 rich).tsp + 1 < rich.launch.nmem ∧ val (.imm 255) (withTop 255 rich) = .ok 255 (withTop 255 rich) ∧
    rich.launch.nmem ≤ (withTop 255 rich).tsp + 1 := by decide +kernel
theorem witness_PopInstruction :
    loc (.imm 0) rich = .raise .noLocation rich ∧ loc (.reg 15) rich = .ok (.regL 15) rich ∧
    loc (.reg 15) (withTop 224 rich) = .ok (.regL 15) (withTop 224 rich) ∧ (withTop 224 rich).tsp ≤ rich.launch.spr ∧
    rich.launch.spr < rich.tsp ∧ rich.tsp < rich.launch.nmem := by decide +kernel
theorem witness_PrntAppends : val .pop rich = .ok 9 (withTop 224 rich) := by decide +kernel
theorem witness_ScanStores :
    loc (.imm 3) rich = .raise .noLocation rich ∧
    loc (.reg 4) { rich with input := [5 / 2] } = .ok (.regL 4) { rich with input := [5 / 2] } ∧
    encode (5 / 2) = .word 0x40200000#32 ∧ encode (2 ^ 130) = .fault .overflow ∧ encode (1 / 2 ^ 128) = .fault .underflow := by
  decide +kernel
theorem witness_ScanStores_full :
    loc .push (withTop 255 { rich with input := [5 / 2] }) = .ok .pushL (withTop 255 { rich with input := [5 / 2] }) ∧
    rich.launch.nmem ≤ (withTop 255 { rich with input := [5 / 2] }).tsp + 1 := by decide +kernel
theorem witness_WaitingScan :
    waiting (State.reset.withFetchWord 32 0x11040000) = true ∧ waiting State.reset = false ∧ waiting rich = false := by
  decide +kernel
theorem witness_Jmp : tgt (.imm 255) rich = .ok 255 rich := by decide +kernel
theorem witness_ConditionalJumps : tgt (.autoInc 3) rich = .ok 255 (setReg 3 0x43800000#32 rich) := by decide +kernel
theorem witness_CallPushes :
    tgt (.regInd 3) rich = .ok 255 rich ∧ encode ((rich.pc + 1 : Nat) : Number) = .word 0x3F800000#32 ∧
    rich.tsp + 1 < rich.launch.nmem ∧ tgt (.regInd 3) (withTop 255 rich) = .ok 255 (withTop 255 rich) ∧
    rich.launch.nmem ≤ (withTop 255 rich).tsp + 1 := by decide +kernel
theorem witness_RetPops :
    (withTop 224 rich).tsp ≤ rich.launch.spr ∧ rich.launch.spr < rich.tsp ∧ rich.tsp < rich.launch.nmem ∧
    decodeNum (readSlot rich.mem rich.tsp) = (9 : Nat) ∧
    checkAddr (decodeNum (readSlot (setSlot 225 0x40600000#32 rich).mem rich.tsp)) (setSlot 225 0x40600000#32 rich) =
      .raise (.addressNotInteger (7 / 2)) (setSlot 225 0x40600000#32 rich) := by decide +kernel

/-- The state of the witnesses has the invariant. -/
theorem rich_inv : Inv rich where
  launch := ⟨by decide +kernel, by decide +kernel, by decide +kernel, by decide +kernel, by decide +kernel,
    by decide +kernel, by decide +kernel, by decide +kernel⟩
  mem_wf := by decide +kernel
  mem_within := by decide +kernel
  pc_le := by decide +kernel
  ir_lt := by decide +kernel
  spr_le_tsp := by decide +kernel
  tsp_lt := by decide +kernel
  status_legal := by decide +kernel
  output_dec2 := by decide +kernel

theorem witness_RetUndoesCall :
    Inv rich ∧ rich.launch.nmem ≤ 2 ^ 24 ∧ tgt (.direct 6) rich = .ok 6 rich ∧ rich.pc + 1 < rich.launch.nmem ∧
    rich.tsp + 1 < rich.launch.nmem := ⟨rich_inv, by decide +kernel⟩
theorem witness_FatalFault :
    rich.status = .running ∧ exec (.mov (.autoInc 3) .push) rich = .next (takeFault .noValue (setReg 3 0x43800000#32 rich)) ∧
    (takeFault .noValue (setReg 3 0x43800000#32 rich)).status = .faulted .addressFault .noValue 0 := by
  refine ⟨rfl, ?_, rfl⟩
  have h : loc (.autoInc 3) rich = .ok (.memL 255) (setReg 3 0x43800000#32 rich) := by decide +kernel
  simp [exec, execMov, h, Res.bind, val, conclude]
theorem witness_OperandFaults :
    (Instr.mov (.reg 200) .pop).operands = [(.write, .reg 200), (.source, .pop)] ∧
    RaisesByRole .write (.reg 200) (.registerOutOfRange 200) rich rich ∧
    loc (.reg 15) (withTop 224 rich) = .ok (.regL 15) (withTop 224 rich) ∧
    val .pop (withTop 224 rich) = .raise .stackUnderflow (withTop 224 rich) := by
  refine ⟨rfl, ?_, ?_⟩
  · show loc (.reg 200) rich = _
    decide +kernel
  · decide +kernel
theorem witness_OnlyArithmetic :
    (Instr.scan (.reg 4)).wf = true ∧ rich.pc + 1 < 2 ^ 129 ∧
    (nextOf (exec (.scan (.reg 4)) { rich with input := [2 ^ 130] })).map (fun t => t.status) =
      some (.faulted .encodeFault .overflow 0) := by decide +kernel
theorem witness_EncodePacks :
    ((2 : Rat) ^ (-127 : Int) ≤ |1 / 2 ^ 127| ∧ |(1 / 2 ^ 127 : Rat)| < (2 : Rat) ^ (-127 + 1 : Int)) ∧
    (2 : Rat) ^ (128 : Int) ≤ |1 - 2 ^ 129| ∧ |(1 - 2 ^ 129 : Rat)| < (2 : Rat) ^ (128 + 1 : Int) := by
  norm_num [abs_of_pos, abs_of_neg]
theorem witness_FloorLog2 : (0 : Number) < 1 / 3 ∧ (2 : Rat) ^ (-2 : Int) ≤ 1 / 3 ∧ (1 / 3 : Rat) < (2 : Rat) ^ (-2 + 1 : Int) := by
  norm_num
theorem witness_FractionExtraction : ((0 : Number) ≤ 3 / 5 ∧ (3 / 5 : Number) < 1) ∧ encode (-5 / 2) = .word 0xC0200000#32 :=
  ⟨by norm_num, by decide +kernel⟩
theorem witness_DecodeRounds_tie : |wordValue 0x3E000000#32 * 100 - decodeHundredths 0x3E000000#32| = 1 / 2 := by decide +kernel
theorem witness_RoundTrip : IsDec2 (6553602 / 100) ∧ |(6553602 / 100 : Number)| < 6553603 / 100 := by decide +kernel
theorem witness_DecodeOfEncode : (Instr.div (.indexed2 255) (.autoInc 63)).wf = true := by decide
theorem witness_EncodeOfDecode : decode 0x410100BF#32 = .instr (.mov (.reg 1) (.imm 5)) := by decide
theorem witness_ReservedBits :
    (State.reset.withFetchWord 32 0x0000001F).status = .running ∧
    readSlot (State.reset.withFetchWord 32 0x0000001F).mem 0 = 0x0000001F#32 ∧ (0x0000001F#32).toNat < 32 := by
  decide +kernel
theorem witness_ReservedOpcodes :
    (State.reset.withFetchWord 32 0x1801FFE0).status = .running ∧
    fetch (State.reset.withFetchWord 32 0x1801FFE0) = .word 0x1801FFE0#32 ∧ (opField 0x1801FFE0#32).toNat = 3 := by
  decide +kernel
theorem witness_ReservedSubCodes :
    decode 0x57C00000#32 = .badOperand 1 ∧ decode 0x57030000#32 = .badOperand 1 ∧ decode 0x573F0000#32 = .badOperand 1 ∧
    decode 0x57BF0000#32 = .instr (.pop (.autoDec 63)) ∧
    fetch (State.reset.withFetchWord 32 0x4101E060) = .word 0x4101E060#32 ∧ decode 0x4101E060#32 = .badOperand 2 := by
  decide +kernel
theorem witness_StepRuns :
    (State.reset.withFetchWord 32 0xB0000000).status = .running ∧
    (State.reset.withFetchWord 32 0xB0000000).pc < (State.reset.withFetchWord 32 0xB0000000).launch.codeEnd ∧
    (State.reset.withFetchWord 32 0xB0000000).pc < (State.reset.withFetchWord 32 0xB0000000).launch.nmem ∧
    decode (readSlot (State.reset.withFetchWord 32 0xB0000000).mem 0) = .instr .ret := by decide +kernel
theorem witness_FetchPast :
    State.reset.status = .running ∧ State.reset.launch.codeEnd ≤ State.reset.pc ∧
    readSlot (State.reset.withFetchWord 32 0).mem 0 = 0#32 ∧ State.reset.launch.nmem ≤ 256 := by decide +kernel
theorem witness_EndedRun : (haltWith .eop State.reset).status ≠ .running ∧ (takeFault .stackEmpty State.reset).status ≠ .running := by
  decide
theorem witness_ResetSatisfies : Params.default.Ok := by decide
theorem witness_StepKeeps : Inv rich ∧ step rich = .next (haltWith .endOfProgram rich) := by
  refine ⟨rich_inv, ?_⟩
  have h : fetch rich = .ended := by decide +kernel
  have h' : rich.status = .running := rfl
  simp [step, h, h']
theorem witness_OnlyTheStoredSlot :
    rich.mem.wf ∧ exec (.call (.direct 6)) rich = .next { setSlot 226 0x3F800000#32 { rich with tsp := 226 } with pc := 6 } := by
  refine ⟨rich_inv.mem_wf, ?_⟩
  have h : tgt (.direct 6) rich = .ok 6 rich := by decide +kernel
  have h' : writeLoc .pushL ((rich.pc + 1 : Nat) : Number) rich = .ok () (setSlot 226 0x3F800000#32 { rich with tsp := 226 }) := by
    decide +kernel
  rw [exec, execCall, h, Res.bind, h', Res.bind, conclude]
theorem witness_OnlyTheNamedRegisters : exec (.jmp (.imm 255)) rich = .next { rich with pc := 255 } := by
  have h : jump condAlways (.imm 255) rich = .ok 255 rich := by decide +kernel
  rw [exec, execJmp, h, conclude]
theorem witness_OnlyTheNamedControlState : exec .eop rich = .next { rich with status := .halted .eop } := rfl
theorem witness_LoadPlaces :
    (load Params.default [(1, 0x3FC00000#32), (0, 0x40400000#32)] [0x410E0000#32]).isSome = true ∧
    ([(1, 0x3FC00000#32), (0, 0x40400000#32)].map Prod.fst).Nodup ∧ Params.default.codeBase + 1 ≤ 1 := by
  decide +kernel
theorem witness_AssembleOfDisassemble : (Instr.mod (.autoDec 63) (.indexed1 255)).wf = true := by decide

end Sys2Proof.Tests
end

-- The invariant of the machine (00_scope.md): the reset state has it, and every step keeps it.
section
/-! SUPPORT. The updates of the state that keep the invariant, the ways a step ends, and the obligations O54 and O55
that rest on them. -/

namespace Sys2Proof.Machine

/-! ## The constraints on the parameters (R7) -/

/-- The constraints speak of the launch constants and the number of registers alone. -/
theorem LaunchOk.congr {s t : State} (h : LaunchOk s) (hl : t.launch = s.launch) (hn : t.nreg = s.nreg) :
    LaunchOk t := by
  constructor <;> simp only [hl, hn]
  exacts [h.nreg_ge, h.nreg_le, h.nmem_ge, h.idx_ne, h.idx1_lt, h.idx2_lt, h.spr_lt, h.codeEnd_le]

/-- Parameters that R7 allows become launch constants that obey its constraints. -/
theorem resetWith_launchOk {p : Params} (hp : p.Ok) : LaunchOk (State.resetWith p) := by
  obtain ⟨⟨hnregGe, hnregLe⟩, hnmem, hcode, hstack, hidx, hidx1, hidx2⟩ := hp
  have hn : (State.resetWith p).nreg = p.nreg := by simp [State.nreg]
  exact ⟨hn ▸ hnregGe, hn ▸ hnregLe, hnmem, hidx, hn ▸ hidx1, hn ▸ hidx2, hstack, hcode.le⟩

/-! ## Reset (R330) -/

/-- The reset state has the invariant: both pointers are at their bases, and nothing is in memory or printed. -/
theorem resetWith_inv {p : Params} (hp : p.Ok) : Inv (State.resetWith p) := by
  have hlaunch := resetWith_launchOk hp
  obtain ⟨-, -, hcode, hstack, -⟩ := hp
  exact {
    launch := hlaunch
    mem_wf := resetWith_mem_wf p
    mem_within := by simp
    pc_le := hcode.le
    ir_lt := Nat.zero_lt_of_lt hcode
    spr_le_tsp := Nat.le_refl p.stackBase
    tsp_lt := hstack
    status_legal := rfl
    output_dec2 := by simp }

/-- The default parameters obey R7. -/
theorem default_params_ok : Params.default.Ok := by decide

/-! ## Updates that keep the invariant -/

theorem Inv.haltWith {s : State} (h : Inv s) (why : HaltReason) : Inv (Machine.haltWith why s) :=
  { h with launch := h.launch.congr rfl rfl, status_legal := rfl }

/-- A fault taken keeps the invariant when it is of a fatal kind (R302, R303). -/
theorem Inv.takeFault {s : State} (h : Inv s) {c : FaultCause} (hc : c.kind.fatal = true) :
    Inv (Machine.takeFault c s) :=
  { h with launch := h.launch.congr rfl rfl, status_legal := hc }

/-- IR takes the address of the word fetched, which lies in memory (R36, R195). -/
theorem Inv.fetched {s : State} (h : Inv s) (hpc : s.pc < s.launch.nmem) : Inv { s with ir := s.pc } :=
  { h with launch := h.launch.congr rfl rfl, ir_lt := hpc }

/-- CC, the input channel and the diagnostic channel are free, and PC may be anything up to NMEM (R35). -/
theorem Inv.control {s : State} (h : Inv s) {pc : Nat} (hpc : pc ≤ s.launch.nmem) (cc : Cond) (inp : List Number)
    (d : List Report) : Inv { s with pc := pc, cc := cc, input := inp, diag := d } :=
  { h with launch := h.launch.congr rfl rfl, pc_le := hpc }

/-- The output channel may be any list of `Dec2` numbers (R270). -/
theorem Inv.printed {s : State} (h : Inv s) {out : List Number} (hout : ∀ v ∈ out, IsDec2 v) :
    Inv { s with output := out } :=
  { h with launch := h.launch.congr rfl rfl, output_dec2 := hout }

/-- A store into a slot of memory keeps memory canonical and within the address space. -/
theorem Inv.setSlot {s : State} (h : Inv s) {p : Nat} (hp : p < s.launch.nmem) (w : Word) :
    Inv (Machine.setSlot p w s) :=
  { h with
    launch := h.launch.congr rfl rfl
    mem_wf := writeSlot_wf h.mem_wf p w
    mem_within := writeSlot_within h.mem_within hp w }

/-- A store into a location keeps the invariant when its slot exists: a push then leaves TSP below NMEM (R39). -/
theorem Inv.put {s : State} (h : Inv s) {L : Loc} (hslot : ∀ p, L.slot s = some p → p < s.launch.nmem) (w : Word) :
    Inv (L.put w s) := by
  cases L with
  | regL n => exact { h with launch := h.launch.congr rfl (setReg_nreg n w s) }
  | memL p => exact h.setSlot (hslot p rfl) w
  | pushL =>
    have hroom : s.tsp + 1 < s.launch.nmem := hslot _ rfl
    have hraised : Inv { s with tsp := s.tsp + 1 } :=
      { h with
        launch := h.launch.congr rfl rfl
        spr_le_tsp := Nat.le_succ_of_le h.spr_le_tsp
        tsp_lt := hroom }
    exact hraised.setSlot hroom w

/-- Resolving operands keeps the invariant: it changes registers, and moves TSP within the stack's bounds. -/
theorem Inv.resolved {i : Instr} {s u : State} (h : Inv s) (hu : Resolved i s u) : Inv u := by
  have k := hu.keeps
  obtain ⟨hspr, htsp⟩ := hu.range h.spr_le_tsp h.tsp_lt
  exact {
    launch := h.launch.congr k.launch k.nreg
    mem_wf := k.mem ▸ h.mem_wf
    mem_within := by rw [k.mem, k.launch]; exact h.mem_within
    pc_le := by rw [k.pc, k.launch]; exact h.pc_le
    ir_lt := by rw [k.ir, k.launch]; exact h.ir_lt
    spr_le_tsp := k.launch ▸ hspr
    tsp_lt := k.launch ▸ htsp
    status_legal := k.status ▸ h.status_legal
    output_dec2 := k.output ▸ h.output_dec2 }

/-! ## One instruction -/

/-- However an instruction that was fetched from memory ends, it keeps the invariant. That PC was below NMEM is what
keeps PC + 1 at most NMEM. -/
theorem Ended.inv {i : Instr} {s t : State} (he : Ended i s t) (h : Inv s) (hpc : s.pc < s.launch.nmem) : Inv t := by
  have next_le {n : Nat} (hn : n = s.pc + 1 ∨ n < s.launch.nmem) : n ≤ s.launch.nmem := by omega
  cases he with
  | fault c u inp hu _ hc =>
    have hinv := h.resolved hu
    exact (hinv.control hinv.pc_le u.cc inp u.diag).takeFault hc
  | stored L w u pc cc inp d hu hnext _ hin =>
    have hl := hu.keeps.launch
    have hput : Inv (L.put w u) := (h.resolved hu).put (hl ▸ hin) w
    exact hput.control (by rw [put_launch, hl]; exact next_le hnext) cc inp d
  | moved u pc out hu hnext _ hout =>
    have hl := hu.keeps.launch
    have hdec2 : ∀ v ∈ out, IsDec2 v := by
      rcases hout with rfl | ⟨_, x, _, hx, rfl⟩
      · exact h.output_dec2
      · exact List.forall_mem_append.mpr ⟨h.output_dec2, List.forall_mem_singleton.mpr hx⟩
    have hmoved := (h.resolved hu).control (hl ▸ next_le hnext) u.cc u.input u.diag
    exact hmoved.printed hdec2
  | halted => exact h.haltWith .eop
  | waits => exact h

/-! ## One step -/

/-- The ways a step ends in a next state (R190, R195): each from a running state. -/
inductive Stepped (s : State) : State → Prop where
  /-- The fetch found the end of the program. -/
  | ended : Stepped s (haltWith .endOfProgram s)
  /-- The fetched word spells no instruction: a reserved opcode or a reserved operand. -/
  | undecodable (w : Word) (c : FaultCause) (hw : fetch s = .word w) (hc : c.kind.fatal = true) :
    Stepped s (takeFault c { s with ir := s.pc })
  /-- The fetched word's instruction is executed, with IR at its address. -/
  | executed (w : Word) (i : Instr) (t : State) (hw : fetch s = .word w) (hi : decode w = .instr i)
    (ht : exec i { s with ir := s.pc } = .next t) : Stepped s t

/-- SAID ONCE: if a step answers a next state, the run was running and that state is one of these. -/
theorem step_stepped {s t : State} (h : step s = .next t) : s.status = .running ∧ Stepped s t := by
  unfold step at h
  split at h
  case h_1 => cases h
  case h_2 => cases h
  case h_3 hrunning =>
    refine ⟨hrunning, ?_⟩
    split at h
    case h_1 => cases h; exact .ended
    case h_2 w hw =>
      split at h
      case h_1 => cases h; exact .ended
      case h_2 op _ => cases h; exact .undecodable w (.reservedOpcode op) hw rfl
      case h_3 k _ => cases h; exact .undecodable w (.reservedOperand k) hw rfl
      case h_4 i hi => exact .executed w i t hw hi h

theorem Stepped.inv {s t : State} (hs : Stepped s t) (h : Inv s) : Inv t := by
  have pc_lt {w : Word} (hw : fetch s = .word w) : s.pc < s.launch.nmem := (fetch_eq_word.mp hw).2.1
  cases hs with
  | ended => exact h.haltWith .endOfProgram
  | undecodable w c hw hc => exact (h.fetched (pc_lt hw)).takeFault hc
  | executed w i t hw _ ht => exact (exec_ended ht).inv (h.fetched (pc_lt hw)) (pc_lt hw)

/-! ## The obligations -/

/-- Settles O54: the reset state of any parameters that R7 allows, and of the defaults, which it allows. -/
theorem resetSatisfiesTheInvariant : Obligations.ResetSatisfiesTheInvariant :=
  ⟨fun _ hp => resetWith_inv hp, resetWith_inv default_params_ok⟩

/-- Settles O55, by the cases of what a step can do (`Stepped`), and for an executed instruction by the cases of how
it can end (`Ended`). -/
theorem stepKeepsTheInvariant : Obligations.StepKeepsTheInvariant :=
  fun _ _ h ht => (step_stepped ht).2.inv h

/-! ## What they say together: the invariant of every reachable state -/

/-- The induction over a run, once for every machine and predicate: what each step keeps, a run of any length keeps. -/
theorem run_keeps (M : Host.Core) {P : M.State → Prop} (hstep : ∀ s t, P s → M.step s = .next t → P t) {k : Nat}
    {s t : M.State} (hs : P s) (ht : M.run k s = .next t) : P t := by
  induction k generalizing s with
  | zero => cases ht; exact hs
  | succ k ih =>
    rw [Host.Core.run] at ht
    split at ht
    case h_1 u hu => exact ih (hstep s u hs hu) ht
    case h_2 => cases ht
    case h_3 => cases ht

/-- Every state that a run from reset reaches has the invariant. -/
theorem reachable_inv {k : Nat} {t : State} (ht : core.run k core.reset = .next t) : Inv t :=
  run_keeps core stepKeepsTheInvariant resetSatisfiesTheInvariant.2 ht

/-- A word placed where the next step fetches it keeps the invariant, while PC is in memory. -/
theorem Inv.withFetchWord {s : State} (h : Inv s) (hpc : s.pc < s.launch.nmem) (nbits w : Nat) :
    Inv (s.withFetchWord nbits w) :=
  { h.setSlot hpc (BitVec.ofNat 32 (w % 2 ^ nbits)) with
    launch := { h.launch with codeEnd_le := max_le h.launch.codeEnd_le hpc } }

/-! ## A witness: the invariant, and a step that executes an instruction which stores -/

/-- The reset state with `PUSH #5` as the word to fetch. -/
def pushFive : State := State.reset.withFetchWord 32 0x48050000

/-- What one step leaves: 5 encoded in the slot above the stack base, TSP raised to it, and PC at the next slot. -/
def pushedFive : State := { setSlot 225 0x40A00000#32 pushFive with tsp := 225, pc := 1 }

theorem pushFive_inv : Inv pushFive := resetSatisfiesTheInvariant.2.withFetchWord (by decide) 32 0x48050000

theorem step_pushFive : step pushFive = .next pushedFive := by
  have hrunning : pushFive.status = .running := rfl
  have hfetch : fetch pushFive = .word 0x48050000#32 := by decide
  have hdecode : decode 0x48050000#32 = .instr (.push (.imm 5)) := by decide
  have hstore : writeLoc .pushL ((5 : Nat) : Number) pushFive =
      .ok () { setSlot 225 0x40A00000#32 pushFive with tsp := 225 } := by decide +kernel
  calc step pushFive = exec (.push (.imm 5)) pushFive := by
        simp only [step, hrunning, hfetch, hdecode]; rfl
    _ = .next pushedFive := by rw [exec, execPush, val, Res.bind_ok, hstore]; rfl

theorem witness_stepKeepsTheInvariant : Inv pushedFive :=
  stepKeepsTheInvariant pushFive pushedFive pushFive_inv step_pushFive

end Sys2Proof.Machine
end

-- The frame of the control state, and the end of a run (00_scope.md, 10_state.md).
section
/-! SUPPORT. What an instruction may change besides memory and registers, for each way it can end, and the obligations
O52 and O58 that rest on it. -/

namespace Sys2Proof.Machine

/-! ## An ended run (R40, R196) -/

theorem step_of_halted {s : State} {why : HaltReason} (h : s.status = .halted why) : step s = .fault .runHalted := by
  unfold step; rw [h]

theorem step_of_faulted {s : State} {kind : FaultKind} {reason : FaultReason} {pc : Nat}
    (h : s.status = .faulted kind reason pc) : step s = .fault .runFaulted := by
  unfold step; rw [h]

/-- Settles O52, by the two statuses of an ended run. -/
theorem endedRunHasNoStep : Obligations.EndedRunHasNoStep := by
  intro s hs
  cases h : s.status with
  | running => exact absurd h hs
  | halted why => exact ⟨.runHalted, step_of_halted h⟩
  | faulted kind reason pc => exact ⟨.runFaulted, step_of_faulted h⟩

/-! ## The control state that an instruction may change -/

/-- The frame of everything but memory, registers and PC: what the instruction `i` may change, field by field. -/
structure ControlFrame (i : Instr) (s t : State) : Prop where
  ir : t.ir = s.ir
  launch : t.launch = s.launch
  nreg : t.nreg = s.nreg
  cc : t.cc = s.cc ∨ ∃ dst src, i = .sub dst src
  tsp : t.tsp = s.tsp ∨ movesStack i = true
  output : t.output = s.output ∨ ∃ src v, i = .prnt src ∧ t.output = s.output ++ [v]
  input : t.input = s.input ∨ ∃ dst v, i = .scan dst ∧ s.input = v :: t.input
  diag : t.diag = s.diag ∨ ∃ c, t.diag = s.diag ++ [{ cause := c, pc := s.pc }]
  status : t.status = s.status ∨ i = .eop ∨ ∃ c : FaultCause, t.status = .faulted c.kind c.reason s.pc

/-- Resolving operands moves TSP at most. -/
theorem Resolved.controlFrame {i : Instr} {s u : State} (h : Resolved i s u) : ControlFrame i s u where
  ir := h.keeps.ir
  launch := h.keeps.launch
  nreg := h.keeps.nreg
  cc := .inl h.keeps.cc
  tsp := h.tsp
  output := .inl h.keeps.output
  input := .inl h.keeps.input
  diag := .inl h.keeps.diag
  status := .inl h.keeps.status

/-- A store moves TSP only where it is a push. -/
theorem put_tsp (L : Loc) (w : Word) (s : State) : (L.put w s).tsp = s.tsp ∨ L = .pushL := by
  cases L with
  | regL n => exact .inl rfl
  | memL p => exact .inl rfl
  | pushL => exact .inr rfl

/-- A store after the operands moves TSP at most. -/
theorem ControlFrame.put {i : Instr} {s u : State} (h : ControlFrame i s u) {L : Loc}
    (hpush : L = .pushL → movesStack i = true) (w : Word) : ControlFrame i s (L.put w u) where
  ir := by rw [put_ir]; exact h.ir
  launch := by rw [put_launch]; exact h.launch
  nreg := by rw [put_nreg]; exact h.nreg
  cc := by rw [put_cc]; exact h.cc
  tsp := by
    rcases put_tsp L w u with hsame | hL
    · rw [hsame]; exact h.tsp
    · exact .inr (hpush hL)
  output := by rw [put_output]; exact h.output
  input := by rw [put_input]; exact h.input
  diag := by rw [put_diag]; exact h.diag
  status := by rw [put_status]; exact h.status

/-- However an instruction ends, it changes no control state but what is named for it. Each case takes the frame of
the resolved operands and says only which fields it changes on top of them. -/
theorem Ended.controlFrame {i : Instr} {s t : State} (he : Ended i s t) : ControlFrame i s t := by
  cases he with
  | fault c u inp hu hinput _ =>
    exact { hu.controlFrame with
      input := hinput
      diag := .inr ⟨c, by simp [hu.keeps.diag, hu.keeps.pc]⟩
      status := .inr (.inr ⟨c, by simp [hu.keeps.pc]⟩) }
  | stored L w u pc cc inp d hu _ _ _ _ hpush hcc hinput hdiag =>
    exact { hu.controlFrame.put hpush w with cc := hcc, input := hinput, diag := hdiag }
  | moved u pc out hu _ _ hout =>
    exact { hu.controlFrame with output := hout.imp_right fun ⟨src, v, hi, _, hv⟩ => ⟨src, v, hi, hv⟩ }
  | halted hi => exact { (Resolved.refl i s).controlFrame with status := .inr (.inl hi) }
  | waits => exact (Resolved.refl i s).controlFrame

/-- Settles O58, by the cases of how an instruction can end (`Ended`). -/
theorem onlyTheNamedControlStateChanges : Obligations.OnlyTheNamedControlStateChanges := by
  intro i s t h
  obtain ⟨hir, hlaunch, hnreg, hcc, htsp, houtput, hinput, hdiag, hstatus⟩ := (exec_ended h).controlFrame
  exact ⟨hir, hlaunch, hnreg, hcc, htsp, houtput, hinput, hdiag, hstatus⟩

/-! ## Witnesses -/

/-- After `PUSH #5`, `PRNT POP` both pops and prints. -/
theorem exec_prnt_pop_pushedFive :
    exec (.prnt .pop) pushedFive = .next { pushedFive with tsp := 224, output := [5], pc := 2 } := by
  have hpop : val .pop pushedFive = .ok 5 { pushedFive with tsp := 224 } := by decide +kernel
  rw [exec, execPrnt, hpop]; rfl

/-- Two of the exceptions at once: TSP and the output are not as before, so the statement gives the reason for each. -/
theorem witness_onlyTheNamedControlStateChanges :
    movesStack (.prnt .pop) = true ∧ ∃ src v, Instr.prnt .pop = .prnt src ∧ [5] = pushedFive.output ++ [v] := by
  obtain ⟨-, -, -, -, htsp, houtput, -⟩ := onlyTheNamedControlStateChanges _ _ _ exec_prnt_pop_pushedFive
  exact ⟨htsp.resolve_left (by decide), houtput.resolve_left (by decide)⟩

theorem witness_endedRunHasNoStep : ∃ f, step (takeFault .stackEmpty pushedFive) = .fault f :=
  endedRunHasNoStep _ (by simp)

end Sys2Proof.Machine
end

-- The memory frame and the address check (20_memory.md).
section
/-! SUPPORT. Which bytes of memory an instruction may change, for each way it can end, the address check on integers
and on other numbers, and the obligations O1 and O56 that rest on them. -/

namespace Sys2Proof.Machine

/-! ## The address check (R61) -/

/-- A number is an integer exactly when its denominator is 1. -/
theorem den_eq_one_iff_exists_int {v : Number} : v.den = 1 ↔ ∃ z : Int, v = z :=
  ⟨fun h => ⟨v.num, ((Rat.den_eq_one_iff v).mp h).symm⟩, by rintro ⟨z, rfl⟩; exact Rat.den_intCast z⟩

theorem checkAddr_of_not_integer {v : Number} (hv : ¬ ∃ z : Int, v = z) (s : State) :
    checkAddr v s = .raise (.addressNotInteger v) s :=
  checkAddr_eq_raise.mpr ⟨rfl, .inl ⟨mt den_eq_one_iff_exists_int.mp hv, rfl⟩⟩

theorem checkAddr_of_int_outOfRange {z : Int} {s : State} (hz : z < 0 ∨ (s.launch.nmem : Int) ≤ z) :
    checkAddr z s = .raise (.addressOutOfRange z) s :=
  checkAddr_eq_raise.mpr ⟨rfl, .inr ⟨Rat.den_intCast z, by rwa [Rat.num_intCast], rfl⟩⟩

/-- Settles O1, clause by clause from what the address check answers and what it raises. -/
theorem addressCheckFaultsAndNeverClamps : Obligations.AddressCheckFaultsAndNeverClamps := by
  intro v s
  refine ⟨fun p hv hp => ?inRange, fun hv => ?notInteger, fun z hv hz => ?outOfRange⟩
  case inRange => exact checkAddr_eq_ok.mpr ⟨hv, hp, rfl⟩
  case notInteger => exact checkAddr_of_not_integer hv s
  case outOfRange => rw [hv]; exact checkAddr_of_int_outOfRange hz

/-! ## The memory that an instruction may change (R63, R72) -/

/-- Where memory is as before, so is every byte outside any slot. -/
theorem memSameOutside_of_mem_eq {slot : Option Nat} {s t : State} (h : t.mem = s.mem) : MemSameOutside slot s t :=
  fun k _ => by rw [h]

/-- Only the memory of the two states counts. -/
theorem MemSameOutside.congr {slot : Option Nat} {s t s' t' : State} (h : MemSameOutside slot s t)
    (hs : s'.mem = s.mem) (ht : t'.mem = t.mem) : MemSameOutside slot s' t' :=
  fun k hk => by rw [hs, ht]; exact h k hk

/-- However an instruction ends, it changes no byte outside the slot it stores to. Only a store changes memory at all,
and the slot it fills is the one that the operands' side effects left. -/
theorem Ended.memSameOutside {i : Instr} {s t : State} (he : Ended i s t) (hwf : s.mem.wf) :
    MemSameOutside (storedSlot i s) s t := by
  cases he with
  | fault c u inp hu => exact memSameOutside_of_mem_eq hu.keeps.mem
  | stored L w u pc cc inp d hu _ hslot =>
    have hmem := hu.keeps.mem
    have hput : MemSameOutside (L.slot u) u (L.put w u) := put_memSame (hmem ▸ hwf)
    rw [hslot]
    exact hput.congr hmem.symm rfl
  | moved u pc out hu => exact memSameOutside_of_mem_eq hu.keeps.mem
  | halted => exact memSameOutside_of_mem_eq rfl
  | waits => exact memSameOutside_of_mem_eq rfl

/-- Settles O56, by the cases of how an instruction can end (`Ended`). -/
theorem onlyTheStoredSlotChanges : Obligations.OnlyTheStoredSlotChanges :=
  fun _ _ _ hwf h => (exec_ended h).memSameOutside hwf

/-! ## The frame in words -/

/-- The bytes of every other slot are outside the slot stored to, so every other slot keeps its word. -/
theorem MemSameOutside.readSlot_eq {slot : Option Nat} {s t : State} (h : MemSameOutside slot s t) {a : Nat}
    (ha : slot ≠ some a) : readSlot t.mem a = readSlot s.mem a := by
  have hbyte {lane : Nat} (hlane : lane < 4) : readByte t.mem (slotCell a lane) = readByte s.mem (slotCell a lane) := by
    refine h _ fun p hp => ?_
    have hne : p ≠ a := fun e => ha (e ▸ hp)
    unfold slotCell
    omega
  simp only [readSlot, hbyte, Nat.reduceLT]

/-- An instruction leaves the word of every slot but the one it stores to. -/
theorem exec_readSlot_eq {i : Instr} {s t : State} (hwf : s.mem.wf) (h : exec i s = .next t) {a : Nat}
    (ha : storedSlot i s ≠ some a) : readSlot t.mem a = readSlot s.mem a :=
  (onlyTheStoredSlotChanges i s t hwf h).readSlot_eq ha

/-! ## Witnesses -/

/-- After `PUSH #5`, `CALL 6` pushes the return address 2 above the 5. -/
def calledSix : State := { setSlot 226 0x40000000#32 pushedFive with tsp := 226, pc := 6 }

theorem exec_call_pushedFive : exec (.call (.direct 6)) pushedFive = .next calledSix := by
  have htgt : tgt (.direct 6) pushedFive = .ok 6 pushedFive := by decide +kernel
  have hstore : writeLoc .pushL ((2 : Nat) : Number) pushedFive =
      .ok () { setSlot 226 0x40000000#32 pushedFive with tsp := 226 } := by decide +kernel
  have hpc : pushedFive.pc + 1 = 2 := rfl
  rw [exec, execCall, htgt, Res.bind_ok, hpc, hstore]; rfl

/-- `CALL 6` stores to slot 226, so the 5 pushed into slot 225 is still there. -/
theorem witness_onlyTheStoredSlotChanges :
    storedSlot (.call (.direct 6)) pushedFive = some 226 ∧ readSlot calledSix.mem 225 = 0x40A00000#32 := by
  have hslot : storedSlot (.call (.direct 6)) pushedFive = some 226 := by decide +kernel
  have hkept : readSlot calledSix.mem 225 = readSlot pushedFive.mem 225 :=
    exec_readSlot_eq witness_stepKeepsTheInvariant.mem_wf exec_call_pushedFive (by rw [hslot]; decide)
  exact ⟨hslot, hkept.trans (by decide)⟩

/-- The two ends of memory, a number between two addresses, and the integers next to the ends. -/
theorem witness_addressCheckFaultsAndNeverClamps :
    (checkAddr 0 pushedFive = .ok 0 pushedFive ∧ checkAddr 255 pushedFive = .ok 255 pushedFive) ∧
    checkAddr (5 / 2) pushedFive = .raise (.addressNotInteger (5 / 2)) pushedFive ∧
    checkAddr (-1) pushedFive = .raise (.addressOutOfRange (-1)) pushedFive ∧
    checkAddr 256 pushedFive = .raise (.addressOutOfRange 256) pushedFive := by
  have hhalf : ¬ ∃ z : Int, (5 / 2 : Number) = z := mt den_eq_one_iff_exists_int.mpr (by decide +kernel)
  obtain ⟨hfirst, -, -⟩ := addressCheckFaultsAndNeverClamps 0 pushedFive
  obtain ⟨hlast, -, -⟩ := addressCheckFaultsAndNeverClamps 255 pushedFive
  obtain ⟨-, hnotInteger, -⟩ := addressCheckFaultsAndNeverClamps (5 / 2) pushedFive
  obtain ⟨-, -, hbelow⟩ := addressCheckFaultsAndNeverClamps (-1) pushedFive
  obtain ⟨-, -, habove⟩ := addressCheckFaultsAndNeverClamps 256 pushedFive
  exact ⟨⟨hfirst 0 (by simp) (by decide), hlast 255 (by simp) (by decide)⟩, hnotInteger hhalf,
    hbelow (-1) (by simp) (by decide), habove 256 (by simp) (by decide)⟩

end Sys2Proof.Machine
end

-- The decoder and the encoder (30_encoding.md, sections 1 to 4).
section
/-! SUPPORT. What the decoder reads in a word, as one relation between words and answers, the word that the encoder
writes, and the obligations O44 to O49 that compare the two. -/

namespace Sys2Proof

/-! ## Operand fields (R85, R86) -/

/-- The selector of a mode 7 address field, as a number. -/
theorem specialSelector_toNat (a : BitVec 8) : (a.extractLsb' 6 2).toNat = a.toNat / 64 := by
  rw [BitVec.extractLsb'_toNat, Nat.shiftRight_eq_div_pow]; omega

/-- The sub-code or register number of a mode 7 address field, as a number. -/
theorem specialSub_toNat (a : BitVec 8) : (a.extractLsb' 0 6).toNat = a.toNat % 64 := by
  rw [BitVec.extractLsb'_toNat, Nat.shiftRight_zero]

/-- What a mode 7 address field spells is an operand of mode 7 that the field is the address code of. -/
theorem decodeSpecial_eq_some {a : BitVec 8} {o : Operand} (h : decodeSpecial a = some o) :
    o.wf = true ∧ modeCode o = 7 ∧ addrCode o = a := by
  unfold decodeSpecial at h
  rw [specialSelector_toNat, specialSub_toNat] at h
  split at h <;> cases h <;> refine ⟨?_, rfl, BitVec.eq_of_toNat_eq ?_⟩ <;> simp [addrCode, Operand.wf] <;> omega

/-- A mode 7 address field spells no operand exactly where R86 reserves it. -/
theorem decodeSpecial_eq_none_iff (a : BitVec 8) :
    decodeSpecial a = none ↔ 192 ≤ a.toNat ∨ (3 ≤ a.toNat ∧ a.toNat < 64) := by
  unfold decodeSpecial
  rw [specialSelector_toNat, specialSub_toNat]
  split
  case h_6 => grind
  all_goals simp; omega

/-- An operand of mode 7 is what its address code spells. -/
theorem decodeSpecial_addrCode {o : Operand} (hwf : o.wf = true) (hmode : modeCode o = 7) :
    decodeSpecial (addrCode o) = some o := by
  unfold decodeSpecial
  rw [specialSelector_toNat, specialSub_toNat]
  cases o
  case top | push | pop => rfl
  case autoInc n =>
    have hn : n < 64 := of_decide_eq_true hwf
    have hselector : (0x40 + n) % 256 / 64 = 1 := by omega
    have hnumber : (0x40 + n) % 64 = n := by omega
    simp [addrCode, hselector, hnumber]
  case autoDec n =>
    have hn : n < 64 := of_decide_eq_true hwf
    have hselector : (0x80 + n) % 256 / 64 = 2 := by omega
    have hnumber : (0x80 + n) % 64 = n := by omega
    simp [addrCode, hselector, hnumber]
  all_goals cases hmode

/-- The codes of an operand that fits its field decode to that operand. -/
theorem decodeOperand_codes {o : Operand} (hwf : o.wf = true) : decodeOperand (modeCode o) (addrCode o) = some o := by
  cases o
  case top | push | pop | autoInc | autoDec => exact decodeSpecial_addrCode hwf rfl
  all_goals
    next n =>
    have hfits : n < 256 := of_decide_eq_true hwf
    simp [decodeOperand, modeCode, addrCode, hfits]

/-- SAID ONCE: a field pair of mode 7 is read by its sub-code, and every other one is the codes of an operand. -/
theorem decodeOperand_cases (m : BitVec 3) (a : BitVec 8) :
    (m = 7 ∧ decodeOperand m a = decodeSpecial a) ∨
      m ≠ 7 ∧ ∃ o, decodeOperand m a = some o ∧ o.wf = true ∧ modeCode o = m ∧ addrCode o = a := by
  have hlt : m.toNat < 8 := m.isLt
  unfold decodeOperand
  split
  case h_8 =>
    have hm : m.toNat = 7 := by grind
    exact .inl ⟨BitVec.eq_of_toNat_eq hm, rfl⟩
  all_goals
    next hm =>
    refine .inr ⟨(by rintro rfl; cases hm), _, rfl, decide_eq_true a.isLt, BitVec.eq_of_toNat_eq hm.symm, ?_⟩
    simp [addrCode]

/-- What a field pair decodes to is an operand that fits its field, and the pair is its codes. -/
theorem decodeOperand_eq_some {m : BitVec 3} {a : BitVec 8} {o : Operand} (h : decodeOperand m a = some o) :
    o.wf = true ∧ modeCode o = m ∧ addrCode o = a := by
  rcases decodeOperand_cases m a with ⟨rfl, hspecial⟩ | ⟨-, o', ho', hcodes⟩
  · exact decodeSpecial_eq_some (hspecial ▸ h)
  · cases ho'.symm.trans h
    exact hcodes

/-- R86: a field pair decodes to no operand exactly where it is reserved. -/
theorem decodeOperand_eq_none_iff (m : BitVec 3) (a : BitVec 8) : decodeOperand m a = none ↔ reservedSub m a := by
  rcases decodeOperand_cases m a with ⟨hm, hspecial⟩ | ⟨hm, o, ho, -⟩
  · rw [hspecial, decodeSpecial_eq_none_iff, reservedSub, and_iff_right hm]
  · rw [ho]
    exact iff_of_false nofun fun h => hm h.1

/-- Operand 1 as the word's fields spell it, and operand 2. -/
abbrev operand1 (w : Word) : Option Operand := decodeOperand (mode1Field w) (addr1Field w)
abbrev operand2 (w : Word) : Option Operand := decodeOperand (mode2Field w) (addr2Field w)

/-! ## The encoder's word (R92) -/

/-- No instruction has more than two operands (R89). -/
theorem Instr.operands_cases (i : Instr) :
    i.operands = [] ∨ (∃ o, i.operands = [o]) ∨ ∃ o1 o2, i.operands = [o1, o2] := by
  cases i
  case eop | ret => exact .inl rfl
  case mov | add | sub | mul | div | mod => exact .inr (.inr ⟨_, _, rfl⟩)
  all_goals exact .inr (.inl ⟨_, rfl⟩)

theorem encodeInstr_eq_packWord (i : Instr) : ∃ m1 a1 m2 a2, encodeInstr i = packWord (opcode i) m1 a1 m2 a2 := by
  unfold encodeInstr
  split <;> exact ⟨_, _, _, _, rfl⟩

theorem opField_encodeInstr (i : Instr) : opField (encodeInstr i) = opcode i := by
  obtain ⟨_, _, _, _, h⟩ := encodeInstr_eq_packWord i
  rw [h, opField_packWord]

/-- Only EOP has the opcode 0 (R82). -/
theorem opcode_eq_zero_iff (i : Instr) : opcode i = 0 ↔ i = .eop := by
  cases i <;> simp [opcode]

/-! ## The decoder as a relation (R93) -/

/-- The word's fields spell these operands, as many as there are. -/
inductive ReadsOperands (w : Word) : List (Role × Operand) → Prop where
  | nil : ReadsOperands w []
  | one {r : Role} {o : Operand} (h : operand1 w = some o) : ReadsOperands w [(r, o)]
  | two {r1 r2 : Role} {o1 o2 : Operand} (h1 : operand1 w = some o1) (h2 : operand2 w = some o2) :
    ReadsOperands w [(r1, o1), (r2, o2)]

/-- The opcodes that R83 reserves (log entry 16). -/
def reservedOpcodes : List Nat := [0x03, 0x04, 0x05, 0x06, 0x07, 0x0B, 0x0C, 0x0D, 0x0E, 0x0F, 0x17, 0x1F]

/-- What the opcode map answers on a word, by the word's fields. -/
inductive Spells (w : Word) : Decoded → Prop where
  | instr {i : Instr} (hop : opField w = opcode i) (hreads : ReadsOperands w i.operands) : Spells w (.instr i)
  | badOne (huse : (opField w).toNat ∈ usesOperandOne) (h1 : operand1 w = none) : Spells w (.badOperand 1)
  | badTwo {o : Operand} (huse : (opField w).toNat ∈ usesOperandTwo) (h1 : operand1 w = some o)
    (h2 : operand2 w = none) : Spells w (.badOperand 2)
  | unknown (hop : (opField w).toNat ∈ reservedOpcodes) : Spells w (.unknown (opField w).toNat)

theorem decodeOne_spells {w : Word} {build : Operand → Instr} (huse : (opField w).toNat ∈ usesOperandOne)
    (hop : ∀ o, opcode (build o) = opField w) (hops : ∀ o, ∃ r, (build o).operands = [(r, o)]) :
    Spells w (decodeOne w build) := by
  unfold decodeOne
  split
  case h_1 h1 => exact .badOne huse h1
  case h_2 o h1 =>
    obtain ⟨r, hr⟩ := hops o
    exact .instr (hop o).symm (hr ▸ .one h1)

theorem decodeTwo_spells {w : Word} {build : Operand → Operand → Instr} (huse1 : (opField w).toNat ∈ usesOperandOne)
    (huse2 : (opField w).toNat ∈ usesOperandTwo) (hop : ∀ o1 o2, opcode (build o1 o2) = opField w)
    (hops : ∀ o1 o2, ∃ r1 r2, (build o1 o2).operands = [(r1, o1), (r2, o2)]) : Spells w (decodeTwo w build) := by
  unfold decodeTwo
  split
  case h_1 h1 => exact .badOne huse1 h1
  case h_2 o1 h1 =>
    split
    case h_1 h2 => exact .badTwo huse2 h1 h2
    case h_2 o2 h2 =>
      obtain ⟨r1, r2, hr⟩ := hops o1 o2
      exact .instr (hop o1 o2).symm (hr ▸ .two h1 h2)

/-- SAID ONCE: what the opcode map answers. -/
theorem decodeByOpcode_spells (w : Word) : Spells w (decodeByOpcode w) := by
  have hlt : (opField w).toNat < 32 := (opField w).isLt
  unfold decodeByOpcode
  split
  case h_1 hop | h_13 hop => exact .instr (BitVec.eq_of_toNat_eq hop) .nil
  case h_21 => exact .unknown (by simp only [reservedOpcodes, List.mem_cons]; grind)
  case h_4 hop | h_7 hop | h_8 hop | h_9 hop | h_10 hop | h_11 hop =>
    exact decodeTwo_spells (by rw [hop]; decide) (by rw [hop]; decide)
      (fun _ _ => BitVec.eq_of_toNat_eq hop.symm) fun _ _ => ⟨_, _, rfl⟩
  all_goals
    next hop =>
    exact decodeOne_spells (by rw [hop]; decide) (fun _ => BitVec.eq_of_toNat_eq hop.symm) fun _ => ⟨_, rfl⟩

/-! ## From the instruction to its word and back -/

theorem operand1_packWord (op : BitVec 5) (m1 : BitVec 3) (a1 : BitVec 8) (m2 : BitVec 3) (a2 : BitVec 8) :
    operand1 (packWord op m1 a1 m2 a2) = decodeOperand m1 a1 := by
  rw [operand1, mode1Field_packWord, addr1Field_packWord]

theorem operand2_packWord (op : BitVec 5) (m1 : BitVec 3) (a1 : BitVec 8) (m2 : BitVec 3) (a2 : BitVec 8) :
    operand2 (packWord op m1 a1 m2 a2) = decodeOperand m2 a2 := by
  rw [operand2, mode2Field_packWord, addr2Field_packWord]

/-- The fields of the word of a well-formed instruction spell its operands. -/
theorem readsOperands_encodeInstr {i : Instr} (hwf : i.wf = true) : ReadsOperands (encodeInstr i) i.operands := by
  rcases i.operands_cases with h | ⟨o, h⟩ | ⟨o1, o2, h⟩
  · rw [h]; exact .nil
  · have ho : o.2.wf = true := by simpa [Instr.wf, h] using hwf
    simp only [encodeInstr, h]
    exact .one ((operand1_packWord ..).trans (decodeOperand_codes ho))
  · obtain ⟨ho1, ho2⟩ : o1.2.wf = true ∧ o2.2.wf = true := by simpa [Instr.wf, h] using hwf
    simp only [encodeInstr, h]
    exact .two ((operand1_packWord ..).trans (decodeOperand_codes ho1))
      ((operand2_packWord ..).trans (decodeOperand_codes ho2))

/-- The opcode map has every instruction at its own opcode. -/
theorem decodeByOpcode_eq_instr {w : Word} {i : Instr} (hop : opField w = opcode i)
    (hreads : ReadsOperands w i.operands) : decodeByOpcode w = .instr i := by
  unfold decodeByOpcode
  rw [hop]
  cases i
  case eop | ret => rfl
  case mov | add | sub | mul | div | mod =>
    obtain _ | _ | ⟨h1, h2⟩ := hreads
    simp [opcode, decodeTwo, h1, h2]
  all_goals
    obtain _ | ⟨h1⟩ := hreads
    simp [opcode, decodeOne, h1]

/-- The all-zero test of the decoder takes no word but EOP's from the opcode map. -/
theorem decode_of_opField_ne_zero {w : Word} (h : opField w ≠ 0) : decode w = decodeByOpcode w := by
  have hne : clearReserved w ≠ 0#32 := fun hzero => h (by rw [← (clearReserved_fields w).1, hzero]; decide)
  rw [decode, if_neg hne]

/-- Settles O44, by the opcode and the operand fields of the encoded word. -/
theorem decodeOfEncodeIsTheInstruction : Obligations.DecodeOfEncodeIsTheInstruction := by
  intro i hwf
  have hop := opField_encodeInstr i
  have hmap : decodeByOpcode (encodeInstr i) = .instr i := decodeByOpcode_eq_instr hop (readsOperands_encodeInstr hwf)
  refine ⟨hmap, ?_⟩
  split
  case isTrue heop => rw [heop]; decide
  case isFalse hne =>
    rw [decode_of_opField_ne_zero, hmap]
    rwa [hop, ne_eq, opcode_eq_zero_iff]

/-- The bits of a word that an opcode with no operand uses, with one, and with two, as the fields they are. -/
theorem and_opcodeMask (w : Word) : w &&& 0xF8000000#32 = packWord (opField w) 0 0 0 0 := by
  refine BitVec.eq_of_getLsbD_eq fun i hi => ?_
  simp only [packWord, opField, BitVec.getLsbD_append, BitVec.getLsbD_extractLsb', BitVec.getLsbD_and]
  interval_cases i <;> simp

theorem and_operand1Mask (w : Word) :
    w &&& 0xFFFF0000#32 = packWord (opField w) (mode1Field w) (addr1Field w) 0 0 := by
  refine BitVec.eq_of_getLsbD_eq fun i hi => ?_
  simp only [packWord, opField, mode1Field, addr1Field, BitVec.getLsbD_append, BitVec.getLsbD_extractLsb',
    BitVec.getLsbD_and]
  interval_cases i <;> simp

theorem and_operand2Mask (w : Word) :
    w &&& 0xFFFFFFE0#32 = packWord (opField w) (mode1Field w) (addr1Field w) (mode2Field w) (addr2Field w) :=
  clearReserved_eq_packWord w

/-- An instruction that a word spells fits its fields, and its own word has the bits it uses of that word. -/
theorem wf_and_encodeInstr_of_reads {w : Word} {i : Instr} (hop : opField w = opcode i)
    (hreads : ReadsOperands w i.operands) : i.wf = true ∧ encodeInstr i = w &&& usedBits i := by
  generalize hops : i.operands = ops at hreads
  cases hreads with
  | nil => simp [Instr.wf, encodeInstr, usedBits, hops, and_opcodeMask, hop]
  | one h =>
    obtain ⟨hwf, hm, ha⟩ := decodeOperand_eq_some h
    simp [Instr.wf, encodeInstr, usedBits, hops, and_operand1Mask, hop, hwf, hm, ha]
  | two h1 h2 =>
    obtain ⟨hwf1, hm1, ha1⟩ := decodeOperand_eq_some h1
    obtain ⟨hwf2, hm2, ha2⟩ := decodeOperand_eq_some h2
    simp [Instr.wf, encodeInstr, usedBits, hops, and_operand2Mask, hop, hwf1, hm1, ha1, hwf2, hm2, ha2]

theorem decodeByOpcode_of_decode_eq_instr {w : Word} {i : Instr} (h : decode w = .instr i) :
    decodeByOpcode w = .instr i := by
  unfold decode at h
  split at h
  · cases h
  · exact h

/-- Settles O45, by what the decoder has read where it answers an instruction. -/
theorem encodeOfDecodeKeepsTheUsedBits : Obligations.EncodeOfDecodeKeepsTheUsedBits := by
  intro w i h
  have hspells := decodeByOpcode_spells w
  rw [decodeByOpcode_of_decode_eq_instr h] at hspells
  obtain ⟨hop, hreads⟩ := hspells
  exact wf_and_encodeInstr_of_reads hop hreads

/-! ## Which words are refused (R83, R86, R89) -/

/-- The opcodes that use operand 1 are those of the instructions that have an operand. -/
theorem opcode_mem_usesOperandOne_iff (i : Instr) : (opcode i).toNat ∈ usesOperandOne ↔ i.operands ≠ [] := by
  cases i <;> simp [opcode, usesOperandOne, Instr.operands]

/-- The opcodes that use operand 2 are those of the instructions that have two operands. -/
theorem opcode_mem_usesOperandTwo_iff (i : Instr) : (opcode i).toNat ∈ usesOperandTwo ↔ i.operands.length = 2 := by
  cases i <;> simp [opcode, usesOperandTwo, Instr.operands]

theorem opcode_not_mem_reservedOpcodes (i : Instr) : (opcode i).toNat ∉ reservedOpcodes := by
  cases i <;> simp [opcode, reservedOpcodes]

theorem usesOperandTwo_subset : ∀ op ∈ usesOperandTwo, op ∈ usesOperandOne := by decide

theorem usesOperandOne_not_reserved : ∀ op ∈ usesOperandOne, op ∉ reservedOpcodes := by decide

/-- Where an instruction that has an operand is spelled, its operand 1 is. -/
theorem ReadsOperands.operand1_ne_none {w : Word} {ops : List (Role × Operand)} (h : ReadsOperands w ops)
    (hops : ops ≠ []) : operand1 w ≠ none := by
  cases h <;> simp_all

theorem ReadsOperands.operand2_ne_none {w : Word} {ops : List (Role × Operand)} (h : ReadsOperands w ops)
    (hops : ops.length = 2) : operand2 w ≠ none := by
  cases h <;> simp_all

theorem decodeByOpcode_eq_badOperand_one_iff (w : Word) :
    decodeByOpcode w = .badOperand 1 ↔ (opField w).toNat ∈ usesOperandOne ∧ operand1 w = none := by
  have hspells := decodeByOpcode_spells w
  generalize decodeByOpcode w = d at hspells
  constructor
  · rintro rfl
    cases hspells with
    | badOne huse h1 => exact ⟨huse, h1⟩
  · rintro ⟨huse, h1⟩
    cases hspells with
    | instr hop hreads =>
      exact absurd h1 (hreads.operand1_ne_none ((opcode_mem_usesOperandOne_iff _).mp (hop ▸ huse)))
    | badOne => rfl
    | badTwo _ h1' => cases h1.symm.trans h1'
    | unknown hop => exact absurd hop (usesOperandOne_not_reserved _ huse)

theorem decodeByOpcode_eq_badOperand_two_iff (w : Word) :
    decodeByOpcode w = .badOperand 2 ↔
      (opField w).toNat ∈ usesOperandTwo ∧ operand1 w ≠ none ∧ operand2 w = none := by
  have hspells := decodeByOpcode_spells w
  generalize decodeByOpcode w = d at hspells
  constructor
  · rintro rfl
    cases hspells with
    | badTwo huse h1 h2 => exact ⟨huse, by simp [h1], h2⟩
  · rintro ⟨huse, h1, h2⟩
    cases hspells with
    | instr hop hreads =>
      exact absurd h2 (hreads.operand2_ne_none ((opcode_mem_usesOperandTwo_iff _).mp (hop ▸ huse)))
    | badOne _ h1' => exact absurd h1' h1
    | badTwo => rfl
    | unknown hop => exact absurd hop (usesOperandOne_not_reserved _ (usesOperandTwo_subset _ huse))

/-- A word is refused for an operand by the opcode map alone. -/
theorem decode_eq_badOperand_iff (w : Word) (k : Nat) :
    decode w = .badOperand k ↔ decodeByOpcode w = .badOperand k := by
  by_cases hop : opField w = 0
  · have heop : decodeByOpcode w = .instr .eop := decodeByOpcode_eq_instr hop .nil
    rw [decode, heop]
    split <;> simp
  · rw [decode_of_opField_ne_zero hop]

/-- A word with a reserved opcode is read as that, whatever its other fields are. -/
theorem decode_of_reservedOpcode {w : Word} (h : (opField w).toNat ∈ reservedOpcodes) :
    decode w = .unknown (opField w).toNat := by
  have hne : opField w ≠ 0 := fun hzero => absurd h (by rw [hzero]; decide)
  rw [decode_of_opField_ne_zero hne]
  have hspells := decodeByOpcode_spells w
  generalize decodeByOpcode w = d at hspells
  cases hspells with
  | instr hop => exact absurd (hop ▸ h) (opcode_not_mem_reservedOpcodes _)
  | badOne huse => exact absurd h (usesOperandOne_not_reserved _ huse)
  | badTwo huse => exact absurd h (usesOperandOne_not_reserved _ (usesOperandTwo_subset _ huse))
  | unknown => rfl

/-! ## The reserved bits (R88) -/

theorem packWord_reserved_bits (op : BitVec 5) (m1 : BitVec 3) (a1 : BitVec 8) (m2 : BitVec 3) (a2 : BitVec 8) :
    packWord op m1 a1 m2 a2 &&& 0x0000001F#32 = 0#32 := by
  refine BitVec.eq_of_getLsbD_eq fun i hi => ?_
  simp only [packWord, BitVec.getLsbD_append, BitVec.getLsbD_and]
  interval_cases i <;> simp

theorem decode_clearReserved (w : Word) : decode (clearReserved w) = decode w := by
  have hidem : clearReserved (clearReserved w) = clearReserved w := by
    rw [clearReserved_eq_packWord w, clearReserved_packWord]
  obtain ⟨hop, hm1, ha1, hm2, ha2⟩ := clearReserved_fields w
  simp only [decode, hidem, decodeByOpcode, decodeOne, decodeTwo, hop, hm1, ha1, hm2, ha2]

end Sys2Proof

namespace Sys2Proof.Machine

/-! ## The step on a word that spells no instruction (R190, R195) -/

theorem step_of_fetch_ended {s : State} (hrunning : s.status = .running) (hfetch : fetch s = .ended) :
    step s = .next (haltWith .endOfProgram s) := by
  simp only [step, hrunning, hfetch]

theorem step_of_decode_unknown {s : State} {w : Word} {op : Nat} (hrunning : s.status = .running)
    (hfetch : fetch s = .word w) (hdecode : decode w = .unknown op) :
    step s = .next (takeFault (.reservedOpcode op) { s with ir := s.pc }) := by
  simp only [step, hrunning, hfetch, hdecode]

theorem step_of_decode_badOperand {s : State} {w : Word} {k : Nat} (hrunning : s.status = .running)
    (hfetch : fetch s = .word w) (hdecode : decode w = .badOperand k) :
    step s = .next (takeFault (.reservedOperand k) { s with ir := s.pc }) := by
  simp only [step, hrunning, hfetch, hdecode]

/-- Settles O46: the encoder writes the reserved bits as 0, and both the decoder and the fetch clear them first. -/
theorem reservedBitsAreIgnored : Obligations.ReservedBitsAreIgnored := by
  refine ⟨fun i => ?encoded, decode_clearReserved, fun s hrunning hsmall => ?fetched⟩
  case encoded =>
    obtain ⟨_, _, _, _, h⟩ := encodeInstr_eq_packWord i
    rw [h, packWord_reserved_bits]
  case fetched =>
    have hfetch : fetch s = .ended := fetch_eq_ended.mpr (.inr (.inr ((clearReserved_eq_zero_iff _).mpr hsmall)))
    exact step_of_fetch_ended hrunning hfetch

/-- Settles O48: the opcode decides which operands are looked at, and their fields which one is refused. -/
theorem reservedSubCodesFault : Obligations.ReservedSubCodesFault := by
  refine ⟨fun w => ⟨?one, ?two⟩, fun s w k hrunning hfetch hdecode => ?fetched⟩
  case one =>
    rw [decode_eq_badOperand_iff, decodeByOpcode_eq_badOperand_one_iff, decodeOperand_eq_none_iff]
  case two =>
    rw [decode_eq_badOperand_iff, decodeByOpcode_eq_badOperand_two_iff, ne_eq, decodeOperand_eq_none_iff,
      decodeOperand_eq_none_iff]
  case fetched => exact step_of_decode_badOperand hrunning hfetch hdecode

/-- Settles O47: no instruction has a reserved opcode, and no operand is looked at under one. -/
theorem reservedOpcodesFault : Obligations.ReservedOpcodesFault := by
  intro s w hrunning hfetch hop
  exact step_of_decode_unknown hrunning hfetch (decode_of_reservedOpcode hop)

/-- A word written out field by field is the encoding of an instruction that it decodes to. -/
theorem decode_eq_instr_of_encodeInstr_eq {w : Word} {i : Instr} (hw : encodeInstr i = w) (hwf : i.wf = true)
    (hne : i ≠ .eop) : decode w = .instr i := by
  obtain ⟨-, hdecode⟩ := decodeOfEncodeIsTheInstruction i hwf
  rw [← hw, hdecode, if_neg hne]

/-- Settles O49: the first six words are encodings, and the last has a reserved opcode. -/
theorem writtenOutWordsDecode : Obligations.WrittenOutWordsDecode := by
  refine ⟨?add, ?mov, ?div, ?jeq, ?scan, ?ret, ?reserved⟩
  case reserved => exact decode_of_reservedOpcode (by decide)
  all_goals exact decode_eq_instr_of_encodeInstr_eq (by decide) (by decide) (by decide)

/-! ## Witnesses -/

theorem witness_decodeOfEncodeIsTheInstruction :
    decode (encodeInstr (.div (.indexed2 255) (.autoInc 63))) = .instr (.div (.indexed2 255) (.autoInc 63)) :=
  (decodeOfEncodeIsTheInstruction (.div (.indexed2 255) (.autoInc 63)) (by decide)).2

/-- `MOV R1 #5` with reserved bits set, and `POP -R63` with an operand 2 that POP does not use. -/
theorem witness_encodeOfDecodeKeepsTheUsedBits :
    encodeInstr (.mov (.reg 1) (.imm 5)) = 0x410100BF#32 &&& 0xFFFFFFE0#32 ∧
    encodeInstr (.pop (.autoDec 63)) = 0x57BFE060#32 &&& 0xFFFF0000#32 :=
  ⟨(encodeOfDecodeKeepsTheUsedBits 0x410100BF#32 _ (by decide)).2,
    (encodeOfDecodeKeepsTheUsedBits 0x57BFE060#32 _ (by decide)).2⟩

/-- The reset state with nothing but reserved bits in the word to fetch. -/
theorem witness_reservedBitsAreIgnored :
    step (State.reset.withFetchWord 32 0x0000001F) =
      .next { State.reset.withFetchWord 32 0x0000001F with status := .halted .endOfProgram } := by
  obtain ⟨-, -, hstep⟩ := reservedBitsAreIgnored
  exact hstep _ rfl (by decide)

/-- Opcode 3 with operand fields that are not zero. -/
theorem witness_reservedOpcodesFault :
    step (State.reset.withFetchWord 32 0x1801FFE0) = .next { State.reset.withFetchWord 32 0x1801FFE0 with
      status := .faulted .unknownOpcodeFault .reservedOpcode 0, diag := [{ cause := .reservedOpcode 3, pc := 0 }] } :=
  reservedOpcodesFault _ 0x1801FFE0#32 rfl (by decide) (by decide)

/-- MOV with a reserved sub-code in operand 2, and the same field under PUSH, which does not use it. -/
theorem witness_reservedSubCodesFault :
    decode 0x4101E060#32 = .badOperand 2 ∧ decode 0x4900E060#32 ≠ .badOperand 2 ∧
    step (State.reset.withFetchWord 32 0x4101E060) = .next { State.reset.withFetchWord 32 0x4101E060 with
      status := .faulted .unknownOpcodeFault .reservedOperand 0,
      diag := [{ cause := .reservedOperand 2, pc := 0 }] } := by
  obtain ⟨hword, hstep⟩ := reservedSubCodesFault
  have hused : decode 0x4101E060#32 = .badOperand 2 :=
    (hword _).2.mpr ⟨by decide, by unfold reservedSub; decide, by unfold reservedSub; decide⟩
  have hunused : (opField 0x4900E060#32).toNat ∉ usesOperandTwo := by decide
  exact ⟨hused, fun h => hunused ((hword _).2.mp h).1, hstep _ _ 2 rfl (by decide) hused⟩

end Sys2Proof.Machine
end

-- The loader (70_reset_and_hazards.md R332, 30_encoding.md R106).
section
/-! SUPPORT. What each slot holds after the image and after the program are placed, and the obligation O59 that rests
on it. -/

namespace Sys2Proof.Machine

/-! ## The image's words (R332 item 1) -/

theorem placeWords_within {n : Nat} {ws : List (Nat × Word)} {m : Memory} (hm : m.within n)
    (hws : ∀ c ∈ ws, c.1 < n) : (placeWords ws m).within n := by
  induction ws generalizing m with
  | nil => exact hm
  | cons c ws ih =>
    obtain ⟨hc, hrest⟩ := List.forall_mem_cons.mp hws
    exact ih (writeSlot_within hm hc _) hrest

/-- A slot that no word is for keeps what it held. -/
theorem readSlot_placeWords_of_not_mem {ws : List (Nat × Word)} {m : Memory} (hm : m.wf) {a : Nat}
    (ha : ∀ c ∈ ws, c.1 ≠ a) : readSlot (placeWords ws m) a = readSlot m a := by
  induction ws generalizing m with
  | nil => rfl
  | cons c ws ih =>
    obtain ⟨hc, hrest⟩ := List.forall_mem_cons.mp ha
    rw [placeWords, ih (writeSlot_wf hm _ _) hrest, readSlot_writeSlot hm, if_neg hc.symm]

/-- A slot that one word is for holds that word. -/
theorem readSlot_placeWords_of_mem {ws : List (Nat × Word)} {m : Memory} (hm : m.wf)
    (hnodup : (ws.map Prod.fst).Nodup) {a : Nat} {w : Word} (haw : (a, w) ∈ ws) : readSlot (placeWords ws m) a = w := by
  induction ws generalizing m with
  | nil => cases haw
  | cons c ws ih =>
    have hm' := writeSlot_wf hm c.1 c.2
    obtain ⟨hfresh, hrest⟩ := List.nodup_cons.mp hnodup
    rcases List.mem_cons.mp haw with rfl | haw
    · have hlater : ∀ d ∈ ws, d.1 ≠ a := fun d hd he => hfresh (List.mem_map.mpr ⟨d, hd, he⟩)
      rw [placeWords, readSlot_placeWords_of_not_mem hm' hlater, readSlot_writeSlot hm, if_pos rfl]
    · exact ih hm' hrest haw

/-! ## The program's words (R332 item 2) -/

theorem placeProgram_within {n base : Nat} {ws : List Word} {m : Memory} (hm : m.within n)
    (hfits : base + ws.length ≤ n) : (placeProgram base ws m).within n := by
  induction ws generalizing m base with
  | nil => exact hm
  | cons w ws ih =>
    rw [List.length_cons] at hfits
    exact ih (writeSlot_within hm (by omega) w) (by omega)

/-- A slot outside the program keeps what it held. -/
theorem readSlot_placeProgram_of_outside {base : Nat} {ws : List Word} {m : Memory} (hm : m.wf) {a : Nat}
    (ha : a < base ∨ base + ws.length ≤ a) : readSlot (placeProgram base ws m) a = readSlot m a := by
  induction ws generalizing m base with
  | nil => rfl
  | cons w ws ih =>
    rw [List.length_cons] at ha
    rw [placeProgram, ih (writeSlot_wf hm _ _) (by omega), readSlot_writeSlot hm, if_neg (by omega)]

/-- The program's words stand one after the other. -/
theorem readSlot_placeProgram {base : Nat} {ws : List Word} {m : Memory} (hm : m.wf) {k : Nat} {w : Word}
    (hk : ws[k]? = some w) : readSlot (placeProgram base ws m) (base + k) = w := by
  induction ws generalizing m base k with
  | nil => cases hk
  | cons c ws ih =>
    have hm' := writeSlot_wf hm base c
    cases k with
    | zero =>
      cases hk
      rw [placeProgram, readSlot_placeProgram_of_outside hm' (by omega), readSlot_writeSlot hm,
        if_pos (Nat.add_zero base)]
    | succ k =>
      have hslot : base + (k + 1) = base + 1 + k := by omega
      rw [placeProgram, hslot]
      exact ih hm' hk

/-! ## The loader -/

/-- What the loader accepts, and the state it then leaves. -/
theorem load_eq_some_iff {p : Params} {image : List (Nat × Word)} {program : List Word} {s : State} :
    load p image program = some s ↔
      (p.Ok ∧ (∀ c ∈ image, c.1 < p.nmem) ∧ program.length ≤ p.nmem - p.codeBase) ∧
      s = { State.resetWith p with
        mem := placeProgram p.codeBase program (placeWords image [])
        launch := { (State.resetWith p).launch with codeEnd := p.codeBase + program.length } } := by
  unfold load
  split
  case isTrue h => exact ⟨fun e => ⟨h, (Option.some.inj e).symm⟩, fun e => e.2 ▸ rfl⟩
  case isFalse h => exact ⟨nofun, fun e => absurd e.1 h⟩

/-- Memory may be any canonical memory within the address space, and `CODE_END` any address up to NMEM. -/
theorem Inv.loaded {s : State} (h : Inv s) {m : Memory} (hm : m.wf) (hin : m.within s.launch.nmem) {codeEnd : Nat}
    (hend : codeEnd ≤ s.launch.nmem) : Inv { s with mem := m, launch := { s.launch with codeEnd := codeEnd } } :=
  { h with launch := { h.launch with codeEnd_le := hend }, mem_wf := hm, mem_within := hin }

/-- Settles O59, by what each slot holds after the image is placed and after the program is placed over it. -/
theorem loadPlacesTheProgram : Obligations.LoadPlacesTheProgram := by
  intro p image program s hload
  obtain ⟨⟨hp, himage, hlength⟩, rfl⟩ := load_eq_some_iff.mp hload
  have hcode : p.codeBase < p.nmem := hp.2.2.1
  have hend : p.codeBase + program.length ≤ p.nmem := by omega
  have hempty : Memory.wf [] := resetWith_mem_wf p
  have hplaced : (placeWords image []).wf := placeWords_wf image hempty
  refine ⟨?inv, rfl, rfl, rfl, fun k w hk => ?program, fun hnodup a w haw hout => ?image, fun a ha hout => ?untouched⟩
  case inv =>
    have hin : (placeWords image []).within p.nmem := placeWords_within (by simp) himage
    exact (resetWith_inv hp).loaded (placeProgram_wf program _ hplaced) (placeProgram_within hin hend) hend
  case program => exact readSlot_placeProgram hplaced hk
  case image =>
    exact (readSlot_placeProgram_of_outside hplaced hout).trans (readSlot_placeWords_of_mem hempty hnodup haw)
  case untouched =>
    calc readSlot (placeProgram p.codeBase program (placeWords image [])) a
      _ = readSlot (placeWords image []) a := readSlot_placeProgram_of_outside hplaced hout
      _ = readSlot [] a := readSlot_placeWords_of_not_mem hempty ha
      _ = 0#32 := readSlot_nil a

/-! ## A witness -/

/-- An image of two slots. -/
def twoSlots : List (Nat × Word) := [(0, 0x40400000#32), (1, 0x3FC00000#32)]

/-- A program of one word lies over the first slot of the image, and the second is just past it. -/
theorem witness_loadPlacesTheProgram :
    ∃ s, load Params.default twoSlots [0x410E0000#32] = some s ∧ Inv s ∧
      readSlot s.mem 0 = 0x410E0000#32 ∧ readSlot s.mem 1 = 0x3FC00000#32 ∧ readSlot s.mem 2 = 0#32 := by
  obtain ⟨s, hload⟩ : ∃ s, load Params.default twoSlots [0x410E0000#32] = some s :=
    ⟨_, load_eq_some_iff.mpr ⟨by decide, rfl⟩⟩
  obtain ⟨hinv, -, -, -, hprogram, himage, hrest⟩ := loadPlacesTheProgram _ _ _ _ hload
  exact ⟨s, hload, hinv, hprogram 0 _ rfl, himage (by decide) 1 _ (by decide) (by decide),
    hrest 2 (by decide) (by decide)⟩

end Sys2Proof.Machine
end

-- The assembler's and the disassembler's text (30_encoding.md, section 5).
section
/-! SUPPORT. The canonical text of decimal numbers and operands, read back by the assembler, and the obligation O60 that
rests on it. -/

namespace Sys2Proof.Machine

/-! ## Decimal numbers -/

theorem isDigit_of_mem_renderDec {n : Nat} {c : Char} (h : c ∈ renderDec n) : c.isDigit = true :=
  Nat.isDigit_of_mem_toDigits (by decide) (by decide) h

/-- A number's text begins with a digit. -/
theorem renderDec_eq_cons (n : Nat) : ∃ c ds, renderDec n = c :: ds ∧ c.isDigit = true := by
  obtain ⟨c, ds, h⟩ := List.exists_cons_of_ne_nil (Nat.toDigits_ne_nil (b := 10) (n := n))
  have hmem : c ∈ Nat.toDigits 10 n := by rw [h]; exact List.mem_cons_self
  exact ⟨c, ds, h, isDigit_of_mem_renderDec hmem⟩

/-- Reading digit after digit gives the number that the digits stand for. -/
theorem foldl_digitStep {ds : Token} (hds : ∀ c ∈ ds, c.isDigit = true) (acc : Nat) :
    ds.foldl digitStep (some acc) = some (Nat.ofDigitChars 10 ds acc) := by
  induction ds generalizing acc with
  | nil => rfl
  | cons c ds ih =>
    obtain ⟨hc, hrest⟩ := List.forall_mem_cons.mp hds
    rw [List.foldl_cons, digitStep, if_pos hc, ih hrest, Nat.ofDigitChars_cons]

/-- A number's text reads back as the number. -/
@[simp] theorem parseDec_renderDec (n : Nat) : parseDec (renderDec n) = some n := by
  obtain ⟨c, ds, hcons, -⟩ := renderDec_eq_cons n
  calc parseDec (renderDec n)
    _ = (renderDec n).foldl digitStep (some 0) := by rw [hcons]; rfl
    _ = some (Nat.ofDigitChars 10 (renderDec n) 0) := foldl_digitStep (fun _ => isDigit_of_mem_renderDec) 0
    _ = some n := congrArg some (Nat.ofDigitChars_toDigits (by decide) (by decide))

/-- A number's text is no register name. -/
@[simp] theorem parseRn_renderDec (n : Nat) : parseRn (renderDec n) = none := by
  obtain ⟨c, ds, hcons, hc⟩ := renderDec_eq_cons n
  have hR : c ≠ 'R' := by rintro rfl; cases hc
  rw [hcons, parseRn]
  rintro ds' h
  exact hR (List.cons.inj h).1

@[simp] theorem parseRn_R_renderDec (n : Nat) : parseRn ('R' :: renderDec n) = some n := parseDec_renderDec n

theorem getLast?_R_renderDec (n : Nat) : ('R' :: renderDec n).getLast? ≠ some '+' := by
  intro h
  rcases List.mem_cons.mp (List.mem_of_getLast? h) with h | h
  · cases h
  · cases isDigit_of_mem_renderDec h

/-! ## Operands (R102, R107) -/

theorem fitting_of_lt {bound n : Nat} (h : n < bound) : fitting bound n = .ok n := if_pos h

/-- The tokens are one written operand, whatever follows them, and it reads as `o`. -/
def ReadsBack (p : Params) (syms : Symbols) (ts : List Token) (o : Operand) : Prop :=
  ∃ x, (∀ rest, splitOperands (ts ++ rest) = x :: splitOperands rest) ∧ parseOperandText p syms x = .ok o

theorem splitOperands_single {t : Token} (h1 : t ≠ "INDX1".toList) (h2 : t ≠ "INDX2".toList) (rest : List Token) :
    splitOperands (t :: rest) = .single t :: splitOperands rest := by
  cases rest with
  | nil => rfl
  | cons u rest => rw [splitOperands, if_neg h1, if_neg h2]

theorem readsBack_single {p : Params} {syms : Symbols} {t : Token} {o : Operand}
    (hhead : t.head? ≠ some 'I') (hparse : parseOperand p syms t = .ok o) : ReadsBack p syms [t] o := by
  refine ⟨.single t, splitOperands_single ?_ ?_, hparse⟩
  · rintro rfl; exact hhead rfl
  · rintro rfl; exact hhead rfl

theorem parseAddress_renderDec {n : Nat} (h : n < 256) (syms : Symbols) : parseAddress syms (renderDec n) = .ok n := by
  rw [parseAddress, parseDec_renderDec]
  exact fitting_of_lt h

theorem parseSlot_renderDec {n : Nat} (h : n < 256) (syms : Symbols) : parseSlot syms (renderDec n) = .ok n := by
  rw [parseSlot, parseRn_renderDec]
  exact parseAddress_renderDec h syms

theorem parseReg_renderDec (p : Params) (n : Nat) : parseReg p ('R' :: renderDec n) = some n := by
  rw [parseReg, if_neg (by simp), if_neg (by simp), parseRn_R_renderDec]

/-- `Rn` is neither a stack pseudo-operand nor `Rn+`. -/
theorem parseBare_reg {n : Nat} (h : n < 256) (p : Params) (syms : Symbols) :
    parseBare p syms ('R' :: renderDec n) = .ok (.reg n) := by
  rw [parseBare, if_neg (by simp), if_neg (by simp), if_neg (by simp), if_neg (getLast?_R_renderDec n),
    parseReg_renderDec]
  simp only [fitting_of_lt h, withNumber]

theorem parseBare_autoInc {n : Nat} (h : n < 64) (p : Params) (syms : Symbols) :
    parseBare p syms (('R' :: renderDec n) ++ ['+']) = .ok (.autoInc n) := by
  rw [parseBare, if_neg (by simp), if_neg (by simp), if_neg (by simp), if_pos List.getLast?_concat,
    List.dropLast_concat, parseRn_R_renderDec]
  simp only [withOption, fitting_of_lt h, withNumber]

/-- The canonical spelling of an operand reads back as the operand: its sigil, or the lack of one, tells the mode. -/
theorem renderOperand_readsBack {o : Operand} (hwf : o.wf = true) (p : Params) (syms : Symbols) :
    ReadsBack p syms (renderOperand o) o := by
  cases o
  case top | push | pop => exact readsBack_single (by decide) rfl
  case reg n => exact readsBack_single (by simp) (parseBare_reg (of_decide_eq_true hwf) p syms)
  case autoInc n => exact readsBack_single (by simp) (parseBare_autoInc (of_decide_eq_true hwf) p syms)
  case imm n | regInd n | autoDec n =>
    have hfits := fitting_of_lt (of_decide_eq_true hwf)
    exact readsBack_single (by simp) (by simp [parseOperand, parseReg_renderDec, withOption, hfits, withNumber])
  case direct a | indirect a =>
    have hslot := parseSlot_renderDec (of_decide_eq_true hwf) syms
    exact readsBack_single (by simp) (by simp only [parseOperand, hslot, withNumber])
  case indexed1 d | indexed2 d =>
    have hbase := parseAddress_renderDec (of_decide_eq_true hwf) syms
    exact ⟨_, fun _ => rfl, by simp only [parseOperandText, hbase, withNumber]⟩

/-- The canonical text of any number of operands is as many written operands, and they read as those. -/
theorem parse_renderOperands {os : List Operand} (hwf : ∀ o ∈ os, o.wf = true) (p : Params) (syms : Symbols) :
    (splitOperands (os.flatMap renderOperand)).length = os.length ∧
      parseOperands p syms (splitOperands (os.flatMap renderOperand)) = .ok os := by
  induction os with
  | nil => exact ⟨rfl, rfl⟩
  | cons o os ih =>
    obtain ⟨ho, hos⟩ := List.forall_mem_cons.mp hwf
    obtain ⟨x, hsplit, hparse⟩ := renderOperand_readsBack ho p syms
    obtain ⟨hlength, hrest⟩ := ih hos
    rw [List.flatMap_cons, hsplit]
    exact ⟨by simp [hlength], by rw [parseOperands, hparse, hrest, consOperand]⟩

/-! ## Mnemonics (R82, R101) -/

theorem mnemonicOf_name (mn : Mnemonic) : mnemonicOf mn.name = some mn := by
  cases mn <;> decide

/-- The mnemonic at an instruction's opcode takes the instruction's operands and builds it from them. -/
theorem mnemonic_of_opcode (i : Instr) : ∃ mn, mnemonicOfOpcode (opcode i).toNat = some mn ∧
    mn.count = i.operands.length ∧ buildInstr mn (i.operands.map Prod.snd) = some i := by
  cases i <;> exact ⟨_, rfl, rfl, rfl⟩

/-! ## Disassembly (R107) -/

/-- The field pair of an operand that the opcode takes, and that of an operand it does not have. -/
theorem renderField_codes {o : Operand} (hwf : o.wf = true) :
    renderField true (modeCode o) (addrCode o) = some (renderOperand o) := by
  rw [renderField, if_neg (by simp), decodeOperand_codes hwf]; rfl

theorem renderField_unused : renderField false 0#3 0#8 = some [] := rfl

/-- The canonical text of an instruction's word is its mnemonic and the spelling of its operands. -/
theorem disassemble_encodeInstr {i : Instr} (hwf : i.wf = true) {mn : Mnemonic}
    (hmn : mnemonicOfOpcode (opcode i).toNat = some mn) (hcount : mn.count = i.operands.length) :
    disassemble (encodeInstr i) = some (mn.name :: (i.operands.map Prod.snd).flatMap renderOperand) := by
  simp only [disassemble, opField_encodeInstr, hmn, hcount]
  rcases i.operands_cases with h | ⟨o, h⟩ | ⟨o1, o2, h⟩
  · simp [h, encodeInstr, mode1Field_packWord, addr1Field_packWord, mode2Field_packWord, addr2Field_packWord,
      renderField_unused]
  · have ho : o.2.wf = true := by simpa [Instr.wf, h] using hwf
    simp [h, encodeInstr, mode1Field_packWord, addr1Field_packWord, mode2Field_packWord, addr2Field_packWord,
      renderField_unused, renderField_codes ho]
  · obtain ⟨ho1, ho2⟩ : o1.2.wf = true ∧ o2.2.wf = true := by simpa [Instr.wf, h] using hwf
    simp [h, encodeInstr, mode1Field_packWord, addr1Field_packWord, mode2Field_packWord, addr2Field_packWord,
      renderField_codes ho1, renderField_codes ho2]

/-- Settles O60: the disassembler writes the mnemonic and the spelling of each operand, and the assembler reads each
back. -/
theorem assembleOfDisassembleIsTheWord : Obligations.AssembleOfDisassembleIsTheWord := by
  intro p syms i hwf
  obtain ⟨mn, hmn, hcount, hbuild⟩ := mnemonic_of_opcode i
  refine ⟨_, _, disassemble_encodeInstr hwf hmn hcount, ?_⟩
  have hops : ∀ o ∈ i.operands.map Prod.snd, o.wf = true := by
    rw [List.forall_mem_map]; exact List.all_eq_true.mp hwf
  obtain ⟨hlength, hparse⟩ := parse_renderOperands hops p syms
  simp [assembleInstr, mnemonicOf_name, hlength, hcount, hparse, hbuild]

/-! ## A witness -/

/-- The largest register number of `-Rn` and the largest displacement, with no symbol at hand. -/
theorem witness_assembleOfDisassembleIsTheWord :
    ∃ m ops, disassemble 0xA7BFBFE0#32 = some (m :: ops) ∧ assembleInstr Params.default [] m ops = .ok 0xA7BFBFE0#32 :=
  assembleOfDisassembleIsTheWord Params.default [] (.mod (.autoDec 63) (.indexed1 255)) (by decide)

end Sys2Proof.Machine
end

-- The numeric codec (40_numeric_codec.md).
section
/-! SUPPORT. The exponent as the integer logarithm, the extraction loop as a floor, the number that an encoded word is
worth, and the obligations O38 to O43 that rest on them. -/

namespace Sys2Proof.Machine

/-! ## The exponent (R133) -/

/-- The bit lengths of numerator and denominator give the exponent to within one, so that one comparison settles it. -/
theorem zpow_log2_sub_log2_bounds {a : Number} (ha : 0 < a) :
    (2 : Rat) ^ ((a.num.natAbs.log2 : Int) - a.den.log2 - 1) ≤ a ∧
      a < (2 : Rat) ^ ((a.num.natAbs.log2 : Int) - a.den.log2 + 1) := by
  have hnum : a.num.natAbs ≠ 0 := Int.natAbs_ne_zero.mpr (Rat.num_pos.mpr ha).ne'
  have hn1 : (2 : Rat) ^ a.num.natAbs.log2 ≤ a.num.natAbs := by exact_mod_cast Nat.log2_self_le hnum
  have hn2 : (a.num.natAbs : Rat) < 2 ^ (a.num.natAbs.log2 + 1) := by exact_mod_cast Nat.lt_log2_self
  have hd1 : (2 : Rat) ^ a.den.log2 ≤ a.den := by exact_mod_cast Nat.log2_self_le a.den_nz
  have hd2 : (a.den : Rat) < 2 ^ (a.den.log2 + 1) := by exact_mod_cast Nat.lt_log2_self
  have hd : (0 : Rat) < a.den := by exact_mod_cast a.den_pos
  have hquot : a = a.num.natAbs / a.den := by
    rw [Nat.cast_natAbs, abs_of_pos (Rat.num_pos.mpr ha), Rat.num_div_den]
  have hlo : (2 : Rat) ^ ((a.num.natAbs.log2 : Int) - a.den.log2 - 1) =
      2 ^ a.num.natAbs.log2 / 2 ^ (a.den.log2 + 1) := by
    rw [sub_sub, zpow_sub₀ two_ne_zero]; norm_cast
  have hhi : (2 : Rat) ^ ((a.num.natAbs.log2 : Int) - a.den.log2 + 1) =
      2 ^ (a.num.natAbs.log2 + 1) / 2 ^ a.den.log2 := by
    rw [sub_add_eq_add_sub, zpow_sub₀ two_ne_zero]; norm_cast
  rw [hlo, hhi]
  constructor
  · calc _ ≤ (a.num.natAbs : Rat) / a.den := by gcongr
      _ = a := hquot.symm
  · calc a = (a.num.natAbs : Rat) / a.den := hquot
      _ < _ := by gcongr

theorem zpow_floorLog2_le {a : Number} (ha : 0 < a) : (2 : Rat) ^ floorLog2 a ≤ a := by
  unfold floorLog2
  dsimp only
  split
  · assumption
  · exact (zpow_log2_sub_log2_bounds ha).1

theorem lt_zpow_floorLog2_add_one {a : Number} (ha : 0 < a) : a < (2 : Rat) ^ (floorLog2 a + 1) := by
  unfold floorLog2
  dsimp only
  split
  case isTrue => exact (zpow_log2_sub_log2_bounds ha).2
  case isFalse h => rw [sub_add_cancel]; exact not_le.mp h

theorem zpow_le_iff_le_floorLog2 {a : Number} (ha : 0 < a) {e : Int} : (2 : Rat) ^ e ≤ a ↔ e ≤ floorLog2 a := by
  constructor
  · intro h
    exact Int.lt_add_one_iff.mp
      ((zpow_lt_zpow_iff_right₀ one_lt_two).mp (h.trans_lt (lt_zpow_floorLog2_add_one ha)))
  · intro h
    exact (zpow_le_zpow_right₀ one_le_two h).trans (zpow_floorLog2_le ha)

theorem lt_zpow_iff_floorLog2_lt {a : Number} (ha : 0 < a) {e : Int} : a < (2 : Rat) ^ e ↔ floorLog2 a < e := by
  simpa only [not_le] using not_congr (zpow_le_iff_le_floorLog2 ha)

theorem eq_floorLog2 {a : Number} {e : Int} (hlo : (2 : Rat) ^ e ≤ a) (hhi : a < (2 : Rat) ^ (e + 1)) :
    e = floorLog2 a := by
  have ha : 0 < a := (zpow_pos two_pos e).trans_le hlo
  have h1 := (zpow_le_iff_le_floorLog2 ha).mp hlo
  have h2 := (lt_zpow_iff_floorLog2_lt ha).mp hhi
  omega

/-- Settles O39. -/
theorem floorLog2IsTheUniqueExponent : Obligations.FloorLog2IsTheUniqueExponent :=
  fun _ ha => ⟨zpow_floorLog2_le ha, lt_zpow_floorLog2_add_one ha, fun _ => eq_floorLog2⟩

/-! ## The fraction (R134) -/

/-- The loop shifts the bits it is given and puts the truncated fraction below them: each round doubles the fraction and
moves its integer part over. -/
theorem extractBits_eq_floor (n : Nat) {m : Number} (h0 : 0 ≤ m) (h1 : m < 1) (F : Nat) :
    (extractBits n m F : Int) = F * 2 ^ n + ⌊m * 2 ^ n⌋ := by
  induction n generalizing m F with
  | zero =>
    have hm : ⌊m⌋ = 0 := Int.floor_eq_zero_iff.mpr ⟨h0, h1⟩
    simp [extractBits, hm]
  | succ k ih =>
    have hdouble : m * 2 ^ (k + 1) = 2 * m * 2 ^ k := by ring
    rw [extractBits, hdouble]
    split
    case isTrue hbit =>
      have hcarry : 2 * m * 2 ^ k = (2 * m - 1) * 2 ^ k + ((2 ^ k : Int) : Rat) := by push_cast; ring
      rw [ih (by linarith) (by linarith), hcarry, Int.floor_add_intCast]
      push_cast; ring
    case isFalse hbit =>
      rw [ih (by linarith) (by linarith)]
      push_cast; ring

theorem extractBits23_eq_floor {m : Number} (h0 : 0 ≤ m) (h1 : m < 1) : (extractBits23 m : Int) = ⌊m * 2 ^ 23⌋ := by
  rw [extractBits23, extractBits_eq_floor 23 h0 h1]; simp

theorem extractBits23_lt {m : Number} (h0 : 0 ≤ m) (h1 : m < 1) : extractBits23 m < 2 ^ 23 := by
  have h : ⌊m * 2 ^ 23⌋ < 2 ^ 23 := Int.floor_lt.mpr (by push_cast; linarith)
  rw [← extractBits23_eq_floor h0 h1] at h
  exact_mod_cast h

/-- What is left of a magnitude once the exponent is divided out, and the leading 1 dropped, is a fraction. -/
theorem div_zpow_sub_one_mem {a : Number} {e : Int} (hlo : (2 : Rat) ^ e ≤ a) (hhi : a < (2 : Rat) ^ (e + 1)) :
    0 ≤ a / (2 : Rat) ^ e - 1 ∧ a / (2 : Rat) ^ e - 1 < 1 := by
  have hpos : (0 : Rat) < 2 ^ e := zpow_pos two_pos e
  rw [zpow_add_one₀ two_ne_zero] at hhi
  have h1 : 1 ≤ a / 2 ^ e := (one_le_div hpos).mpr hlo
  have h2 : a / 2 ^ e < 2 := (div_lt_iff₀ hpos).mpr (by linarith)
  constructor <;> linarith

/-! ## The word of a number (R132) -/

/-- The word that the encoder packs for a number with exponent `e`. -/
def packed (v : Number) (e : Int) : Word :=
  packFields (signBit v) (BitVec.ofInt 8 (e + bias)) (BitVec.ofNat 23 (extractBits23 (|v| / (2 : Rat) ^ e - 1)))

@[simp] theorem signField_packed (v : Number) (e : Int) : signField (packed v e) = signBit v := signField_packFields ..

theorem exponentField_packed (v : Number) {e : Int} (h0 : 0 ≤ e + bias) (h255 : e + bias ≤ 255) :
    ((exponentField (packed v e)).toNat : Int) = e + bias := by
  rw [packed, exponentField_packFields, BitVec.toNat_ofInt]
  omega

theorem fractionField_packed {v : Number} {e : Int} (hlo : (2 : Rat) ^ e ≤ |v|) (hhi : |v| < (2 : Rat) ^ (e + 1)) :
    ((fractionField (packed v e)).toNat : Int) = ⌊(|v| / (2 : Rat) ^ e - 1) * 2 ^ 23⌋ := by
  obtain ⟨h0, h1⟩ := div_zpow_sub_one_mem hlo hhi
  rw [packed, fractionField_packFields, BitVec.toNat_ofNat, Nat.mod_eq_of_lt (extractBits23_lt h0 h1),
    extractBits23_eq_floor h0 h1]

theorem encode_zero : encode 0 = .word 0x00000000#32 := if_pos rfl

/-- A number that is not 0 encodes by its exponent alone, whose field must hold it. -/
theorem encode_of_ne_zero {v : Number} (hv : v ≠ 0) :
    encode v = if 255 < floorLog2 |v| + bias then .fault .overflow
      else if floorLog2 |v| + bias < 0 then .fault .underflow else .word (packed v (floorLog2 |v|)) :=
  if_neg hv

theorem encode_eq_overflow_iff {v : Number} (hv : v ≠ 0) :
    encode v = .fault .overflow ↔ 255 < floorLog2 |v| + bias := by
  rw [encode_of_ne_zero hv]
  split_ifs <;> simp [*]

theorem encode_eq_underflow_iff {v : Number} (hv : v ≠ 0) :
    encode v = .fault .underflow ↔ floorLog2 |v| + bias < 0 := by
  rw [encode_of_ne_zero hv]
  split_ifs
  · simp; omega
  all_goals simp [*]

theorem encode_eq_word_iff {v : Number} (hv : v ≠ 0) {w : Word} :
    encode v = .word w ↔ (0 ≤ floorLog2 |v| + bias ∧ floorLog2 |v| + bias ≤ 255) ∧ w = packed v (floorLog2 |v|) := by
  rw [encode_of_ne_zero hv]
  split_ifs
  · simp; omega
  · simp; omega
  · rw [Encoded.word.injEq, eq_comm]
    exact (and_iff_right (by omega)).symm

/-- Settles O38. -/
theorem encodePacksSignExponentFraction : Obligations.EncodePacksSignExponentFraction := by
  refine ⟨encode_zero, fun v e hlo hhi h0 h255 => ⟨packed v e, ?word, ?sign, ?exponent, ?fraction⟩⟩
  case word =>
    have hv : v ≠ 0 := abs_pos.mp ((zpow_pos two_pos e).trans_le hlo)
    rw [encode_eq_word_iff hv, ← eq_floorLog2 hlo hhi]
    exact ⟨⟨h0, h255⟩, rfl⟩
  case sign => exact signField_packed v e
  case exponent => exact exponentField_packed v h0 h255
  case fraction => exact fractionField_packed hlo hhi

/-! ## The range (R135, R138) -/

/-- Settles O41: each bound on the exponent field is a bound on the magnitude. -/
theorem encodeFaultsOutsideItsRange : Obligations.EncodeFaultsOutsideItsRange := by
  intro v
  rcases eq_or_ne v 0 with rfl | hv
  · rw [encode_zero, abs_zero]
    simp
  · have ha : 0 < |v| := abs_pos.mpr hv
    have hbias : bias = 127 := rfl
    rw [zpow_le_iff_le_floorLog2 ha, zpow_le_iff_le_floorLog2 ha, lt_zpow_iff_floorLog2_lt ha,
      lt_zpow_iff_floorLog2_lt ha, encode_eq_overflow_iff hv, encode_eq_underflow_iff hv]
    refine ⟨by omega, by simp only [ne_eq, hv, not_false_eq_true, true_and]; omega, ?word⟩
    case word =>
      simp only [encode_eq_word_iff hv, exists_and_left, exists_eq, and_true, hv, false_or]
      omega

/-! ## What an encoded word is worth (R134, R136) -/

theorem wordValue_zero : wordValue 0x00000000#32 = 0 := if_pos rfl

/-- The magnitude of `v` with the fraction above `2 ^ e` truncated to 23 bits. -/
def truncated (v : Number) (e : Int) : Number :=
  (2 : Rat) ^ e * (1 + ⌊(|v| / (2 : Rat) ^ e - 1) * 2 ^ 23⌋ / 2 ^ 23)

theorem truncated_le (v : Number) (e : Int) : truncated v e ≤ |v| := by
  have hfloor := Int.floor_le ((|v| / (2 : Rat) ^ e - 1) * 2 ^ 23)
  calc truncated v e
    _ ≤ (2 : Rat) ^ e * (1 + (|v| / (2 : Rat) ^ e - 1) * 2 ^ 23 / 2 ^ 23) := by unfold truncated; gcongr
    _ = |v| := by field_simp; ring

/-- Truncation loses less than one unit of the last bit. -/
theorem lt_truncated_add (v : Number) (e : Int) : |v| < truncated v e + (2 : Rat) ^ e / 2 ^ 23 := by
  have hfloor := Int.lt_floor_add_one ((|v| / (2 : Rat) ^ e - 1) * 2 ^ 23)
  calc |v|
    _ = (2 : Rat) ^ e * (1 + (|v| / (2 : Rat) ^ e - 1) * 2 ^ 23 / 2 ^ 23) := by field_simp; ring
    _ < (2 : Rat) ^ e * (1 + (⌊(|v| / (2 : Rat) ^ e - 1) * 2 ^ 23⌋ + 1) / 2 ^ 23) := by gcongr
    _ = truncated v e + (2 : Rat) ^ e / 2 ^ 23 := by unfold truncated; ring

theorem truncated_nonneg {v : Number} {e : Int} (hlo : (2 : Rat) ^ e ≤ |v|) : 0 ≤ truncated v e := by
  have h1 : 1 ≤ |v| / (2 : Rat) ^ e := (one_le_div (zpow_pos two_pos e)).mpr hlo
  have h2 : 0 ≤ ⌊(|v| / (2 : Rat) ^ e - 1) * 2 ^ 23⌋ := Int.floor_nonneg.mpr (by linarith)
  have h3 : (0 : Rat) ≤ ⌊(|v| / (2 : Rat) ^ e - 1) * 2 ^ 23⌋ := by exact_mod_cast h2
  unfold truncated
  positivity

/-- A word other than the zero word is worth the truncated magnitude, with the number's sign. -/
theorem wordValue_of_encode {v : Number} (hv : v ≠ 0) {w : Word} (h : encode v = .word w) (hw : w ≠ 0x00000000#32) :
    wordValue w = (if v < 0 then -1 else 1) * truncated v (floorLog2 |v|) := by
  obtain ⟨⟨h0, h255⟩, rfl⟩ := (encode_eq_word_iff hv).mp h
  have ha : 0 < |v| := abs_pos.mpr hv
  have hsign : signBit v = 1 ↔ v < 0 := by unfold signBit; split_ifs <;> simp [*]
  have hexp := exponentField_packed v h0 h255
  have hfrac : ((fractionField (packed v (floorLog2 |v|))).toNat : Rat) =
      ⌊(|v| / (2 : Rat) ^ floorLog2 |v| - 1) * 2 ^ 23⌋ := by
    exact_mod_cast congrArg (Int.cast : Int → Rat)
      (fractionField_packed (zpow_floorLog2_le ha) (lt_zpow_floorLog2_add_one ha))
  rw [wordValue, if_neg hw, hexp, hfrac, signField_packed, add_sub_cancel_right, mul_assoc, truncated]
  simp only [hsign]

/-- Settles O40. -/
theorem fractionExtractionTruncates : Obligations.FractionExtractionTruncates := by
  refine ⟨fun m => extractBits23_eq_floor, fun v w h => ?_⟩
  by_cases hw : w = 0x00000000#32
  · subst hw; simp [wordValue_zero]
  have hv : v ≠ 0 := by
    rintro rfl
    exact hw (Encoded.word.inj (encode_zero.symm.trans h)).symm
  have hle := truncated_le v (floorLog2 |v|)
  have hnonneg := truncated_nonneg (zpow_floorLog2_le (abs_pos.mpr hv))
  rw [wordValue_of_encode hv h hw]
  split_ifs with hneg
  · rw [neg_one_mul, abs_neg, abs_of_nonneg hnonneg]
    exact ⟨hle, fun hpos => absurd hneg hpos.not_gt, fun _ => neg_nonpos.mpr hnonneg⟩
  · rw [one_mul, abs_of_nonneg hnonneg]
    exact ⟨hle, fun _ => hnonneg, fun hle0 => absurd (lt_of_le_of_ne hle0 hv) hneg⟩

/-! ## Ties of the decoder (R137) -/

/-- A word's value is a multiple of `2 ^ -150`: the smallest exponent is -127, and the fraction has 23 bits. -/
theorem wordValue_dyadic (w : Word) : ∃ a : Int, wordValue w * 2 ^ 150 = a := by
  unfold wordValue
  split
  · exact ⟨0, by simp⟩
  · refine ⟨(if signField w = 1 then -1 else 1) * 2 ^ (exponentField w).toNat * (2 ^ 23 + (fractionField w).toNat), ?_⟩
    rw [zpow_sub₀ two_ne_zero, zpow_natCast]
    unfold bias
    push_cast
    field_simp
    ring

/-- An odd number of halves is a half away from the integer it is rounded to: it is no integer. -/
theorem abs_sub_roundHalfEven_of_odd_half {x : Number} {n : Int} (hn : n % 2 = 1) (hx : x * 2 = n) :
    |x - roundHalfEven x| = 1 / 2 := by
  have hodd : 1 ≤ |n - 2 * roundHalfEven x| := Int.one_le_abs (by omega)
  have hcast : (1 : Rat) ≤ |(n : Rat) - 2 * roundHalfEven x| := by exact_mod_cast hodd
  have hdouble : (n : Rat) - 2 * roundHalfEven x = 2 * (x - roundHalfEven x) := by rw [← hx]; ring
  rw [hdouble, abs_mul, abs_two] at hcast
  exact (roundHalfEven_near x).1.antisymm (by linarith)

/-- A number a half away from an integer is an odd number of halves. -/
theorem exists_odd_half_of_abs_sub_eq {x : Number} {z : Int} (h : |x - z| = 1 / 2) :
    ∃ n : Int, n % 2 = 1 ∧ x * 2 = n := by
  rcases (abs_eq (by norm_num)).mp h with h | h
  · exact ⟨2 * z + 1, by omega, by push_cast; linarith⟩
  · exact ⟨2 * z - 1, by omega, by push_cast; linarith⟩

/-- Of a dyadic number, an odd number of two-hundredths is an odd number of eighths: 25 divides no power of two. -/
theorem exists_odd_eighths {x : Number} {k : Nat} {a n : Int} (hdyadic : x * 2 ^ k = a) (hn : n % 2 = 1)
    (hx : x * 200 = n) : ∃ j : Int, j % 2 = 1 ∧ x = j / 8 := by
  have hcross : n * 2 ^ k = 25 * (8 * a) := by
    have : (n : Rat) * 2 ^ k = 25 * (8 * a) := by rw [← hdyadic, ← hx]; ring
    exact_mod_cast this
  have hcoprime : IsCoprime (25 : Int) (2 ^ k) := IsCoprime.pow_right (Int.isCoprime_iff_gcd_eq_one.mpr rfl)
  obtain ⟨j, rfl⟩ : (25 : Int) ∣ n := hcoprime.dvd_of_dvd_mul_right ⟨_, hcross⟩
  exact ⟨j, by omega, by push_cast at hx; linarith⟩

/-- Settles O42. -/
theorem decodeRoundsToTheNearestHundredth : Obligations.DecodeRoundsToTheNearestHundredth := by
  intro w
  obtain ⟨hnear, heven⟩ := roundHalfEven_near (wordValue w * 100)
  refine ⟨?hundredths, hnear, heven, ?tieToEighths, ?eighthsToTie⟩
  case hundredths => rw [decodeNum]; ring
  case tieToEighths =>
    intro htie
    obtain ⟨n, hn, hx⟩ := exists_odd_half_of_abs_sub_eq htie
    obtain ⟨a, hdyadic⟩ := wordValue_dyadic w
    exact exists_odd_eighths hdyadic hn (by linarith)
  case eighthsToTie =>
    rintro ⟨j, hj, hw⟩
    exact abs_sub_roundHalfEven_of_odd_half (n := 25 * j) (by omega) (by rw [hw]; push_cast; ring)

/-! ## The round trip (R141) -/

/-- A word with an exponent field above 0 is not the zero word. -/
theorem encode_ne_zeroWord {v : Number} (hlo : (2 : Rat) ^ (-126 : Int) ≤ |v|) {w : Word} (h : encode v = .word w) :
    w ≠ 0x00000000#32 := by
  have ha : 0 < |v| := (zpow_pos two_pos _).trans_le hlo
  obtain ⟨⟨h0, h255⟩, rfl⟩ := (encode_eq_word_iff (abs_pos.mp ha)).mp h
  have hexp := exponentField_packed v h0 h255
  have hbias : bias = 127 := rfl
  have he := (zpow_le_iff_le_floorLog2 ha).mp hlo
  intro hzero
  have hfield : (exponentField 0x00000000#32).toNat = 0 := by decide
  rw [hzero, hfield] at hexp
  omega

/-- A word is worth its number to within the last bit of the fraction. -/
theorem abs_wordValue_sub_lt_of_encode {v : Number} (hv : v ≠ 0) {w : Word} (h : encode v = .word w)
    (hw : w ≠ 0x00000000#32) : |wordValue w - v| < (2 : Rat) ^ floorLog2 |v| / 2 ^ 23 := by
  have hle := truncated_le v (floorLog2 |v|)
  have hlt := lt_truncated_add v (floorLog2 |v|)
  rw [wordValue_of_encode hv h hw]
  split_ifs with hneg
  · rw [abs_of_neg hneg] at hle hlt ⊢
    rw [abs_of_nonneg (by linarith)]; linarith
  · rw [abs_of_nonneg (not_lt.mp hneg)] at hle hlt ⊢
    rw [abs_of_nonpos (by linarith)]; linarith

/-- A word worth less than half a hundredth more or less than a multiple of 1/100 decodes to it. -/
theorem decodeNum_eq_of_near {x : Number} (hx : IsDec2 x) {w : Word} (h : |wordValue w - x| < 1 / 200) :
    decodeNum w = x := by
  obtain ⟨z, hz⟩ := isDec2_iff.mp hx
  have hnear : |wordValue w * 100 - z| < 1 / 2 := by
    rw [← hz, ← sub_mul, abs_mul, abs_of_pos (by norm_num : (0 : Rat) < 100)]
    linarith
  rw [decodeNum, decodeHundredths, roundHalfEven_eq hnear, ← hz]
  ring

/-- Below `2 ^ 16` the last bit of the fraction is worth less than half a hundredth. -/
theorem roundTrip_of_abs_lt {x : Number} (hx : IsDec2 x) (hlt : |x| < (2 : Rat) ^ (16 : Int)) :
    ∃ w, encode x = .word w ∧ decodeNum w = x := by
  rcases eq_or_ne x 0 with rfl | h0
  · exact ⟨_, encode_zero, decodeNum_eq_of_near hx (by simp [wordValue_zero])⟩
  · have ha : 0 < |x| := abs_pos.mpr h0
    have hmin : (2 : Rat) ^ (-7 : Int) ≤ |x| := le_trans (by norm_num) (hx.le_abs h0)
    have helo := (zpow_le_iff_le_floorLog2 ha).mp hmin
    have hehi := (lt_zpow_iff_floorLog2_lt ha).mp hlt
    have hbias : bias = 127 := rfl
    obtain ⟨w, hw⟩ : ∃ w, encode x = .word w := ⟨_, (encode_eq_word_iff h0).mpr ⟨by omega, rfl⟩⟩
    have hw0 : w ≠ 0x00000000#32 := encode_ne_zeroWord ((zpow_le_iff_le_floorLog2 ha).mpr (by omega)) hw
    refine ⟨w, hw, decodeNum_eq_of_near hx ?_⟩
    calc |wordValue w - x|
      _ < (2 : Rat) ^ floorLog2 |x| / 2 ^ 23 := abs_wordValue_sub_lt_of_encode h0 hw hw0
      _ ≤ (2 : Rat) ^ (15 : Int) / 2 ^ 23 := by gcongr; exacts [one_le_two, by omega]
      _ < 1 / 200 := by norm_num

/-- From `2 ^ 16` up to the first failure stand three multiples of 1/100 of each sign: each is evaluated. -/
theorem roundTrip_just_above : ∀ j : Fin 3,
    (encode ((6553600 + j.val : Nat) / 100) = .word (0x47800000#32 + BitVec.ofNat 32 j) ∧
      decodeNum (0x47800000#32 + BitVec.ofNat 32 j) = (6553600 + j.val : Nat) / 100) ∧
    (encode (-(6553600 + j.val : Nat) / 100) = .word (0xC7800000#32 + BitVec.ofNat 32 j) ∧
      decodeNum (0xC7800000#32 + BitVec.ofNat 32 j) = -(6553600 + j.val : Nat) / 100) := by
  decide +kernel

theorem roundTrip_of_le_abs {x : Number} (hx : IsDec2 x) (hle : (2 : Rat) ^ (16 : Int) ≤ |x|)
    (hlt : |x| < 6553603 / 100) : ∃ w, encode x = .word w ∧ decodeNum w = x := by
  obtain ⟨z, hz⟩ := isDec2_iff.mp hx
  have habs : |x| * 100 = (z.natAbs : Rat) := by
    rw [Nat.cast_natAbs, Int.cast_abs, ← hz, abs_mul, abs_of_pos (by norm_num : (0 : Rat) < 100)]
  norm_num at hle
  have h1 : (6553600 : Rat) ≤ z.natAbs := by linarith
  have h2 : (z.natAbs : Rat) < 6553603 := by linarith
  have h1' : 6553600 ≤ z.natAbs := by exact_mod_cast h1
  have h2' : z.natAbs < 6553603 := by exact_mod_cast h2
  obtain ⟨⟨hencode, hdecode⟩, hencode', hdecode'⟩ := roundTrip_just_above ⟨z.natAbs - 6553600, by omega⟩
  have hval : 6553600 + (z.natAbs - 6553600) = z.natAbs := by omega
  simp only [hval, ← habs] at hencode hdecode hencode' hdecode'
  rcases abs_choice x with hpos | hneg
  · have hx' : |x| * 100 / 100 = x := by rw [hpos]; ring
    rw [hx'] at hencode hdecode
    exact ⟨_, hencode, hdecode⟩
  · have hx' : -(|x| * 100) / 100 = x := by rw [hneg]; ring
    rw [hx'] at hencode' hdecode'
    exact ⟨_, hencode', hdecode'⟩

/-- Settles O43. -/
theorem hundredthsRoundTripUpToTheFirstFailure : Obligations.HundredthsRoundTripUpToTheFirstFailure := by
  refine ⟨fun x hx hlt => ?_, by decide +kernel, by decide +kernel⟩
  rcases lt_or_ge |x| ((2 : Rat) ^ (16 : Int)) with h | h
  · exact roundTrip_of_abs_lt hx h
  · exact roundTrip_of_le_abs hx h hlt

/-! ## Witnesses -/

/-- A hair below a power of two does not get the exponent of that power. -/
theorem witness_floorLog2IsTheUniqueExponent : floorLog2 (1 / 4 - 1 / 2 ^ 40) = -3 :=
  ((floorLog2IsTheUniqueExponent _ (by norm_num)).2.2 (-3) (by norm_num) (by norm_num)).symm

/-- The largest exponent that encodes, of a negative number. -/
theorem witness_encodePacksSignExponentFraction :
    ∃ w, encode (-(3 * 2 ^ 127)) = .word w ∧ signField w = 1 ∧ ((exponentField w).toNat : Int) = 255 := by
  obtain ⟨w, hword, hsign, hexponent, -⟩ := encodePacksSignExponentFraction.2 (-(3 * 2 ^ 127)) 128
    (by norm_num) (by norm_num) (by norm_num) (by norm_num)
  exact ⟨w, hword, by rw [hsign, if_pos (by norm_num)], by rw [hexponent]; norm_num⟩

/-- The first bit that is dropped, the 24th, is 1. -/
theorem witness_fractionExtractionTruncates : (extractBits23 (1 - 1 / 2 ^ 24) : Int) = 2 ^ 23 - 1 := by
  rw [fractionExtractionTruncates.1 _ (by norm_num) (by norm_num), Int.floor_eq_iff]
  norm_num

/-- The least magnitude of Overflow, and a magnitude just below it. -/
theorem witness_encodeFaultsOutsideItsRange :
    encode (2 ^ 129) = .fault .overflow ∧ ∃ w, encode (2 ^ 129 - 1) = .word w :=
  ⟨(encodeFaultsOutsideItsRange _).1.mpr (by norm_num),
    (encodeFaultsOutsideItsRange _).2.2.mpr (.inr ⟨by norm_num, by norm_num⟩)⟩

/-- The word of 1/8 is a tie, and its count of hundredths is even. -/
theorem witness_decodeRoundsToTheNearestHundredth : decodeHundredths 0x3E000000#32 % 2 = 0 := by
  obtain ⟨-, -, heven, htie⟩ := decodeRoundsToTheNearestHundredth 0x3E000000#32
  exact heven (htie.mpr ⟨1, rfl, by decide +kernel⟩)

/-- The last multiple of 1/100 before the first failure. -/
theorem witness_hundredthsRoundTripUpToTheFirstFailure :
    ∃ w, encode (-6553602 / 100) = .word w ∧ decodeNum w = -6553602 / 100 :=
  hundredthsRoundTripUpToTheFirstFailure.1 _ (isDec2_iff.mpr ⟨-6553602, by norm_num⟩) (by norm_num)

end Sys2Proof.Machine
end

-- The addressing modes, the stack protocol and the register frame (41_addressing.md).
section
/-! SUPPORT. What an operand that names an address answers in its three uses, in terms of its effective address, the
numbers that autoincrement and autodecrement write, which registers an instruction may change for each way it can end,
and the obligations O2 to O13 and O57 that rest on them. -/

namespace Sys2Proof.Machine

/-! ## Registers and their numbers (R33, R34) -/

theorem readReg_of_lt {n : Nat} {s : State} (h : n < s.nreg) : readReg n s = .ok (decodeNum (regWord s n)) s :=
  readReg_eq_ok.mpr ⟨h, rfl, rfl⟩

theorem readReg_of_nreg_le {n : Nat} {s : State} (h : s.nreg ≤ n) : readReg n s = .raise (.registerOutOfRange n) s :=
  readReg_eq_raise.mpr ⟨h, rfl, rfl⟩

/-! ## Effective addresses -/

theorem eaRegInd_of_nreg_le {n : Nat} {s : State} (h : s.nreg ≤ n) :
    eaRegInd n s = .raise (.registerOutOfRange n) s := by
  rw [eaRegInd, readReg_of_nreg_le h, Res.bind_raise]

/-- Once the register exists, the address it holds is only checked (R163). -/
theorem eaRegInd_of_lt {n : Nat} {s : State} (h : n < s.nreg) :
    eaRegInd n s = checkAddr (decodeNum (regWord s n)) s := by
  rw [eaRegInd, readReg_of_lt h, Res.bind_ok]

/-- Once the pointer cell exists, the address it holds is only checked (R165). -/
theorem eaIndirect_of_lt {a : Nat} {s : State} (h : a < s.launch.nmem) :
    eaIndirect a s = checkAddr (decodeNum (readSlot s.mem a)) s := by
  rw [eaIndirect, readMem_eq_ok.mpr ⟨h, rfl, rfl⟩, Res.bind_ok]

/-- Once the index register exists, the sum is only checked: the index alone is not (R166). -/
theorem eaIndexed_of_lt {idx : Nat} {s : State} (h : idx < s.nreg) (d : Nat) :
    eaIndexed idx d s = checkAddr (decodeNum (regWord s idx) + d) s := by
  rw [eaIndexed, readReg_of_lt h, Res.bind_ok]

theorem eaInc_of_nreg_le {n : Nat} {s : State} (h : s.nreg ≤ n) : eaInc n s = .raise (.registerOutOfRange n) s := by
  rw [eaInc, readReg_of_nreg_le h, Res.bind_raise]

theorem eaDec_of_nreg_le {n : Nat} {s : State} (h : s.nreg ≤ n) : eaDec n s = .raise (.registerOutOfRange n) s := by
  rw [eaDec, readReg_of_nreg_le h, Res.bind_raise]

/-- The address is checked before the register is written, so its fault leaves the register unchanged (R169). -/
theorem eaInc_of_checkAddr_raise {n : Nat} {c : FaultCause} {s : State} (h : n < s.nreg)
    (hc : checkAddr (decodeNum (regWord s n)) s = .raise c s) : eaInc n s = .raise c s := by
  rw [eaInc, readReg_of_lt h, Res.bind_ok, hc, Res.bind_raise]

/-- The stepped-down address is checked before the register is written (R169). -/
theorem eaDec_of_checkAddr_raise {n : Nat} {c : FaultCause} {s : State} (h : n < s.nreg)
    (hc : checkAddr (decodeNum (regWord s n) - 1) s = .raise c s) : eaDec n s = .raise c s := by
  rw [eaDec, readReg_of_lt h, Res.bind_ok, hc, Res.bind_raise]

/-! ## The three uses of an operand that names an address (R163 to R166, R169) -/

/-- The operand, used in the state `s`, has the effective address `ea`: its value is read there, its location is that
slot, and its target is that address. -/
structure HasAddress (o : Operand) (s : State) (ea : Res Nat) : Prop where
  val_eq : val o s = ea.bind fun p s1 => readMem p s1
  loc_eq : loc o s = ea.bind fun p s1 => .ok (.memL p) s1
  tgt_eq : tgt o s = ea

theorem hasAddress_regInd (n : Nat) (s : State) : HasAddress (.regInd n) s (eaRegInd n s) := ⟨rfl, rfl, rfl⟩
theorem hasAddress_direct (a : Nat) (s : State) : HasAddress (.direct a) s (eaDirect a s) := ⟨rfl, rfl, rfl⟩
theorem hasAddress_indirect (a : Nat) (s : State) : HasAddress (.indirect a) s (eaIndirect a s) := ⟨rfl, rfl, rfl⟩
theorem hasAddress_indexed1 (d : Nat) (s : State) :
    HasAddress (.indexed1 d) s (eaIndexed s.launch.idx1Reg d s) := ⟨rfl, rfl, rfl⟩
theorem hasAddress_indexed2 (d : Nat) (s : State) :
    HasAddress (.indexed2 d) s (eaIndexed s.launch.idx2Reg d s) := ⟨rfl, rfl, rfl⟩
theorem hasAddress_autoInc (n : Nat) (s : State) : HasAddress (.autoInc n) s (eaInc n s) := ⟨rfl, rfl, rfl⟩
theorem hasAddress_autoDec (n : Nat) (s : State) : HasAddress (.autoDec n) s (eaDec n s) := ⟨rfl, rfl, rfl⟩

/-- An address in memory serves all three uses. -/
theorem HasAddress.reaches {o : Operand} {s t : State} {p : Nat} (h : HasAddress o s (.ok p t))
    (hp : p < t.launch.nmem) :
    val o s = .ok (decodeNum (readSlot t.mem p)) t ∧ loc o s = .ok (.memL p) t ∧ tgt o s = .ok p t :=
  ⟨h.val_eq.trans (readMem_eq_ok.mpr ⟨hp, rfl, rfl⟩), h.loc_eq, h.tgt_eq⟩

/-- An address that faults, faults in all three uses. -/
theorem HasAddress.raises {o : Operand} {s t : State} {c : FaultCause} (h : HasAddress o s (.raise c t)) :
    val o s = .raise c t ∧ loc o s = .raise c t ∧ tgt o s = .raise c t :=
  ⟨h.val_eq, h.loc_eq, h.tgt_eq⟩

/-- An operand whose address is the number `v`, checked: it reaches that slot, or raises what the check raises. -/
theorem HasAddress.of_checkAddr {o : Operand} {s : State} {v : Number} (h : HasAddress o s (checkAddr v s)) :
    (∀ p : Nat, v = p → p < s.launch.nmem →
      val o s = .ok (decodeNum (readSlot s.mem p)) s ∧ loc o s = .ok (.memL p) s ∧ tgt o s = .ok p s) ∧
    (∀ c, checkAddr v s = .raise c s → val o s = .raise c s ∧ loc o s = .raise c s ∧ tgt o s = .raise c s) := by
  refine ⟨fun p hv hp => ?reaches, fun c hc => ?raises⟩
  case reaches =>
    rw [checkAddr_eq_ok.mpr ⟨hv, hp, rfl⟩] at h
    exact h.reaches hp
  case raises =>
    rw [hc] at h
    exact h.raises

/-- An operand whose address steps the register `n`: it does so where its address answers and not where the address check
raises. -/
theorem HasAddress.stepsThrough {o : Operand} {s : State} {ea : Res Nat} {n : Nat} {before : Number}
    {after : Nat → Number} (h : HasAddress o s ea)
    (hok : ∀ p : Nat, before = p → p < s.launch.nmem → ∃ w, encode (after p) = .word w ∧ ea = .ok p (setReg n w s))
    (hraise : ∀ c, checkAddr before s = .raise c s → ea = .raise c s) : StepsThrough o n before after s := by
  refine ⟨fun p hv hp => ?reaches, fun c hc => ?raises⟩
  case reaches =>
    obtain ⟨w, hw, hea⟩ := hok p hv hp
    exact ⟨w, hw, (hea ▸ h).reaches hp⟩
  case raises => exact (hraise c hc ▸ h).raises

/-! ## The numbers that are written back always encode (R169) -/

/-- A natural number below `2 ^ 129` encodes: it is 0 or at least 1, so it does not underflow. -/
theorem exists_encode_natCast {m : Nat} (h : (m : Rat) < (2 : Rat) ^ (129 : Int)) :
    ∃ w, encode (m : Number) = .word w := by
  refine (encodeFaultsOutsideItsRange m).2.2.mpr ?_
  rcases m.eq_zero_or_pos with rfl | hm
  · exact .inl Nat.cast_zero
  · have hone : (1 : Rat) ≤ m := Nat.one_le_cast.mpr hm
    have hmin : (2 : Rat) ^ (-127 : Int) ≤ 1 := zpow_le_one_of_nonpos₀ one_le_two (by decide)
    rw [Nat.abs_cast]
    exact .inr ⟨hmin.trans hone, h⟩

theorem decodeNum_add_one_lt (w : Word) : decodeNum w + 1 < (2 : Rat) ^ (129 : Int) :=
  calc decodeNum w + 1
    _ ≤ (2 - 1 / 2 ^ 23) * 2 ^ 128 + 1 := by gcongr; exact (le_abs_self _).trans (decodeNum_abs_le w)
    _ < (2 : Rat) ^ (129 : Int) := by norm_num

/-- Settles O9: each effective address answers or raises as its register and the address check say, and the number that
is written back is a natural number no larger than a decoded number plus one, so it encodes. -/
theorem autoStepsUseAndRewriteTheirRegister : Obligations.AutoStepsUseAndRewriteTheirRegister := by
  intro n s
  have hbound := decodeNum_add_one_lt (regWord s n)
  refine ⟨fun hn => ⟨?inc, ?dec⟩, fun hn o ho => ?noRegister⟩
  case inc =>
    refine (hasAddress_autoInc n s).stepsThrough (fun p hv hp => ?_) fun c => eaInc_of_checkAddr_raise hn
    obtain ⟨w, hw⟩ := exists_encode_natCast (m := p + 1) (by rwa [Nat.cast_succ, ← hv])
    rw [Nat.cast_succ] at hw
    exact ⟨w, hw, eaInc_eq_ok.mpr ⟨hn, hv, hp, w, hw, rfl⟩⟩
  case dec =>
    refine (hasAddress_autoDec n s).stepsThrough (fun p hv hp => ?_) fun c => eaDec_of_checkAddr_raise hn
    obtain ⟨w, hw⟩ := exists_encode_natCast (m := p) (by rw [← hv]; linarith)
    exact ⟨w, hw, eaDec_eq_ok.mpr ⟨hn, hv, hp, w, hw, rfl⟩⟩
  case noRegister =>
    rcases List.mem_pair.mp ho with rfl | rfl
    · exact (eaInc_of_nreg_le hn ▸ hasAddress_autoInc n s).raises
    · exact (eaDec_of_nreg_le hn ▸ hasAddress_autoDec n s).raises

/-! ## The registers that an instruction may change -/

/-- A register that a used operand steps is one that the instruction can change, whatever the operand's role. -/
theorem mem_touchedRegs_of_steppedReg {i : Instr} {o : Role × Operand} (ho : o ∈ i.operands) {n : Nat}
    (hn : n ∈ steppedReg o.2) : n ∈ touchedRegs i := by
  refine List.mem_flatMap.mpr ⟨o, ho, ?_⟩
  obtain ⟨role, op⟩ := o
  cases role with
  | readWrite | write => exact List.mem_append_right _ hn
  | source | target => exact hn

/-- Resolving operands changes only registers that the instruction can change. -/
theorem Resolved.regsSameOutside {i : Instr} {s u : State} (h : Resolved i s u) :
    RegsSameOutside (touchedRegs i) s u :=
  fun n hn => h.regs n fun _ ho hstep => hn (mem_touchedRegs_of_steppedReg ho hstep)

/-- A store changes no register but the one it is into. -/
theorem regWord_put {L : Loc} {n : Nat} (hL : L ≠ .regL n) (w : Word) (s : State) :
    regWord (L.put w s) n = regWord s n := by
  cases L with
  | regL m => exact regWord_setReg_ne w s fun e => hL (e ▸ rfl)
  | memL p => rfl
  | pushL => rfl

theorem RegsSameOutside.put {ns : List Nat} {s u : State} (h : RegsSameOutside ns s u) {L : Loc}
    (hL : ∀ n, L = .regL n → n ∈ ns) (w : Word) : RegsSameOutside ns s (L.put w u) :=
  fun n hn => (regWord_put (fun e => hn (hL n e)) w u).trans (h n hn)

/-- However an instruction ends, it changes only registers that it names or steps: the operands' steps come first, and
then at most one store. -/
theorem Ended.regsSameOutside {i : Instr} {s t : State} (he : Ended i s t) : RegsSameOutside (touchedRegs i) s t := by
  cases he with
  | fault c u inp hu => exact hu.regsSameOutside
  | stored L w u pc cc inp d hu _ _ _ hreg => exact hu.regsSameOutside.put hreg w
  | moved u pc out hu => exact hu.regsSameOutside
  | halted => exact fun _ _ => rfl
  | waits => exact fun _ _ => rfl

/-- Settles O57, by the cases of how an instruction can end (`Ended`). -/
theorem onlyTheNamedRegistersChange : Obligations.OnlyTheNamedRegistersChange :=
  fun _ _ _ h => (exec_ended h).regsSameOutside

/-! ## The operands, mode by mode (R161 to R168) -/

/-- Settles O2. -/
theorem immediateOperandIsItsLiteral : Obligations.ImmediateOperandIsItsLiteral :=
  fun _ _ => ⟨rfl, rfl, fun hn hmem => checkAddr_eq_ok.mpr ⟨rfl, by omega, rfl⟩⟩

/-- Settles O3, by whether the register exists. -/
theorem registerOperandIsTheSlot : Obligations.RegisterOperandIsTheSlot := by
  intro n s
  refine ⟨fun hn => ⟨readReg_of_lt hn, ?location⟩, fun hn => ⟨readReg_of_nreg_le hn, ?noLocation⟩, rfl⟩
  case location => rw [loc, checkReg_eq_ok.mpr ⟨hn, rfl, rfl⟩, Res.bind_ok]
  case noLocation => rw [loc, checkReg_eq_raise.mpr ⟨hn, rfl, rfl⟩, Res.bind_raise]

/-- Settles O4: the register check first, and then the address check of what the register holds. -/
theorem registerIndirectReachesTheSlotItHolds : Obligations.RegisterIndirectReachesTheSlotItHolds := fun n s =>
  ⟨fun hn => (eaRegInd_of_nreg_le hn ▸ hasAddress_regInd n s).raises,
    fun hn => (eaRegInd_of_lt hn ▸ hasAddress_regInd n s).of_checkAddr⟩

/-- Settles O5: the field is below NMEM, so its check passes. -/
theorem directOperandReachesItsSlot : Obligations.DirectOperandReachesItsSlot := by
  intro a s ha hmem
  have hlt : a < s.launch.nmem := by omega
  exact (eaDirect_eq_ok.mpr ⟨rfl, hlt, rfl⟩ ▸ hasAddress_direct a s).reaches hlt

/-- Settles O6: the pointer cell exists, so what is checked is the address it holds. -/
theorem indirectOperandFollowsThePointerCell : Obligations.IndirectOperandFollowsThePointerCell := by
  intro a s ha hmem
  have hlt : a < s.launch.nmem := by omega
  exact (eaIndirect_of_lt hlt ▸ hasAddress_indirect a s).of_checkAddr

/-- Settles O7, for each of the two index registers. -/
theorem indexedOperandAddsTheDisplacement : Obligations.IndexedOperandAddsTheDisplacement := fun d s =>
  ⟨fun hidx => (eaIndexed_of_lt hidx d ▸ hasAddress_indexed1 d s).of_checkAddr,
    fun hidx => (eaIndexed_of_lt hidx d ▸ hasAddress_indexed2 d s).of_checkAddr⟩

/-- Settles O8: each clause is the row of its operand in `val`, `loc` or `tgt`. -/
theorem stackOperandsAdmitTheirOneUse : Obligations.StackOperandsAdmitTheirOneUse :=
  fun _ => ⟨rfl, rfl, rfl, rfl, rfl, rfl, rfl, rfl, rfl⟩

/-! ## The stack protocol and the write (R170 to R174) -/

/-- Settles O10. -/
theorem pushStoresAboveTheTop : Obligations.PushStoresAboveTheTop :=
  fun _ _ => ⟨fun hroom => push_eq_ok.mpr ⟨hroom, rfl⟩, fun hfull => push_eq_raise.mpr ⟨hfull, rfl, rfl⟩⟩

/-- Settles O11. -/
theorem popReadsTheTopAndKeepsTheSlot : Obligations.PopReadsTheTopAndKeepsTheSlot :=
  fun _ => ⟨fun hempty => pop_eq_raise.mpr ⟨rfl, .inl ⟨hempty, rfl⟩⟩,
    fun hspr hmem => pop_eq_ok.mpr ⟨hspr, hmem, rfl, rfl⟩⟩

/-- Settles O12. -/
theorem topReadsWithoutMutation : Obligations.TopReadsWithoutMutation :=
  fun _ => ⟨fun hempty => top_eq_raise.mpr ⟨rfl, .inl ⟨hempty, rfl⟩⟩,
    fun hspr hmem => top_eq_ok.mpr ⟨hspr, hmem, rfl, rfl⟩⟩

/-- A number that does not encode is not stored anywhere. -/
theorem writeLoc_of_encodeOrRaise_raise {L : Loc} {v : Number} {c : FaultCause} {s t : State}
    (h : encodeOrRaise v s = .raise c t) : writeLoc L v s = .raise c t := by
  rw [writeLoc, h, Res.bind_raise]

/-- A number that encodes is written by storing its word. -/
theorem writeLoc_of_encode_word {v : Number} {w : Word} (h : encode v = .word w) (L : Loc) (s : State) :
    writeLoc L v s = storeLoc L w s := by
  rw [writeLoc, encodeOrRaise_eq_ok.mpr ⟨h, rfl⟩, Res.bind_ok]

/-- Settles O13, by what the number encodes to, and for a word by the kind of location. -/
theorem writeLocEncodesThenStores : Obligations.WriteLocEncodesThenStores := by
  intro L v s
  refine ⟨fun h => ?overflow, fun h => ?underflow, fun w h => ⟨?register, ?memory, ?push⟩⟩
  case overflow => exact writeLoc_of_encodeOrRaise_raise (encodeOrRaise_eq_raise.mpr ⟨rfl, .inl ⟨h, rfl⟩⟩)
  case underflow => exact writeLoc_of_encodeOrRaise_raise (encodeOrRaise_eq_raise.mpr ⟨rfl, .inr ⟨h, rfl⟩⟩)
  case register =>
    rintro n rfl hn
    exact writeLoc_eq_ok.mpr ⟨w, h, hn, rfl⟩
  case memory =>
    rintro p rfl hp
    exact writeLoc_eq_ok.mpr ⟨w, h, hp, rfl⟩
  case push =>
    rintro rfl
    exact writeLoc_of_encode_word h .pushL s

/-! ## Witnesses -/

/-- After `PUSH #5`, with the 5 still on the stack: R1 holds 255 and I1 holds -1. -/
def pointers : State := setReg 14 0xBF800000#32 (setReg 1 0x437F0000#32 pushedFive)

theorem decodeNum_pointers_r1 : decodeNum (regWord pointers 1) = (255 : Nat) := by decide +kernel
theorem decodeNum_pointers_i1 : decodeNum (regWord pointers 14) = -1 := by decide +kernel
theorem decodeNum_pointers_top : decodeNum (readSlot pointers.mem 225) = (5 : Nat) := by decide +kernel

theorem checkAddr_pointers_neg_one : checkAddr (-1) pointers = .raise (.addressOutOfRange (-1)) pointers := by
  decide +kernel

/-- `R1+` at the last slot of memory writes 256, which is no address; `-R0` faults and leaves R0; R16 does not exist. -/
theorem witness_autoStepsUseAndRewriteTheirRegister :
    (∃ w, encode ((255 : Nat) + 1) = .word w ∧ tgt (.autoInc 1) pointers = .ok 255 (setReg 1 w pointers)) ∧
    val (.autoDec 0) pointers = .raise (.addressOutOfRange (-1)) pointers ∧
    loc (.autoInc 16) pointers = .raise (.registerOutOfRange 16) pointers := by
  obtain ⟨⟨hstep, -⟩, -⟩ := (autoStepsUseAndRewriteTheirRegister 1 pointers).1 (by decide)
  obtain ⟨-, -, hraise⟩ := (autoStepsUseAndRewriteTheirRegister 0 pointers).1 (by decide)
  obtain ⟨-, hmissing⟩ := autoStepsUseAndRewriteTheirRegister 16 pointers
  obtain ⟨w, hw, -, -, htgt⟩ := hstep 255 decodeNum_pointers_r1 (by decide)
  obtain ⟨hval, -, -⟩ := hraise (.addressOutOfRange (-1)) (by decide +kernel)
  obtain ⟨-, hloc, -⟩ := hmissing (by decide) (.autoInc 16) (by simp)
  exact ⟨⟨w, hw, htgt⟩, hval, hloc⟩

/-- What `JMP R1+` leaves: PC at 255 and R1 stepped to 256. -/
def jumpedThroughR1 : State := { setReg 1 0x43800000#32 pointers with pc := 255 }

theorem exec_jmp_pointers : exec (.jmp (.autoInc 1)) pointers = .next jumpedThroughR1 := by
  have hjump : jump condAlways (.autoInc 1) pointers = .ok 255 (setReg 1 0x43800000#32 pointers) := by decide +kernel
  rw [exec, execJmp, hjump]; rfl

/-- `JMP R1+` changes R1, which it steps, and leaves I1. -/
theorem witness_onlyTheNamedRegistersChange :
    regWord jumpedThroughR1 14 = regWord pointers 14 ∧ regWord jumpedThroughR1 1 ≠ regWord pointers 1 :=
  ⟨onlyTheNamedRegistersChange _ _ _ exec_jmp_pointers 14 (by decide), by decide⟩

theorem witness_immediateOperandIsItsLiteral : tgt (.imm 255) pointers = .ok 255 pointers := by
  obtain ⟨-, -, htgt⟩ := immediateOperandIsItsLiteral 255 pointers
  exact htgt (by decide) (by decide)

/-- The last register, and the first number past it. -/
theorem witness_registerOperandIsTheSlot :
    loc (.reg 15) pointers = .ok (.regL 15) pointers ∧
    loc (.reg 16) pointers = .raise (.registerOutOfRange 16) pointers := by
  obtain ⟨hlast, -, -⟩ := registerOperandIsTheSlot 15 pointers
  obtain ⟨-, hpast, -⟩ := registerOperandIsTheSlot 16 pointers
  exact ⟨(hlast (by decide)).2, (hpast (by decide)).2⟩

theorem witness_registerIndirectReachesTheSlotItHolds :
    loc (.regInd 1) pointers = .ok (.memL 255) pointers ∧
    loc (.regInd 14) pointers = .raise (.addressOutOfRange (-1)) pointers := by
  obtain ⟨hreaches, -⟩ := (registerIndirectReachesTheSlotItHolds 1 pointers).2 (by decide)
  obtain ⟨-, hraises⟩ := (registerIndirectReachesTheSlotItHolds 14 pointers).2 (by decide)
  rw [decodeNum_pointers_i1] at hraises
  obtain ⟨-, hloc, -⟩ := hreaches 255 decodeNum_pointers_r1 (by decide)
  obtain ⟨-, hfault, -⟩ := hraises _ checkAddr_pointers_neg_one
  exact ⟨hloc, hfault⟩

theorem witness_directOperandReachesItsSlot : loc (.direct 255) pointers = .ok (.memL 255) pointers := by
  obtain ⟨-, hloc, -⟩ := directOperandReachesItsSlot 255 pointers (by decide) (by decide)
  exact hloc

/-- Slot 225 holds the 5 that was pushed. -/
theorem witness_indirectOperandFollowsThePointerCell : tgt (.indirect 225) pointers = .ok 5 pointers := by
  obtain ⟨hreaches, -⟩ := indirectOperandFollowsThePointerCell 225 pointers (by decide) (by decide)
  obtain ⟨-, -, htgt⟩ := hreaches 5 decodeNum_pointers_top (by decide)
  exact htgt

/-- The index -1 is no address, but its sum with the displacement 255 is one. -/
theorem witness_indexedOperandAddsTheDisplacement :
    loc (.indexed1 255) pointers = .ok (.memL 254) pointers ∧
    loc (.indexed1 0) pointers = .raise (.addressOutOfRange (-1)) pointers := by
  obtain ⟨hreaches, -⟩ := (indexedOperandAddsTheDisplacement 255 pointers).1 (by decide)
  obtain ⟨-, hraises⟩ := (indexedOperandAddsTheDisplacement 0 pointers).1 (by decide)
  obtain ⟨-, hloc, -⟩ := hreaches 254 (by decide +kernel) (by decide)
  obtain ⟨-, hfault, -⟩ := hraises (.addressOutOfRange (-1)) (by decide +kernel)
  exact ⟨hloc, hfault⟩

/-- The last push that has room, and the first that has none. -/
theorem witness_pushStoresAboveTheTop :
    push 0x40A00000#32 { pointers with tsp := 254 } =
      .ok () (setSlot 255 0x40A00000#32 { pointers with tsp := 255 }) ∧
    push 0x40A00000#32 { pointers with tsp := 255 } =
      .raise (.addressOutOfRange (256 : Nat)) { pointers with tsp := 255 } :=
  ⟨(pushStoresAboveTheTop _ { pointers with tsp := 254 }).1 (by decide),
    (pushStoresAboveTheTop _ { pointers with tsp := 255 }).2 (by decide)⟩

/-- The 5 that was pushed is popped, and a second pop finds the stack empty. -/
theorem witness_popReadsTheTopAndKeepsTheSlot :
    pop pointers = .ok (5 : Nat) { pointers with tsp := 224 } ∧
    pop { pointers with tsp := 224 } = .raise .stackUnderflow { pointers with tsp := 224 } :=
  ⟨decodeNum_pointers_top ▸ (popReadsTheTopAndKeepsTheSlot pointers).2 (by decide) (by decide),
    (popReadsTheTopAndKeepsTheSlot { pointers with tsp := 224 }).1 (by decide)⟩

theorem witness_topReadsWithoutMutation :
    top pointers = .ok (5 : Nat) pointers ∧
    top { pointers with tsp := 224 } = .raise .stackEmpty { pointers with tsp := 224 } :=
  ⟨decodeNum_pointers_top ▸ (topReadsWithoutMutation pointers).2 (by decide) (by decide),
    (topReadsWithoutMutation { pointers with tsp := 224 }).1 (by decide)⟩

/-- A number that does not encode leaves the stack as it is, and the last slot of memory takes one that does. -/
theorem witness_writeLocEncodesThenStores :
    writeLoc .pushL (2 ^ 129) pointers = .raise (.encodeOverflow (2 ^ 129)) pointers ∧
    writeLoc (.memL 255) 0 pointers = .ok () (setSlot 255 0x00000000#32 pointers) := by
  obtain ⟨hoverflow, -⟩ := writeLocEncodesThenStores .pushL (2 ^ 129) pointers
  obtain ⟨-, -, hword⟩ := writeLocEncodesThenStores (.memL 255) 0 pointers
  obtain ⟨-, hmemory, -⟩ := hword _ encode_zero
  exact ⟨hoverflow witness_encodeFaultsOutsideItsRange.1, hmemory 255 rfl (by decide)⟩

end Sys2Proof.Machine
end

-- Fetch, the stages of an instruction, and the SCAN wait (42_execution_cycle.md).
section
/-! SUPPORT. The step on a word that decodes to an instruction, the order in which operands raise, what a waiting SCAN
is and why a change of IR leaves it waiting, and the obligations O28, O36, O50 and O51 that rest on them. -/

namespace Sys2Proof.Machine

/-! ## Fetch and decode (R190, R195) -/

theorem step_of_decode_instr {s : State} {w : Word} {i : Instr} (hrunning : s.status = .running)
    (hfetch : fetch s = .word w) (hdecode : decode w = .instr i) : step s = exec i { s with ir := s.pc } := by
  simp only [step, hrunning, hfetch, hdecode]

/-- A word that spells an instruction is not the all-zero word, so the fetch answers it. -/
theorem clearReserved_ne_zero_of_decode_instr {w : Word} {i : Instr} (h : decode w = .instr i) :
    clearReserved w ≠ 0#32 := by
  intro hzero
  rw [decode, if_pos hzero] at h
  cases h

/-- Settles O50: the word passes the fetch's three tests, the last one because it spells an instruction. -/
theorem stepRunsTheDecodedInstruction : Obligations.StepRunsTheDecodedInstruction := by
  intro s i hrunning hcode hmem hdecode
  have hfetch : fetch s = .word (readSlot s.mem s.pc) :=
    fetch_eq_word.mpr ⟨hcode, hmem, clearReserved_ne_zero_of_decode_instr hdecode, rfl⟩
  exact step_of_decode_instr hrunning hfetch hdecode

/-- Settles O51: each of the three cases is one in which the fetch ends the program. -/
theorem fetchPastTheProgramHalts : Obligations.FetchPastTheProgramHalts := by
  intro s hrunning hpast
  have hzero (h : readSlot s.mem s.pc = 0x00000000#32) : clearReserved (readSlot s.mem s.pc) = 0#32 := by
    rw [h]; rfl
  exact step_of_fetch_ended hrunning (fetch_eq_ended.mpr (hpast.imp_right (Or.imp_right hzero)))

/-! ## The first fault in stage order (R193, R306) -/

theorem conclude_bind_of_raise {α : Type} {r : Res α} {f : α → State → Res Nat} {c : FaultCause} {t : State}
    (h : r = .raise c t) : conclude (r.bind f) = .next (takeFault c t) := by
  rw [h, Res.bind_raise, conclude_raise]

theorem exec_scan_of_loc_raise {dst : Operand} {c : FaultCause} {s t : State} (h : loc dst s = .raise c t) :
    exec (.scan dst) s = .next (takeFault c t) := by
  rw [exec, execScan, h]

/-- The arithmetic template raises what its destination raises, when it is resolved or when it is read (R209). -/
theorem arith_of_destination_raise {op : Number → Number → AluResult} {dst : Operand} {c : FaultCause} {s t : State}
    (h : RaisesByRole .readWrite dst c s t) (src : Operand) : arith op dst src s = .raise c t := by
  rcases h with hloc | ⟨L, s1, hloc, hread⟩
  · rw [arith, hloc, Res.bind_raise]
  · rw [arith, hloc, Res.bind_ok, hread, Res.bind_raise]

/-- The arithmetic template raises what its source raises, once the destination has been resolved and read. -/
theorem arith_of_source_raise {op : Number → Number → AluResult} {dst src : Operand} {L : Loc} {x : Number}
    {c : FaultCause} {s s1 t : State} (hloc : loc dst s = .ok L s1) (hread : readLoc L s1 = .ok x s1)
    (hval : val src s1 = .raise c t) : arith op dst src s = .raise c t := by
  rw [arith, hloc, Res.bind_ok, hread, Res.bind_ok, hval, Res.bind_raise]

/-- What operand 1 raises in its role is the fault the instruction takes. -/
theorem exec_of_operand1_raise {i : Instr} {r : Role} {o : Operand} {rest : List (Role × Operand)} {c : FaultCause}
    {s t : State} (hops : i.operands = (r, o) :: rest) (h : RaisesByRole r o c s t) :
    exec i s = .next (takeFault c t) := by
  cases i with
  | eop | ret => cases hops
  | prnt src | push src | mov dst src | pop dst | call target
  | jmp target | jeq target | jne target | jlt target | jle target | jgt target | jge target =>
    cases hops
    exact conclude_bind_of_raise h
  | scan dst =>
    cases hops
    exact exec_scan_of_loc_raise h
  | add dst src | sub dst src | mul dst src | div dst src | mod dst src =>
    cases hops
    exact conclude_bind_of_raise (arith_of_destination_raise h src)

/-- Where operand 1 passes, what the source raises is the fault the instruction takes. -/
theorem exec_of_source_raise {i : Instr} {r : Role} {o src : Operand} {L : Loc} {c : FaultCause} {s s1 t : State}
    (hops : i.operands = [(r, o), (.source, src)]) (hloc : loc o s = .ok L s1)
    (hread : r = .readWrite → ∃ x, readLoc L s1 = .ok x s1) (hval : val src s1 = .raise c t) :
    exec i s = .next (takeFault c t) := by
  cases i with
  | mov dst src =>
    cases hops
    rw [exec, execMov, hloc, Res.bind_ok]
    exact conclude_bind_of_raise hval
  | add dst src | sub dst src | mul dst src | div dst src | mod dst src =>
    cases hops
    obtain ⟨x, hx⟩ := hread rfl
    exact conclude_bind_of_raise (arith_of_source_raise hloc hx hval)
  | _ => cases hops

/-- Settles O36, one clause for each operand. -/
theorem operandFaultsComeInStageOrder : Obligations.OperandFaultsComeInStageOrder := by
  intro i r o rest s hops
  refine ⟨fun c t => exec_of_operand1_raise hops, ?_⟩
  rintro src L s1 c t rfl hloc hread hval
  exact exec_of_source_raise hops hloc hread hval

/-! ## No operand reads IR (R190) -/

/-- The same answer, in a state with another IR. -/
def Res.withIr {α : Type} (n : Nat) (r : Res α) : Res α :=
  match r with
  | .ok a s => .ok a { s with ir := n }
  | .raise c s => .raise c { s with ir := n }

/-- A part of an instruction neither reads IR nor writes it. -/
def IgnoresIr {α : Type} (f : State → Res α) : Prop :=
  ∀ n s, f { s with ir := n } = (f s).withIr n

theorem ignoresIr_ok {α : Type} (a : α) : IgnoresIr (Res.ok a) := fun _ _ => rfl

theorem ignoresIr_raise {α : Type} (c : FaultCause) : IgnoresIr (Res.raise (α := α) c) := fun _ _ => rfl

theorem IgnoresIr.bind {α β : Type} {f : State → Res α} {g : α → State → Res β} (hf : IgnoresIr f)
    (hg : ∀ a, IgnoresIr (g a)) : IgnoresIr fun s => (f s).bind g := by
  intro n s
  simp only [hf n s]
  cases f s with
  | ok a u => exact hg a n u
  | raise c u => rfl

theorem checkReg_ignoresIr (m : Nat) : IgnoresIr (checkReg m) := by
  intro n s
  unfold checkReg
  split <;> rfl

theorem checkAddr_ignoresIr (v : Number) : IgnoresIr (checkAddr v) := by
  intro n s
  unfold checkAddr
  split_ifs <;> rfl

theorem encodeOrRaise_ignoresIr (v : Number) : IgnoresIr (encodeOrRaise v) := by
  intro n s
  unfold encodeOrRaise
  split <;> rfl

theorem readReg_ignoresIr (m : Nat) : IgnoresIr (readReg m) :=
  (checkReg_ignoresIr m).bind fun _ _ _ => rfl

theorem readMem_ignoresIr (p : Nat) : IgnoresIr (readMem p) :=
  (checkAddr_ignoresIr p).bind fun _ _ _ => rfl

theorem writeLoc_regL_ignoresIr (m : Nat) (v : Number) : IgnoresIr (writeLoc (.regL m) v) :=
  (encodeOrRaise_ignoresIr v).bind fun _ => (checkReg_ignoresIr m).bind fun _ _ _ => rfl

theorem eaIndexed_ignoresIr (idx d : Nat) : IgnoresIr (eaIndexed idx d) :=
  (readReg_ignoresIr idx).bind fun _ => checkAddr_ignoresIr _

/-- A target is an effective address, so this says it of every mode that has one. -/
theorem tgt_ignoresIr (o : Operand) : IgnoresIr (tgt o) := by
  cases o with
  | imm n => exact checkAddr_ignoresIr n
  | direct a => exact checkAddr_ignoresIr a
  | reg n | top | push | pop => exact ignoresIr_raise .noLocation
  | regInd m => exact (readReg_ignoresIr m).bind checkAddr_ignoresIr
  | indirect a => exact (readMem_ignoresIr a).bind checkAddr_ignoresIr
  | indexed1 d => exact fun n s => eaIndexed_ignoresIr s.launch.idx1Reg d n s
  | indexed2 d => exact fun n s => eaIndexed_ignoresIr s.launch.idx2Reg d n s
  | autoInc m | autoDec m =>
    exact (readReg_ignoresIr m).bind fun _ => (checkAddr_ignoresIr _).bind fun _ =>
      (writeLoc_regL_ignoresIr m _).bind fun _ => ignoresIr_ok _

theorem loc_ignoresIr (o : Operand) : IgnoresIr (loc o) := by
  have memL {o : Operand} : IgnoresIr fun s => (tgt o s).bind fun p s1 => .ok (Loc.memL p) s1 :=
    (tgt_ignoresIr o).bind fun _ => ignoresIr_ok _
  cases o with
  | imm n | top | pop => exact ignoresIr_raise .noLocation
  | push => exact ignoresIr_ok Loc.pushL
  | reg m => exact (checkReg_ignoresIr m).bind fun _ => ignoresIr_ok _
  | regInd m => exact memL (o := .regInd m)
  | direct a => exact memL (o := .direct a)
  | indirect a => exact memL (o := .indirect a)
  | indexed1 d => exact memL (o := .indexed1 d)
  | indexed2 d => exact memL (o := .indexed2 d)
  | autoInc m => exact memL (o := .autoInc m)
  | autoDec m => exact memL (o := .autoDec m)

theorem loc_withIr_eq_ok {o : Operand} {L : Loc} {s t : State} (h : loc o s = .ok L t) (n : Nat) :
    loc o { s with ir := n } = .ok L { t with ir := n } := by
  rw [loc_ignoresIr o n s, h, Res.withIr]

/-! ## The SCAN wait (R197, R271, R315) -/

theorem waiting_eq_true_iff {s : State} :
    waiting s = true ↔ s.status = .running ∧ s.input = [] ∧
      ∃ w dst L t, fetch s = .word w ∧ decode w = .instr (.scan dst) ∧ loc dst s = .ok L t := by
  constructor
  · intro h
    unfold waiting at h
    split at h
    case h_2 => cases h
    case h_1 w hrunning hfetch hinput =>
      split at h
      case h_2 => cases h
      case h_1 dst hdecode =>
        split at h
        case h_2 => cases h
        case h_1 L t hloc => exact ⟨hrunning, hinput, w, dst, L, t, hfetch, hdecode, hloc⟩
  · rintro ⟨hrunning, hinput, w, dst, L, t, hfetch, hdecode, hloc⟩
    simp only [waiting, hrunning, hfetch, hinput, hdecode, hloc]

/-- A SCAN that waits for its input goes on waiting with another IR. -/
theorem waiting_withIr {s : State} (h : waiting s = true) (n : Nat) : waiting { s with ir := n } = true := by
  obtain ⟨hrunning, hinput, w, dst, L, t, hfetch, hdecode, hloc⟩ := waiting_eq_true_iff.mp h
  exact waiting_eq_true_iff.mpr ⟨hrunning, hinput, w, dst, L, _, hfetch, hdecode, loc_withIr_eq_ok hloc n⟩

theorem exec_scan_of_no_input {dst : Operand} {L : Loc} {s t : State} (hloc : loc dst s = .ok L t)
    (hinput : s.input = []) : exec (.scan dst) s = .next s := by
  simp only [exec, execScan, hloc, hinput]

theorem step_of_waiting {s : State} (h : waiting s = true) : step s = .next { s with ir := s.pc } := by
  obtain ⟨hrunning, hinput, w, dst, L, t, hfetch, hdecode, hloc⟩ := waiting_eq_true_iff.mp h
  rw [step_of_decode_instr hrunning hfetch hdecode, exec_scan_of_no_input (loc_withIr_eq_ok hloc s.pc) hinput]

/-- The host's number is refused exactly where no SCAN waits (R340). -/
theorem supplyInput_eq_none_iff {v : Number} {s : State} : supplyInput v s = none ↔ waiting s = false := by
  simp [supplyInput]

/-- Settles O28: the step changes IR alone, which the wait does not depend on, and an answered SCAN no longer waits. -/
theorem waitingScanStaysWaiting : Obligations.WaitingScanStaysWaiting := by
  intro s
  refine ⟨fun h => ⟨step_of_waiting h, waiting_withIr h s.pc⟩, fun v => ⟨supplyInput_eq_none_iff.mpr, fun h => ?_⟩⟩
  exact ⟨{ s with input := [v] }, (supplyInput_eq_some v s _).mpr ⟨h, rfl⟩, rfl,
    fun _ => supplyInput_eq_none_iff.mpr (waiting_answered v [] s)⟩

/-! ## Witnesses -/

/-- After `PUSH #5`, `PRNT POP` is fetched from slot 1. -/
theorem witness_stepRunsTheDecodedInstruction :
    step (pushedFive.withFetchWord 32 0x0F020000) =
      exec (.prnt .pop) { pushedFive.withFetchWord 32 0x0F020000 with ir := 1 } :=
  stepRunsTheDecodedInstruction _ (.prnt .pop) rfl (by decide) (by decide) (by decide)

/-- The slot after the program's only instruction, the first PC past memory of a program that fills it, and the all-zero
word inside a program. -/
theorem witness_fetchPastTheProgramHalts :
    step pushedFive = .next { pushedFive with status := .halted .endOfProgram } ∧
    (let s := { pushedFive with pc := 256, launch := { pushedFive.launch with codeEnd := 256 } }
     step s = .next { s with status := .halted .endOfProgram }) ∧
    (let s := pushedFive.withFetchWord 32 0x00000000
     step s = .next { s with status := .halted .endOfProgram }) :=
  ⟨fetchPastTheProgramHalts _ rfl (.inl (by decide)), fetchPastTheProgramHalts _ rfl (.inr (.inl (by decide))),
    fetchPastTheProgramHalts _ rfl (.inr (.inr (by decide)))⟩

/-- `ADD PUSH POP` faults at the read of operand 1 and pops nothing; `MOV R1+ POP` on the empty stack faults at
operand 2, with R1 stepped. -/
theorem witness_operandFaultsComeInStageOrder :
    exec (.add .push .pop) pointers = .next (takeFault .noValue pointers) ∧
    exec (.mov (.autoInc 1) .pop) { pointers with tsp := 224 } =
      .next (takeFault .stackUnderflow (setReg 1 0x43800000#32 { pointers with tsp := 224 })) := by
  obtain ⟨hfirst, -⟩ :=
    operandFaultsComeInStageOrder (.add .push .pop) .readWrite .push [(.source, .pop)] pointers rfl
  obtain ⟨-, hsecond⟩ :=
    operandFaultsComeInStageOrder (.mov (.autoInc 1) .pop) .write (.autoInc 1) [(.source, .pop)]
      { pointers with tsp := 224 } rfl
  exact ⟨hfirst _ _ (.inr ⟨.pushL, pointers, rfl, rfl⟩),
    hsecond .pop (.memL 255) (setReg 1 0x43800000#32 { pointers with tsp := 224 }) .stackUnderflow _ rfl
      (by decide +kernel) nofun (by decide +kernel)⟩

/-- After `PUSH #5`, `SCAN R1+` is the word to fetch, and no input is there. -/
def scanWaits : State := pushedFive.withFetchWord 32 0x17410000

/-- The wait raises IR to slot 1 and leaves R1 unstepped; the host's number is taken there, and not before the SCAN. -/
theorem witness_waitingScanStaysWaiting :
    step scanWaits = .next { scanWaits with ir := 1 } ∧ waiting { scanWaits with ir := 1 } = true ∧
    supplyInput (5 / 2) scanWaits = some { scanWaits with input := [5 / 2] } ∧
    supplyInput (5 / 2) pushedFive = none := by
  obtain ⟨hwaits, hsupply⟩ := waitingScanStaysWaiting scanWaits
  obtain ⟨-, hrefuses⟩ := waitingScanStaysWaiting pushedFive
  have hwaiting : waiting scanWaits = true := by decide +kernel
  obtain ⟨hstep, hstays⟩ := hwaits hwaiting
  obtain ⟨_, htaken, rfl, -⟩ := (hsupply (5 / 2)).2 hwaiting
  exact ⟨hstep, hstays, htaken, (hrefuses (5 / 2)).1 (by decide +kernel)⟩

end Sys2Proof.Machine
end

-- The ALU, its template, and the numbers it stores (43_arithmetic.md).
section
/-! SUPPORT. What the arithmetic template answers once its operands are read, the floored remainder as a fraction of the
divisor, the numbers that always encode, the sign of a stored difference, and the obligations O14 to O18 and O20 to O22
that rest on them. -/

namespace Sys2Proof.Machine

/-! ## What the ALU computes (R211, R213, R214) -/

theorem aluDiv_of_ne_zero (x : Number) {y : Number} (hy : y ≠ 0) :
    aluDiv x y = { result := x / y, recovered := none } :=
  if_neg hy

theorem aluMod_of_ne_zero (x : Number) {y : Number} (hy : y ≠ 0) :
    aluMod x y = { result := x - y * ⌊x / y⌋, recovered := none } :=
  if_neg hy

/-- The floored remainder is the part of the divisor that the floor of the quotient drops. -/
theorem sub_mul_floor_eq_mul_fract (x : Number) {y : Number} (hy : y ≠ 0) :
    x - y * ⌊x / y⌋ = y * Int.fract (x / y) := by
  rw [← Int.self_sub_floor, mul_sub, mul_div_cancel₀ x hy]

/-- The sign of a difference is how its two numbers compare (R37). -/
theorem condOf_sub (x y : Number) : condOf (x - y) = if x < y then .lt else if x = y then .eq else .gt := by
  simp only [condOf, sub_neg, sub_eq_zero]

theorem condOf_of_neg {r : Number} (h : r < 0) : condOf r = .lt := if_pos h

theorem condOf_of_pos {r : Number} (h : 0 < r) : condOf r = .gt := by
  rw [condOf, if_neg h.not_gt, if_neg h.ne']

/-- Settles O21: the remainder is the divisor times a fraction from 0 up to, but not at, 1. -/
theorem modResultHasTheDivisorsSign : Obligations.ModResultHasTheDivisorsSign := by
  intro x y hy
  have hnonneg : 0 ≤ Int.fract (x / y) := Int.fract_nonneg _
  have hlt : Int.fract (x / y) < 1 := Int.fract_lt_one _
  rw [aluMod_of_ne_zero x hy]
  refine ⟨rfl, ⟨⌊x / y⌋, rfl⟩, ?_⟩
  rw [sub_mul_floor_eq_mul_fract x hy]
  exact ⟨fun hpos => ⟨mul_nonneg hpos.le hnonneg, mul_lt_of_lt_one_right hpos hlt⟩,
    fun hneg => ⟨lt_mul_of_lt_one_right hneg hlt, mul_nonpos_of_nonpos_of_nonneg hneg.le hnonneg⟩⟩

/-! ## The template once its operands are read (R209, R216) -/

section Template

variable {op : Number → Number → AluResult} {dst src : Operand} {s s1 s2 : State} {L : Loc} {x y r : Number}
  (hloc : loc dst s = .ok L s1) (hread : readLoc L s1 = .ok x s1) (hval : val src s1 = .ok y s2)
  (hop : op x y = { result := r, recovered := none })

include hloc hval in
/-- The operands leave PC at the instruction. -/
theorem pc_of_operands : s2.pc = s.pc := ((loc_ok_effect hloc).1.keeps.trans (val_ok_effect hval).keeps).pc

include hloc hread hval hop

/-- A result that encodes is stored in the location that operand 1 resolved to. -/
theorem arith_of_encode_word {w : Word} (hw : encode r = .word w) : arith op dst src s = .ok r (L.put w s2) :=
  arith_eq_ok.mpr ⟨L, s1, x, y, s2, w, hloc, hread, hval, by rw [hop]; exact hw, by rw [hop], by rw [hop]; rfl⟩

/-- ADD, MUL, DIV and MOD end there, at the slot after the one the instruction stands in (R191). -/
theorem conclude_arith_advance {w : Word} (hw : encode r = .word w) :
    conclude ((arith op dst src s).bind fun _ s3 => advance s3) = .next { L.put w s2 with pc := s.pc + 1 } := by
  rw [arith_of_encode_word hloc hread hval hop hw, Res.bind_ok, advance_eq, conclude_ok, put_pc,
    pc_of_operands hloc hval]

/-- A result that does not encode is raised in the state that the operands left. -/
theorem conclude_arith_of_encodeOrRaise_raise {c : FaultCause} (hc : encodeOrRaise r s2 = .raise c s2)
    (f : Number → State → Res Nat) : conclude ((arith op dst src s).bind f) = .next (takeFault c s2) := by
  refine conclude_bind_of_raise ?_
  rw [arith, hloc, Res.bind_ok, hread, Res.bind_ok, hval, Res.bind_ok, hop, reportRecovered_none,
    writeLoc_of_encodeOrRaise_raise hc, Res.bind_raise]

end Template

/-! ## ADD, SUB, MUL and DIV (R210 to R213) -/

/-- Settles O14. -/
theorem addStoresTheExactSum : Obligations.AddStoresTheExactSum :=
  fun _ _ _ _ _ _ _ _ _ hloc hread hval hw => conclude_arith_advance (op := aluAdd) hloc hread hval rfl hw

/-- Settles O15: CC is written after the store, from the exact difference. -/
theorem subStoresTheDifferenceAndSetsCC : Obligations.SubStoresTheDifferenceAndSetsCC := by
  intro dst src s s1 s2 L x y w hloc hread hval hw
  rw [exec, execSub, arith_of_encode_word (op := aluSub) hloc hread hval rfl hw, Res.bind_ok, advance_eq, conclude_ok,
    put_pc, pc_of_operands hloc hval, condOf_sub]

/-- Settles O16. -/
theorem mulStoresTheExactProduct : Obligations.MulStoresTheExactProduct :=
  fun _ _ _ _ _ _ _ _ _ hloc hread hval hw => conclude_arith_advance (op := aluMul) hloc hread hval rfl hw

/-- Settles O17. -/
theorem divStoresTheExactQuotient : Obligations.DivStoresTheExactQuotient :=
  fun _ _ _ _ _ _ x _ _ hloc hread hval hy hw =>
    conclude_arith_advance hloc hread hval (aluDiv_of_ne_zero x hy) hw

/-- Settles O20, one clause for each of the four instructions. -/
theorem unstorableResultRaisesEncodeFault : Obligations.UnstorableResultRaisesEncodeFault := by
  intro dst src s s1 s2 L x y r c hloc hread hval hfault
  have hraise : encodeOrRaise r s2 = .raise c s2 := encodeOrRaise_eq_raise.mpr ⟨rfl, hfault⟩
  refine ⟨fun hr => ?add, fun hr => ?sub, fun hr => ?mul, fun hy hr => ?div⟩
  case add => exact conclude_arith_of_encodeOrRaise_raise (op := aluAdd) hloc hread hval (hr ▸ rfl) hraise _
  case sub => exact conclude_arith_of_encodeOrRaise_raise (op := aluSub) hloc hread hval (hr ▸ rfl) hraise _
  case mul => exact conclude_arith_of_encodeOrRaise_raise (op := aluMul) hloc hread hval (hr ▸ rfl) hraise _
  case div => exact conclude_arith_of_encodeOrRaise_raise hloc hread hval (hr ▸ aluDiv_of_ne_zero x hy) hraise _

/-! ## MOD (R214) -/

theorem IsDec2.sub_mul_intCast {x y : Number} (hx : IsDec2 x) (hy : IsDec2 y) (k : Int) : IsDec2 (x - y * k) := by
  obtain ⟨a, ha⟩ := isDec2_iff.mp hx
  obtain ⟨b, hb⟩ := isDec2_iff.mp hy
  exact isDec2_iff.mpr ⟨a - b * k, by push_cast; rw [← ha, ← hb]; ring⟩

/-- A multiple of 1/100 is too coarse to underflow, so a bound on its magnitude makes it encode. -/
theorem IsDec2.exists_encode {v : Number} (hv : IsDec2 v) (hlt : |v| < (2 : Rat) ^ (129 : Int)) :
    ∃ w, encode v = .word w := by
  refine (encodeFaultsOutsideItsRange v).2.2.mpr (or_iff_not_imp_left.mpr fun h0 => ⟨?_, hlt⟩)
  calc (2 : Rat) ^ (-127 : Int)
    _ ≤ (2 : Rat) ^ (-7 : Int) := zpow_le_zpow_right₀ one_le_two (by decide)
    _ ≤ 1 / 100 := by norm_num
    _ ≤ |v| := hv.le_abs h0

theorem decodeNum_abs_lt (w : Word) : |decodeNum w| < (2 : Rat) ^ (129 : Int) :=
  (decodeNum_abs_le w).trans_lt (by norm_num)

/-- A source is a literal of 8 bits or a decoded word, so its magnitude is one that encodes. -/
theorem val_ok_abs_lt {o : Operand} {v : Number} {s t : State} (hwf : o.wf = true) (h : val o s = .ok v t) :
    |v| < (2 : Rat) ^ (129 : Int) := by
  rcases val_ok_value h with ⟨n, rfl, rfl⟩ | ⟨w, rfl⟩
  · have hn : n < 256 := of_decide_eq_true hwf
    calc |(n : Rat)|
      _ = n := Nat.abs_cast n
      _ < 256 := by exact_mod_cast hn
      _ < (2 : Rat) ^ (129 : Int) := by norm_num
  · exact decodeNum_abs_lt w

/-- The floored remainder is no larger than the divisor, whatever their signs. -/
theorem abs_sub_mul_floor_le (x : Number) {y : Number} (hy : y ≠ 0) : |x - y * ⌊x / y⌋| ≤ |y| := by
  rw [sub_mul_floor_eq_mul_fract x hy, abs_mul, Int.abs_fract]
  exact mul_le_of_le_one_right (abs_nonneg y) (Int.fract_lt_one _).le

/-- Settles O18: the remainder is a multiple of 1/100, as its operands are, and no larger than the divisor, so it
encodes. -/
theorem modStoresTheFlooredRemainder : Obligations.ModStoresTheFlooredRemainder := by
  intro dst src s s1 s2 L x y hwf hloc hread hval hy
  obtain ⟨-, -, v, rfl⟩ := readLoc_ok_value hread
  have hdec : IsDec2 (decodeNum v - y * ⌊decodeNum v / y⌋) :=
    (decodeNum_isDec2 v).sub_mul_intCast (val_ok_isDec2 hval) _
  obtain ⟨w, hw⟩ := hdec.exists_encode ((abs_sub_mul_floor_le _ hy).trans_lt (val_ok_abs_lt hwf hval))
  exact ⟨w, hw, conclude_arith_advance hloc hread hval (aluMod_of_ne_zero _ hy) hw⟩

/-! ## CC and the stored difference (R211) -/

/-- What the encoder truncates from a number is less than half of it: the leading bit is always kept. -/
theorem abs_wordValue_sub_lt_half {v : Number} (hv : v ≠ 0) {w : Word} (h : encode v = .word w)
    (hw : w ≠ 0x00000000#32) : |wordValue w - v| < |v| / 2 :=
  calc |wordValue w - v|
    _ < (2 : Rat) ^ floorLog2 |v| / 2 ^ 23 := abs_wordValue_sub_lt_of_encode hv h hw
    _ ≤ |v| / 2 ^ 23 := by gcongr; exact zpow_floorLog2_le (abs_pos.mpr hv)
    _ ≤ |v| / 2 := by gcongr; norm_num

theorem abs_wordValue_sub_decodeNum_le (w : Word) : |wordValue w - decodeNum w| ≤ 1 / 200 := by
  obtain ⟨hhundredths, hnear, -⟩ := decodeRoundsToTheNearestHundredth w
  rw [← hhundredths, ← sub_mul, abs_mul, abs_of_pos (by norm_num : (0 : Rat) < 100)] at hnear
  linarith

/-- A multiple of 1/100 reads back with its sign, however much of it the store truncates: a magnitude of at least 1/100
keeps more than half of itself, and the decoder rounds by no more than half a hundredth. -/
theorem condOf_decodeNum_of_encode {v : Number} (hv : IsDec2 v) {w : Word} (h : encode v = .word w) :
    condOf (decodeNum w) = condOf v := by
  rcases eq_or_ne v 0 with rfl | h0
  · obtain rfl : 0x00000000#32 = w := Encoded.word.inj (encode_zero.symm.trans h)
    rw [decodeNum_eq_of_near hv (by rw [wordValue_zero]; norm_num)]
  · have hmin : 1 / 100 ≤ |v| := hv.le_abs h0
    have hw : w ≠ 0x00000000#32 := encode_ne_zeroWord (le_trans (by norm_num) hmin) h
    obtain ⟨hlo, hhi⟩ := abs_lt.mp (abs_wordValue_sub_lt_half h0 h hw)
    obtain ⟨hround, hround'⟩ := abs_le.mp (abs_wordValue_sub_decodeNum_le w)
    rcases lt_or_gt_of_ne h0 with hneg | hpos
    · rw [abs_of_neg hneg] at hmin hhi
      rw [condOf_of_neg hneg, condOf_of_neg (by linarith)]
    · rw [abs_of_pos hpos] at hmin hlo
      rw [condOf_of_pos hpos, condOf_of_pos (by linarith)]

/-- Settles O22. -/
theorem ccAgreesWithTheStoredDifference : Obligations.CCAgreesWithTheStoredDifference := by
  intro x y w hx hy h
  have hdiff : IsDec2 (x - y) := by simpa using hx.sub_mul_intCast hy 1
  exact condOf_decodeNum_of_encode hdiff h

/-! ## Witnesses -/

/-- `ADD R1 POP`: 255 and the popped 5. -/
theorem witness_addStoresTheExactSum :
    exec (.add (.reg 1) .pop) pointers = .next { setReg 1 0x43820000#32 { pointers with tsp := 224 } with pc := 2 } :=
  addStoresTheExactSum (.reg 1) .pop pointers pointers { pointers with tsp := 224 } (.regL 1) 255 5 0x43820000#32 rfl
    (by decide +kernel) (by decide +kernel) (by decide +kernel)

/-- `SUB I1 R1`: -1 less 255, which is negative. -/
theorem witness_subStoresTheDifferenceAndSetsCC :
    exec (.sub (.reg 14) (.reg 1)) pointers = .next { setReg 14 0xC3800000#32 pointers with pc := 2, cc := .lt } := by
  have hexec := subStoresTheDifferenceAndSetsCC (.reg 14) (.reg 1) pointers pointers pointers (.regL 14) (-1) 255
    0xC3800000#32 rfl (by decide +kernel) (by decide +kernel) (by decide +kernel)
  rw [if_pos (by norm_num)] at hexec
  exact hexec

/-- `MUL &225 #4`: the destination is a slot of memory, which holds 5. -/
theorem witness_mulStoresTheExactProduct :
    exec (.mul (.direct 225) (.imm 4)) pointers = .next { setSlot 225 0x41A00000#32 pointers with pc := 2 } :=
  mulStoresTheExactProduct (.direct 225) (.imm 4) pointers pointers pointers (.memL 225) 5 4 0x41A00000#32
    (by decide +kernel) (by decide +kernel) rfl (by decide +kernel)

/-- `DIV R1 #2`: the quotient 127.5 is exact. -/
theorem witness_divStoresTheExactQuotient :
    exec (.div (.reg 1) (.imm 2)) pointers = .next { setReg 1 0x42FF0000#32 pointers with pc := 2 } :=
  divStoresTheExactQuotient (.reg 1) (.imm 2) pointers pointers pointers (.regL 1) 255 2 0x42FF0000#32 rfl
    (by decide +kernel) rfl (by decide) (by decide +kernel)

/-- `MOD I1 R1`: the remainder of -1 by 255 is 254. -/
theorem witness_modStoresTheFlooredRemainder :
    exec (.mod (.reg 14) (.reg 1)) pointers = .next { setReg 14 0x437E0000#32 pointers with pc := 2 } := by
  have hremainder : encode (-1 - 255 * ⌊(-1 : Number) / 255⌋) = .word 0x437E0000#32 := by decide +kernel
  obtain ⟨w, hw, hexec⟩ := modStoresTheFlooredRemainder (.reg 14) (.reg 1) pointers pointers pointers (.regL 14)
    (-1) 255 rfl rfl (by decide +kernel) (by decide +kernel) (by decide +kernel)
  obtain rfl : w = 0x437E0000#32 := Encoded.word.inj (hw.symm.trans hremainder)
  exact hexec

/-- Numbers at the ends of the encoder's range: R2 holds 3 * 2^127, R3 holds 2^121 and R4 holds 1/100. -/
def extremes : State := setReg 4 0x3C23D70A#32 (setReg 3 0x7C000000#32 (setReg 2 0x7FC00000#32 pointers))

/-- `ADD R2 R2` is too large, and `DIV R4 R3` is too small. -/
theorem witness_unstorableResultRaisesEncodeFault :
    exec (.add (.reg 2) (.reg 2)) extremes = .next (takeFault (.encodeOverflow (3 * 2 ^ 128)) extremes) ∧
    exec (.div (.reg 4) (.reg 3)) extremes = .next (takeFault (.encodeUnderflow (1 / 100 / 2 ^ 121)) extremes) := by
  obtain ⟨hadd, -⟩ := unstorableResultRaisesEncodeFault (.reg 2) (.reg 2) extremes extremes extremes (.regL 2)
    (3 * 2 ^ 127) (3 * 2 ^ 127) (3 * 2 ^ 128) _ rfl (by decide +kernel) (by decide +kernel)
    (.inl ⟨by decide +kernel, rfl⟩)
  obtain ⟨-, -, -, hdiv⟩ := unstorableResultRaisesEncodeFault (.reg 4) (.reg 3) extremes extremes extremes (.regL 4)
    (1 / 100) (2 ^ 121) (1 / 100 / 2 ^ 121) _ rfl (by decide +kernel) (by decide +kernel)
    (.inr ⟨by decide +kernel, rfl⟩)
  exact ⟨hadd (by norm_num), hdiv (by norm_num) rfl⟩

/-- 7 by -3, and -7.5 by 2: the remainder is on the divisor's side of 0. -/
theorem witness_modResultHasTheDivisorsSign :
    (-3 < (aluMod 7 (-3)).result ∧ (aluMod 7 (-3)).result ≤ 0) ∧
    0 ≤ (aluMod (-15 / 2) 2).result ∧ (aluMod (-15 / 2) 2).result < 2 := by
  obtain ⟨-, -, -, hnegative⟩ := modResultHasTheDivisorsSign 7 (-3) (by norm_num)
  obtain ⟨-, -, hpositive, -⟩ := modResultHasTheDivisorsSign (-15 / 2) 2 (by norm_num)
  exact ⟨hnegative (by norm_num), hpositive (by norm_num)⟩

/-- The difference -1/100, which has no exact word, is read back as a negative number. -/
theorem witness_ccAgreesWithTheStoredDifference : condOf (decodeNum 0xBC23D70A#32) = condOf (1 / 100 - 2 / 100) :=
  ccAgreesWithTheStoredDifference (1 / 100) (2 / 100) 0xBC23D70A#32 (by decide +kernel) (by decide +kernel)
    (by decide +kernel)

end Sys2Proof.Machine
end

-- The jumps, CALL and RET (44_control_transfer.md).
section
/-! SUPPORT. Which conditions the jumps test, what CALL and RET answer once their target or the popped word is known,
the natural numbers that the codec keeps, and the obligations O30 to O34 that rest on them. -/

namespace Sys2Proof.Machine

/-! ## The jumps (R230 to R237) -/

theorem condEq_iff {c : Cond} : condEq c = true ↔ c = .eq := by cases c <;> decide
theorem condNe_iff {c : Cond} : condNe c = true ↔ ¬ c = .eq := by cases c <;> decide
theorem condLt_iff {c : Cond} : condLt c = true ↔ c = .lt := by cases c <;> decide
theorem condLe_iff {c : Cond} : condLe c = true ↔ ¬ c = .gt := by cases c <;> decide
theorem condGt_iff {c : Cond} : condGt c = true ↔ c = .gt := by cases c <;> decide
theorem condGe_iff {c : Cond} : condGe c = true ↔ ¬ c = .lt := by cases c <;> decide

/-- A jump whose target resolves keeps what resolving left, taken or not. -/
theorem conclude_jump {target : Operand} {s s1 : State} {p : Nat} (htgt : tgt target s = .ok p s1)
    (cond : Cond → Bool) :
    conclude (jump cond target s) = .next { s1 with pc := if cond s.cc then p else s.pc + 1 } :=
  conclude_eq_next.mpr (.inl ⟨_, s1, jump_eq_ok.mpr ⟨p, htgt, rfl⟩, rfl⟩)

/-- Settles O30. -/
theorem jmpGoesToItsTarget : Obligations.JmpGoesToItsTarget := fun _ _ _ _ htgt => conclude_jump htgt condAlways

/-- Settles O31: the six instructions are one template, each with the condition that it tests. -/
theorem conditionalJumpsTestCC : Obligations.ConditionalJumpsTestCC := by
  intro target s s1 p htgt
  have hjump := conclude_jump htgt
  refine ⟨(hjump condEq).trans ?eq, (hjump condNe).trans ?ne, (hjump condLt).trans ?lt, (hjump condLe).trans ?le,
    (hjump condGt).trans ?gt, (hjump condGe).trans ?ge⟩
  case eq => simp only [condEq_iff]
  case ne => simp only [condNe_iff, ite_not]
  case lt => simp only [condLt_iff]
  case le => simp only [condLe_iff, ite_not]
  case gt => simp only [condGt_iff]
  case ge => simp only [condGe_iff, ite_not]

/-! ## CALL (R238) -/

/-- Resolving the target leaves PC at the CALL, so the address to push is that of the slot after it. -/
theorem exec_call_of_tgt {target : Operand} {s s1 : State} {p : Nat} (htgt : tgt target s = .ok p s1) :
    exec (.call target) s =
      conclude ((writeLoc .pushL ((s.pc + 1 : Nat) : Number) s1).bind fun _ s2 => .ok p s2) := by
  obtain ⟨heffect, -⟩ := tgt_ok_effect htgt
  rw [exec, execCall, htgt, Res.bind_ok, heffect.keeps.pc]

/-- Settles O32: the push has room, or it faults before it changes anything. -/
theorem callPushesTheReturnAddress : Obligations.CallPushesTheReturnAddress := by
  intro target s s1 p w htgt hw
  obtain ⟨hpush, hfault⟩ := pushStoresAboveTheTop w s1
  rw [exec_call_of_tgt htgt, writeLoc_of_encode_word hw, storeLoc]
  refine ⟨fun hroom => ?room, fun hfull => ?full⟩
  case room => rw [hpush hroom, Res.bind_ok, conclude_ok, Loc.put]
  case full => exact conclude_bind_of_raise (hfault hfull)

/-! ## RET (R239) -/

/-- Once a number is popped, it is only checked, in the state that the pop left. -/
theorem exec_ret_of_pop {v : Number} {s t : State} (hpop : pop s = .ok v t) :
    exec .ret s = conclude (checkAddr v t) := by
  rw [exec, execRet, hpop, Res.bind_ok]

/-- The address check reads NMEM alone, so it raises the same in any state with that NMEM. -/
theorem checkAddr_raise_congr {v : Number} {c : FaultCause} {s t : State} (h : checkAddr v s = .raise c s)
    (hl : t.launch = s.launch) : checkAddr v t = .raise c t := by
  obtain ⟨-, hcause⟩ := checkAddr_eq_raise.mp h
  exact checkAddr_eq_raise.mpr ⟨rfl, by rwa [hl]⟩

/-- Settles O33. -/
theorem retPopsTheStackIntoPC : Obligations.RetPopsTheStackIntoPC := by
  intro s
  obtain ⟨hempty, hpop⟩ := popReadsTheTopAndKeepsTheSlot s
  refine ⟨fun h => conclude_bind_of_raise (hempty h), fun hspr hmem => ?popped⟩
  case popped =>
    rw [exec_ret_of_pop (hpop hspr hmem)]
    refine ⟨fun p hv hp => ?address, fun c hc => ?noAddress⟩
    case address => exact conclude_eq_next.mpr (.inl ⟨p, _, checkAddr_eq_ok.mpr ⟨hv, hp, rfl⟩, rfl⟩)
    case noAddress => exact conclude_eq_next.mpr (.inr ⟨c, _, checkAddr_raise_congr hc rfl, rfl⟩)

/-! ## The natural numbers that the codec keeps (R134) -/

/-- Up to exponent 23 no bit of a natural number lies below the fraction, so the truncation drops nothing. -/
theorem truncated_natCast (m : Nat) {e : Int} (he : e ≤ 23) : truncated (m : Number) e = m := by
  obtain ⟨k, rfl⟩ : ∃ k : Nat, e = 23 - k := ⟨(23 - e).toNat, by omega⟩
  have hpow : (2 : Rat) ^ (23 - k : Int) = 2 ^ 23 / 2 ^ k := by
    rw [zpow_sub₀ two_ne_zero, zpow_natCast]; norm_num
  have hbits : ((m : Rat) / (2 ^ 23 / 2 ^ k) - 1) * 2 ^ 23 = ((m * 2 ^ k - 2 ^ 23 : Int) : Rat) := by
    push_cast; field_simp; norm_num
  rw [truncated, Nat.abs_cast, hpow, hbits, Int.floor_intCast]
  push_cast; field_simp; ring

/-- A natural number below `2 ^ 24` comes back from the codec as it is. -/
theorem roundTrip_natCast {m : Nat} (hlt : m < 2 ^ 24) : ∃ w, encode (m : Number) = .word w ∧ decodeNum w = m := by
  have hrat : (m : Rat) < (2 : Rat) ^ (24 : Int) := by exact_mod_cast hlt
  rcases m.eq_zero_or_pos with rfl | hm
  · exact roundTrip_of_abs_lt (isDec2_natCast 0) (by norm_num)
  · have hone : (1 : Rat) ≤ m := Nat.one_le_cast.mpr hm
    have hpos : (0 : Rat) < m := one_pos.trans_le hone
    have hexp : floorLog2 (m : Rat) ≤ 23 := Int.lt_add_one_iff.mp ((lt_zpow_iff_floorLog2_lt hpos).mp hrat)
    obtain ⟨w, hw⟩ := exists_encode_natCast (hrat.trans (by norm_num))
    have hw0 : w ≠ 0x00000000#32 :=
      encode_ne_zeroWord (by rw [Nat.abs_cast]; exact (zpow_le_one_of_nonpos₀ one_le_two (by decide)).trans hone) hw
    have hvalue : wordValue w = m := by
      rw [wordValue_of_encode hpos.ne' hw hw0, if_neg hpos.not_gt, one_mul, Nat.abs_cast, truncated_natCast m hexp]
    exact ⟨w, hw, decodeNum_eq_of_near (isDec2_natCast m) (by rw [hvalue]; norm_num)⟩

/-! ## CALL, then RET (R238 to R240) -/

/-- The word pushed is the word on top. -/
theorem readSlot_put_pushL {s : State} (hwf : s.mem.wf) (w : Word) :
    readSlot (Loc.pushL.put w s).mem (s.tsp + 1) = w := by
  rw [Loc.put, setSlot_mem, readSlot_writeSlot hwf, if_pos rfl]

/-- Settles O34: the return address is below `2 ^ 24`, so the codec keeps it, and RET finds it in the slot above the old
top, which is the one slot that CALL stores to. -/
theorem retUndoesCall : Obligations.RetUndoesCall := by
  intro target s s1 p hinv hnmem htgt hpc hroom
  obtain ⟨heffect, -⟩ := tgt_ok_effect htgt
  have hkeeps : Keeps s s1 := heffect.keeps
  have htsp : s1.tsp = s.tsp := heffect.tsp (tgt_ok_keeps_stack htgt)
  have hspr : s1.launch.spr < s1.tsp + 1 := by rw [htsp, hkeeps.launch]; exact Nat.lt_succ_of_le hinv.spr_le_tsp
  have hroom1 : s1.tsp + 1 < s1.launch.nmem := by rwa [htsp, hkeeps.launch]
  have hpc1 : s.pc + 1 < s1.launch.nmem := by rwa [hkeeps.launch]
  obtain ⟨w, hw, hdecode⟩ := roundTrip_natCast (hpc.trans_le hnmem)
  have htop : decodeNum (readSlot (Loc.pushL.put w s1).mem (s1.tsp + 1)) = (s.pc + 1 : Nat) := by
    rw [readSlot_put_pushL (hkeeps.mem ▸ hinv.mem_wf), hdecode]
  obtain ⟨hcall, -⟩ := callPushesTheReturnAddress target s s1 p w htgt hw
  obtain ⟨-, hpop⟩ := retPopsTheStackIntoPC { Loc.pushL.put w s1 with pc := p }
  obtain ⟨hret, -⟩ := hpop hspr hroom1
  have hslot : storedSlot (.call target) s = some (s.tsp + 1) := by simp only [storedSlot, htgt, htsp]
  have hframe := onlyTheStoredSlotChanges (.call target) s _ hinv.mem_wf (hcall hroom1)
  refine ⟨_, _, hcall hroom1, rfl, ?callTsp, hret (s.pc + 1) htop hpc1, rfl, htsp, hkeeps.status, ?frame⟩
  case callTsp => exact congrArg (· + 1) htsp
  case frame => exact hslot ▸ hframe.congr rfl rfl

/-! ## Witnesses -/

/-- `JMP R1+` steps R1 and goes to the last slot of memory. -/
theorem witness_jmpGoesToItsTarget : exec (.jmp (.autoInc 1)) pointers = .next jumpedThroughR1 :=
  jmpGoesToItsTarget (.autoInc 1) pointers (setReg 1 0x43800000#32 pointers) 255 (by decide +kernel)

/-- CC is EQ: `JEQ R1+` jumps, and `JNE R1+` goes on with R1 stepped all the same. -/
theorem witness_conditionalJumpsTestCC :
    exec (.jeq (.autoInc 1)) pointers = .next jumpedThroughR1 ∧
    exec (.jne (.autoInc 1)) pointers = .next { jumpedThroughR1 with pc := 2 } := by
  obtain ⟨hjeq, hjne, -⟩ := conditionalJumpsTestCC (.autoInc 1) pointers (setReg 1 0x43800000#32 pointers) 255
    (by decide +kernel)
  exact ⟨hjeq, hjne⟩

/-- The last CALL that has room, and the first that has none. -/
theorem witness_callPushesTheReturnAddress :
    exec (.call (.direct 6)) { pointers with tsp := 254 } =
      .next { setSlot 255 0x40000000#32 { pointers with tsp := 255 } with pc := 6 } ∧
    exec (.call (.direct 6)) { pointers with tsp := 255 } =
      .next (takeFault (.addressOutOfRange (256 : Nat)) { pointers with tsp := 255 }) := by
  have hencode : encode ((2 : Nat) : Number) = .word 0x40000000#32 := by decide +kernel
  obtain ⟨hroom, -⟩ := callPushesTheReturnAddress (.direct 6) { pointers with tsp := 254 }
    { pointers with tsp := 254 } 6 0x40000000#32 (by decide +kernel) hencode
  obtain ⟨-, hfull⟩ := callPushesTheReturnAddress (.direct 6) { pointers with tsp := 255 }
    { pointers with tsp := 255 } 6 0x40000000#32 (by decide +kernel) hencode
  exact ⟨hroom (by decide), hfull (by decide)⟩

/-- RET on the 5 that was pushed, on the empty stack, and on 3.5. -/
theorem witness_retPopsTheStackIntoPC :
    exec .ret pointers = .next { pointers with tsp := 224, pc := 5 } ∧
    exec .ret { pointers with tsp := 224 } = .next (takeFault .stackUnderflow { pointers with tsp := 224 }) ∧
    exec .ret (setSlot 225 0x40600000#32 pointers) =
      .next (takeFault (.addressNotInteger (7 / 2)) { setSlot 225 0x40600000#32 pointers with tsp := 224 }) := by
  obtain ⟨-, hpop⟩ := retPopsTheStackIntoPC pointers
  obtain ⟨hempty, -⟩ := retPopsTheStackIntoPC { pointers with tsp := 224 }
  obtain ⟨-, hpop'⟩ := retPopsTheStackIntoPC (setSlot 225 0x40600000#32 pointers)
  obtain ⟨haddress, -⟩ := hpop (by decide) (by decide)
  obtain ⟨-, hnoAddress⟩ := hpop' (by decide) (by decide)
  exact ⟨haddress 5 decodeNum_pointers_top (by decide), hempty (by decide), hnoAddress _ (by decide +kernel)⟩

/-- `CALL 6` above the 5 on the stack, then RET: back at the slot after the CALL, with the 5 on top. -/
theorem witness_retUndoesCall :
    ∃ u, exec .ret calledSix = .next u ∧ u.pc = 2 ∧ u.tsp = 225 ∧ readSlot u.mem 225 = 0x40A00000#32 := by
  obtain ⟨t, u, hcall, -, -, hret, hpc, htsp, -, hframe⟩ := retUndoesCall (.direct 6) pushedFive pushedFive 6
    witness_stepKeepsTheInvariant (by decide) (by decide +kernel) (by decide) (by decide)
  obtain rfl : calledSix = t := Host.Outcome.next.inj (exec_call_pushedFive.symm.trans hcall)
  have hkept : readSlot u.mem 225 = readSlot pushedFive.mem 225 := hframe.readSlot_eq (by decide)
  exact ⟨u, hret, hpc, htsp, hkept.trans (by decide)⟩

end Sys2Proof.Machine
end

-- MOV, PUSH and POP, and the instructions that EncodeFault comes from (45_data_movement.md).
section
/-! SUPPORT. The values that always encode, what a store that ends an instruction answers, the parts of an instruction
that raise nothing but AddressFault and StackFault, and the obligations O23 to O25 and O37 that rest on them. -/

namespace Sys2Proof.Machine

/-! ## Values that always encode (R9, R249) -/

theorem exists_encode_decodeNum (w : Word) : ∃ w', encode (decodeNum w) = .word w' :=
  (decodeNum_isDec2 w).exists_encode (decodeNum_abs_lt w)

theorem exists_encode_of_val {o : Operand} {v : Number} {s t : State} (hwf : o.wf = true) (h : val o s = .ok v t) :
    ∃ w, encode v = .word w :=
  (val_ok_isDec2 h).exists_encode (val_ok_abs_lt hwf h)

/-! ## The store that ends MOV, PUSH and POP (R174, R191) -/

/-- A value that encodes is stored in the location that an operand resolved to, where a push has room, and PC goes one
further. -/
theorem conclude_writeLoc_advance {L : Loc} {o : Operand} {v : Number} {w : Word} {s u : State} (hL : L.Valid o s)
    (hkeeps : Keeps s u) (hw : encode v = .word w) (hroom : L = .pushL → u.tsp + 1 < u.launch.nmem) :
    conclude ((writeLoc L v u).bind fun _ t => advance t) = .next { L.put w u with pc := s.pc + 1 } := by
  have hstores : Stores L w u (L.put w u) := stores_put hL hkeeps.launch hkeeps.nreg hroom w
  rw [writeLoc_eq_ok (u := ()).mpr ⟨w, hw, hstores⟩, Res.bind_ok, advance_eq, conclude_ok, put_pc, hkeeps.pc]

/-- A value that encodes is not pushed on the full stack, and the push changes nothing (R171). -/
theorem conclude_writeLoc_pushL_of_full {v : Number} {w : Word} {u : State} (hw : encode v = .word w)
    (hfull : u.launch.nmem ≤ u.tsp + 1) (f : Unit → State → Res Nat) :
    conclude ((writeLoc .pushL v u).bind f) = .next (takeFault (.addressOutOfRange ((u.tsp + 1 : Nat) : Number)) u) := by
  rw [writeLoc_of_encode_word hw]
  exact conclude_bind_of_raise ((pushStoresAboveTheTop w u).2 hfull)

/-! ## MOV (R250) -/

theorem exec_mov_of_operands {dst src : Operand} {s s1 s2 : State} {L : Loc} {v : Number}
    (hloc : loc dst s = .ok L s1) (hval : val src s1 = .ok v s2) :
    exec (.mov dst src) s = conclude ((writeLoc L v s2).bind fun _ t => advance t) := by
  rw [exec, execMov, hloc, Res.bind_ok, hval, Res.bind_ok]

/-- Settles O23: a source's value always encodes, so only a push on the full stack fails. -/
theorem movStoresTheSourceValue : Obligations.MovStoresTheSourceValue := by
  intro dst src s s1 s2 L v hwf hloc hval
  obtain ⟨heffect, hvalid⟩ := loc_ok_effect hloc
  obtain ⟨w, hw⟩ := exists_encode_of_val hwf hval
  rw [exec_mov_of_operands hloc hval]
  refine ⟨fun hroom => ⟨w, hw, ?room⟩, ?full⟩
  case room => exact conclude_writeLoc_advance hvalid (heffect.keeps.trans (val_ok_effect hval).keeps) hw hroom
  case full =>
    rintro rfl hfull
    exact conclude_writeLoc_pushL_of_full hw hfull _

/-! ## PUSH (R251) -/

theorem exec_push_of_val {src : Operand} {s s1 : State} {v : Number} (hval : val src s = .ok v s1) :
    exec (.push src) s = conclude ((writeLoc .pushL v s1).bind fun _ t => advance t) := by
  rw [exec, execPush, hval, Res.bind_ok]

/-- Settles O24: PUSH stores where the operand `PUSH` of a MOV does. -/
theorem pushInstructionPushesTheValue : Obligations.PushInstructionPushesTheValue := by
  intro src s s1 v hwf hval
  have hvalid : Loc.pushL.Valid .push s := rfl
  obtain ⟨w, hw⟩ := exists_encode_of_val hwf hval
  rw [exec_push_of_val hval]
  refine ⟨fun hroom => ⟨w, hw, ?room⟩, fun hfull => ?full⟩
  case room => exact conclude_writeLoc_advance hvalid (val_ok_effect hval).keeps hw fun _ => hroom
  case full => exact conclude_writeLoc_pushL_of_full hw hfull _

/-! ## POP (R252) -/

theorem exec_pop_of_loc {dst : Operand} {s s1 : State} {L : Loc} (hloc : loc dst s = .ok L s1) :
    exec (.pop dst) s =
      conclude ((pop s1).bind fun v s2 => (writeLoc L v s2).bind fun _ t => advance t) := by
  rw [exec, execPop, hloc, Res.bind_ok]

theorem pop_ok_keeps {v : Number} {s t : State} (h : pop s = .ok v t) : Keeps s t := by
  obtain ⟨-, -, -, rfl⟩ := pop_eq_ok.mp h
  constructor <;> rfl

/-- Settles O25: a popped number encodes again, and the pop has made room for a push. -/
theorem popInstructionFillsTheDestination : Obligations.PopInstructionFillsTheDestination := by
  intro dst s
  refine ⟨fun c s1 hloc => ?noLocation, fun L s1 hloc => ?_⟩
  case noLocation =>
    obtain rfl := loc_raise_state hloc
    exact ⟨rfl, conclude_bind_of_raise hloc⟩
  obtain ⟨heffect, hvalid⟩ := loc_ok_effect hloc
  obtain ⟨hunderflow, hpop⟩ := popReadsTheTopAndKeepsTheSlot s1
  rw [exec_pop_of_loc hloc]
  refine ⟨fun hempty => conclude_bind_of_raise (hunderflow hempty), fun hspr hmem => ?popped⟩
  case popped =>
    have hpopped := hpop hspr hmem
    obtain ⟨w, hw⟩ := exists_encode_decodeNum (readSlot s1.mem s1.tsp)
    rw [hpopped, Res.bind_ok]
    refine ⟨w, hw, conclude_writeLoc_advance hvalid (heffect.keeps.trans (pop_ok_keeps hpopped)) hw fun _ => ?room⟩
    case room =>
      change s1.tsp - 1 + 1 < s1.launch.nmem
      omega

/-! ## The parts of an instruction that raise no EncodeFault (R301) -/

/-- The part, run in the state `s`, leaves the status as it is, and all it can raise is an AddressFault or a
StackFault. -/
structure Res.OnlyAccessFaults {α : Type} (s : State) (r : Res α) : Prop where
  status : ∀ a t, r = .ok a t → t.status = s.status
  raises : ∀ c t, r = .raise c t → c.kind = .addressFault ∨ c.kind = .stackFault

theorem onlyAccessFaults_ok {α : Type} {a : α} {s t : State} (h : t.status = s.status) :
    (Res.ok a t).OnlyAccessFaults s where
  status _ _ e := by cases e; exact h
  raises _ _ e := nomatch e

theorem onlyAccessFaults_raise {α : Type} {c : FaultCause} {s t : State} (h : c.kind = .addressFault) :
    (Res.raise (α := α) c t).OnlyAccessFaults s where
  status _ _ e := nomatch e
  raises _ _ e := by cases e; exact .inl h

/-- The second part is judged only on what the first one answers. -/
theorem Res.OnlyAccessFaults.bind {α β : Type} {s : State} {r : Res α} {f : α → State → Res β}
    (h : r.OnlyAccessFaults s) (hf : ∀ a u, r = .ok a u → (f a u).OnlyAccessFaults u) :
    (r.bind f).OnlyAccessFaults s := by
  cases r with
  | ok a u =>
    have hu := hf a u rfl
    exact ⟨fun b t hb => (hu.status b t hb).trans (h.status a u rfl), hu.raises⟩
  | raise c u => exact ⟨fun _ _ e => (nomatch e), fun d t e => h.raises d t (by cases e; rfl)⟩

/-- A part of this kind does not end an instruction of a running machine in EncodeFault. -/
theorem Res.OnlyAccessFaults.status_ne {r : Res Nat} {s t : State} (h : r.OnlyAccessFaults s)
    (hrunning : s.status = .running) (hnext : conclude r = .next t) (why : FaultReason) (p : Nat) :
    t.status ≠ .faulted .encodeFault why p := by
  rcases conclude_eq_next.mp hnext with ⟨n, u, hr, rfl⟩ | ⟨c, u, hr, rfl⟩
  · rw [show u.status = .running from (h.status n u hr).trans hrunning]
    exact nofun
  · intro hstatus
    obtain ⟨hkind, -, -⟩ := Status.faulted.inj hstatus
    have hraised := h.raises c u hr
    rw [hkind] at hraised
    exact nomatch hraised

/-! ## Checks, reads and writes -/

theorem checkReg_onlyAccessFaults (n : Nat) (s : State) : (checkReg n s).OnlyAccessFaults s where
  status _ _ h := by obtain ⟨-, -, rfl⟩ := checkReg_eq_ok.mp h; rfl
  raises _ _ h := by obtain ⟨-, rfl, -⟩ := checkReg_eq_raise.mp h; exact .inl rfl

theorem checkAddr_onlyAccessFaults (v : Number) (s : State) : (checkAddr v s).OnlyAccessFaults s where
  status _ _ h := by obtain ⟨-, -, rfl⟩ := checkAddr_eq_ok.mp h; rfl
  raises _ _ h := by obtain ⟨-, ⟨-, rfl⟩ | ⟨-, -, rfl⟩⟩ := checkAddr_eq_raise.mp h <;> exact .inl rfl

theorem readReg_onlyAccessFaults (n : Nat) (s : State) : (readReg n s).OnlyAccessFaults s :=
  (checkReg_onlyAccessFaults n s).bind fun _ _ _ => onlyAccessFaults_ok rfl

theorem readMem_onlyAccessFaults (p : Nat) (s : State) : (readMem p s).OnlyAccessFaults s :=
  (checkAddr_onlyAccessFaults p s).bind fun _ _ _ => onlyAccessFaults_ok rfl

theorem readLoc_onlyAccessFaults (L : Loc) (s : State) : (readLoc L s).OnlyAccessFaults s := by
  cases L with
  | regL n => exact readReg_onlyAccessFaults n s
  | memL p => exact readMem_onlyAccessFaults p s
  | pushL => exact onlyAccessFaults_raise rfl

theorem pop_onlyAccessFaults (s : State) : (pop s).OnlyAccessFaults s where
  status _ _ h := (pop_ok_keeps h).status
  raises _ _ h := by
    obtain ⟨-, ⟨-, rfl⟩ | ⟨-, -, rfl⟩⟩ := pop_eq_raise.mp h
    · exact .inr rfl
    · exact .inl rfl

theorem top_onlyAccessFaults (s : State) : (top s).OnlyAccessFaults s where
  status _ _ h := by obtain ⟨-, -, -, rfl⟩ := top_eq_ok.mp h; rfl
  raises _ _ h := by
    obtain ⟨-, ⟨-, rfl⟩ | ⟨-, -, rfl⟩⟩ := top_eq_raise.mp h
    · exact .inr rfl
    · exact .inl rfl

theorem storeLoc_onlyAccessFaults (L : Loc) (w : Word) (s : State) : (storeLoc L w s).OnlyAccessFaults s where
  status _ _ h := by rw [stores_eq_put (storeLoc_eq_ok.mp h), put_status]
  raises c _ h := by
    refine .inl ?_
    cases L with
    | regL n => rw [(writeReg_eq_raise.mp h).2.1]; rfl
    | memL p => rw [(writeMem_eq_raise.mp h).2.1]; rfl
    | pushL => rw [(push_eq_raise.mp h).2.1]; rfl

theorem writeLoc_onlyAccessFaults {v : Number} (hv : ∃ w, encode v = .word w) (L : Loc) (s : State) :
    (writeLoc L v s).OnlyAccessFaults s := by
  obtain ⟨w, hw⟩ := hv
  rw [writeLoc_of_encode_word hw]
  exact storeLoc_onlyAccessFaults L w s

/-! ## Operands -/

theorem eaIndexed_onlyAccessFaults (idx d : Nat) (s : State) : (eaIndexed idx d s).OnlyAccessFaults s :=
  (readReg_onlyAccessFaults idx s).bind fun v u _ => checkAddr_onlyAccessFaults (v + d) u

theorem eaInc_onlyAccessFaults (n : Nat) (s : State) : (eaInc n s).OnlyAccessFaults s := by
  refine (readReg_onlyAccessFaults n s).bind fun v s1 hv => (checkAddr_onlyAccessFaults v s1).bind fun p s2 hp => ?_
  obtain ⟨-, rfl, -⟩ := readReg_eq_ok.mp hv
  obtain ⟨hnat, -, -⟩ := checkAddr_eq_ok.mp hp
  have hencode : ∃ w, encode ((p + 1 : Nat) : Number) = .word w :=
    exists_encode_natCast (by rw [Nat.cast_succ, ← hnat]; exact decodeNum_add_one_lt _)
  rw [Nat.cast_succ] at hencode
  exact (writeLoc_onlyAccessFaults hencode _ s2).bind fun _ _ _ => onlyAccessFaults_ok rfl

theorem eaDec_onlyAccessFaults (n : Nat) (s : State) : (eaDec n s).OnlyAccessFaults s := by
  refine (readReg_onlyAccessFaults n s).bind fun v s1 hv =>
    (checkAddr_onlyAccessFaults (v - 1) s1).bind fun p s2 hp => ?_
  obtain ⟨-, rfl, -⟩ := readReg_eq_ok.mp hv
  obtain ⟨hnat, -, -⟩ := checkAddr_eq_ok.mp hp
  have hencode : ∃ w, encode (p : Number) = .word w :=
    exists_encode_natCast (by linarith [decodeNum_add_one_lt (regWord s n)])
  exact (writeLoc_onlyAccessFaults hencode _ s2).bind fun _ _ _ => onlyAccessFaults_ok rfl

/-- An operand with an effective address does no more in any of its uses than the address does. -/
theorem HasAddress.onlyAccessFaults {o : Operand} {s : State} {ea : Res Nat} (h : HasAddress o s ea)
    (hea : ea.OnlyAccessFaults s) :
    (val o s).OnlyAccessFaults s ∧ (loc o s).OnlyAccessFaults s ∧ (tgt o s).OnlyAccessFaults s := by
  rw [h.val_eq, h.loc_eq, h.tgt_eq]
  exact ⟨hea.bind fun p u _ => readMem_onlyAccessFaults p u, hea.bind fun _ _ _ => onlyAccessFaults_ok rfl, hea⟩

/-- Whatever the operand and its use, resolving it raises no EncodeFault: the one number it may write back encodes
(R169). -/
theorem operand_onlyAccessFaults (o : Operand) (s : State) :
    (val o s).OnlyAccessFaults s ∧ (loc o s).OnlyAccessFaults s ∧ (tgt o s).OnlyAccessFaults s := by
  have noUse {α : Type} {c : FaultCause} (hc : c.kind = .addressFault) : (Res.raise (α := α) c s).OnlyAccessFaults s :=
    onlyAccessFaults_raise hc
  cases o with
  | imm n => exact ⟨onlyAccessFaults_ok rfl, noUse rfl, checkAddr_onlyAccessFaults n s⟩
  | reg n =>
    exact ⟨readReg_onlyAccessFaults n s, (checkReg_onlyAccessFaults n s).bind fun _ _ _ => onlyAccessFaults_ok rfl,
      noUse rfl⟩
  | regInd n =>
    exact (hasAddress_regInd n s).onlyAccessFaults
      ((readReg_onlyAccessFaults n s).bind fun v u _ => checkAddr_onlyAccessFaults v u)
  | direct a => exact (hasAddress_direct a s).onlyAccessFaults (checkAddr_onlyAccessFaults a s)
  | indirect a =>
    exact (hasAddress_indirect a s).onlyAccessFaults
      ((readMem_onlyAccessFaults a s).bind fun v u _ => checkAddr_onlyAccessFaults v u)
  | indexed1 d => exact (hasAddress_indexed1 d s).onlyAccessFaults (eaIndexed_onlyAccessFaults _ d s)
  | indexed2 d => exact (hasAddress_indexed2 d s).onlyAccessFaults (eaIndexed_onlyAccessFaults _ d s)
  | top => exact ⟨top_onlyAccessFaults s, noUse rfl, noUse rfl⟩
  | push => exact ⟨noUse rfl, onlyAccessFaults_ok rfl, noUse rfl⟩
  | pop => exact ⟨pop_onlyAccessFaults s, noUse rfl, noUse rfl⟩
  | autoInc n => exact (hasAddress_autoInc n s).onlyAccessFaults (eaInc_onlyAccessFaults n s)
  | autoDec n => exact (hasAddress_autoDec n s).onlyAccessFaults (eaDec_onlyAccessFaults n s)

theorem val_onlyAccessFaults (o : Operand) (s : State) : (val o s).OnlyAccessFaults s :=
  (operand_onlyAccessFaults o s).1

theorem loc_onlyAccessFaults (o : Operand) (s : State) : (loc o s).OnlyAccessFaults s :=
  (operand_onlyAccessFaults o s).2.1

theorem tgt_onlyAccessFaults (o : Operand) (s : State) : (tgt o s).OnlyAccessFaults s :=
  (operand_onlyAccessFaults o s).2.2

/-! ## EncodeFault (R301) -/

/-- A store of a number that encodes, and then the PC that the instruction answers. -/
theorem writeLoc_bind_onlyAccessFaults {v : Number} (hv : ∃ w, encode v = .word w) (L : Loc) (s : State)
    {next : State → Nat} : ((writeLoc L v s).bind fun _ t => .ok (next t) t).OnlyAccessFaults s :=
  (writeLoc_onlyAccessFaults hv L s).bind fun _ _ _ => onlyAccessFaults_ok rfl

theorem jump_onlyAccessFaults (cond : Cond → Bool) (target : Operand) (s : State) :
    (jump cond target s).OnlyAccessFaults s := by
  refine (tgt_onlyAccessFaults target s).bind fun p u _ => ?_
  cases cond u.cc with
  | true => exact onlyAccessFaults_ok rfl
  | false => exact onlyAccessFaults_ok rfl

@[simp] theorem reportRecovered_status (c : Option FaultCause) (s : State) :
    (reportRecovered c s).status = s.status := by cases c <;> rfl

/-- MOD is the one arithmetic instruction whose result always encodes: no remainder is larger than the divisor (R214). -/
theorem arith_aluMod_onlyAccessFaults {dst src : Operand} (hwf : src.wf = true) (s : State) :
    (arith aluMod dst src s).OnlyAccessFaults s := by
  refine (loc_onlyAccessFaults dst s).bind fun L s1 hloc => (readLoc_onlyAccessFaults L s1).bind fun x s2 hread =>
    (val_onlyAccessFaults src s2).bind fun y s3 hval => ?_
  obtain ⟨rfl, -, -⟩ := readLoc_ok_value hread
  have hencode : ∃ w, encode (aluMod x y).result = .word w := by
    rcases eq_or_ne y 0 with rfl | hy
    · exact ⟨_, encode_zero⟩
    · obtain ⟨w, hw, -⟩ := modStoresTheFlooredRemainder dst src s s2 s3 L x y hwf hloc hread hval hy
      exact ⟨w, by rw [aluMod_of_ne_zero x hy]; exact hw⟩
  have hwrite := (writeLoc_onlyAccessFaults hencode L (reportRecovered (aluMod x y).recovered s3)).bind
    (f := fun _ t => .ok (aluMod x y).result t) fun _ _ _ => onlyAccessFaults_ok rfl
  exact ⟨fun a t h => (hwrite.status a t h).trans (reportRecovered_status _ s3), hwrite.raises⟩

/-- Settles O37: any other instruction is built of parts that raise no EncodeFault, since all that it stores is a
source's value, a popped number, a return address or a remainder, and these encode. -/
theorem onlyArithmeticAndScanRaiseEncodeFault : Obligations.OnlyArithmeticAndScanRaiseEncodeFault := by
  intro i s t why p hwf hrunning hpc hexec hstatus
  have hoperands : ∀ o ∈ i.operands, o.2.wf = true := List.all_eq_true.mp hwf
  have noFault {r : Res Nat} (h : r.OnlyAccessFaults s) (hnext : conclude r = .next t) : False :=
    h.status_ne hrunning hnext why p hstatus
  cases i with
  | add dst src => exact .inl ⟨dst, src, rfl⟩
  | sub dst src => exact .inr (.inl ⟨dst, src, rfl⟩)
  | mul dst src => exact .inr (.inr (.inl ⟨dst, src, rfl⟩))
  | div dst src => exact .inr (.inr (.inr (.inl ⟨dst, src, rfl⟩)))
  | scan dst => exact .inr (.inr (.inr (.inr ⟨dst, rfl⟩)))
  | eop =>
    cases hexec
    cases hstatus
  | prnt src =>
    exact (noFault ((val_onlyAccessFaults src s).bind fun v u _ => onlyAccessFaults_ok (t := emit v u) rfl) hexec).elim
  | mov dst src =>
    have hsrc : src.wf = true := hoperands (.source, src) (.tail _ (.head _))
    exact (noFault ((loc_onlyAccessFaults dst s).bind fun L s1 _ => (val_onlyAccessFaults src s1).bind fun v s2 hval =>
      writeLoc_bind_onlyAccessFaults (exists_encode_of_val hsrc hval) L s2) hexec).elim
  | push src =>
    have hsrc : src.wf = true := hoperands (.source, src) (.head _)
    exact (noFault ((val_onlyAccessFaults src s).bind fun v s1 hval =>
      writeLoc_bind_onlyAccessFaults (exists_encode_of_val hsrc hval) .pushL s1) hexec).elim
  | pop dst =>
    refine (noFault ((loc_onlyAccessFaults dst s).bind fun L s1 _ => (pop_onlyAccessFaults s1).bind fun v s2 hpop =>
      writeLoc_bind_onlyAccessFaults ?_ L s2) hexec).elim
    obtain ⟨-, -, rfl, -⟩ := pop_eq_ok.mp hpop
    exact exists_encode_decodeNum _
  | mod dst src =>
    have hsrc : src.wf = true := hoperands (.source, src) (.tail _ (.head _))
    exact (noFault ((arith_aluMod_onlyAccessFaults hsrc s).bind fun _ _ _ => onlyAccessFaults_ok rfl) hexec).elim
  | call target =>
    refine (noFault ((tgt_onlyAccessFaults target s).bind fun q s1 htgt =>
      writeLoc_bind_onlyAccessFaults ?_ .pushL s1) hexec).elim
    rw [(tgt_ok_effect htgt).1.keeps.pc]
    exact exists_encode_natCast (by exact_mod_cast hpc)
  | ret =>
    exact (noFault ((pop_onlyAccessFaults s).bind fun v s1 _ => checkAddr_onlyAccessFaults v s1) hexec).elim
  | jmp target | jeq target | jne target | jlt target | jle target | jgt target | jge target =>
    exact (noFault (jump_onlyAccessFaults _ target s) hexec).elim

/-! ## Witnesses -/

/-- The stack filled up to the last slot of memory, with a 5 on top. -/
def fullStack : State := { setSlot 255 0x40A00000#32 pointers with tsp := 255 }

/-- `MOV &255 R1`, into the last slot of memory, and `MOV PUSH R1` with room for one push and with none. -/
theorem witness_movStoresTheSourceValue :
    exec (.mov (.direct 255) (.reg 1)) pointers = .next { setSlot 255 0x437F0000#32 pointers with pc := 2 } ∧
    exec (.mov .push (.reg 1)) { pointers with tsp := 254 } =
      .next { setSlot 255 0x437F0000#32 { pointers with tsp := 255 } with pc := 2 } ∧
    exec (.mov .push (.reg 1)) fullStack = .next (takeFault (.addressOutOfRange (256 : Nat)) fullStack) := by
  have hencode : encode 255 = .word 0x437F0000#32 := by decide +kernel
  obtain ⟨hmemory, -⟩ := movStoresTheSourceValue (.direct 255) (.reg 1) pointers pointers pointers (.memL 255) 255 rfl
    (by decide +kernel) (by decide +kernel)
  obtain ⟨hroom, -⟩ := movStoresTheSourceValue .push (.reg 1) { pointers with tsp := 254 } { pointers with tsp := 254 }
    { pointers with tsp := 254 } .pushL 255 rfl rfl (by decide +kernel)
  obtain ⟨-, hfull⟩ := movStoresTheSourceValue .push (.reg 1) fullStack fullStack fullStack .pushL 255 rfl rfl
    (by decide +kernel)
  obtain ⟨w, hw, hexec⟩ := hmemory nofun
  obtain ⟨w', hw', hexec'⟩ := hroom fun _ => by decide
  obtain rfl : w = 0x437F0000#32 := Encoded.word.inj (hw.symm.trans hencode)
  obtain rfl : w' = 0x437F0000#32 := Encoded.word.inj (hw'.symm.trans hencode)
  exact ⟨hexec, hexec', hfull rfl (by decide)⟩

/-- `PUSH POP` on the full stack, where the pop makes the room for the push, and `PUSH #5`, which has none. -/
theorem witness_pushInstructionPushesTheValue :
    exec (.push .pop) fullStack = .next { setSlot 255 0x40A00000#32 fullStack with pc := 2 } ∧
    exec (.push (.imm 5)) fullStack = .next (takeFault (.addressOutOfRange (256 : Nat)) fullStack) := by
  have hencode : encode 5 = .word 0x40A00000#32 := by decide +kernel
  obtain ⟨hroom, -⟩ := pushInstructionPushesTheValue .pop fullStack { fullStack with tsp := 254 } 5 rfl
    (by decide +kernel)
  obtain ⟨-, hfull⟩ := pushInstructionPushesTheValue (.imm 5) fullStack fullStack 5 rfl rfl
  obtain ⟨w, hw, hexec⟩ := hroom (by decide)
  obtain rfl : w = 0x40A00000#32 := Encoded.word.inj (hw.symm.trans hencode)
  exact ⟨hexec, hfull (by decide)⟩

/-- `POP R2` on the 5 that was pushed and on the empty stack, and `POP #0`, which names no location. -/
theorem witness_popInstructionFillsTheDestination :
    exec (.pop (.reg 2)) pointers = .next { setReg 2 0x40A00000#32 { pointers with tsp := 224 } with pc := 2 } ∧
    exec (.pop (.reg 2)) { pointers with tsp := 224 } =
      .next (takeFault .stackUnderflow { pointers with tsp := 224 }) ∧
    exec (.pop (.imm 0)) pointers = .next (takeFault .noLocation pointers) := by
  have hencode : encode (decodeNum (readSlot pointers.mem 225)) = .word 0x40A00000#32 := by decide +kernel
  obtain ⟨hnoLocation, -⟩ := popInstructionFillsTheDestination (.imm 0) pointers
  obtain ⟨-, hreg⟩ := popInstructionFillsTheDestination (.reg 2) pointers
  obtain ⟨-, hreg'⟩ := popInstructionFillsTheDestination (.reg 2) { pointers with tsp := 224 }
  obtain ⟨-, hpopped⟩ := hreg (.regL 2) pointers rfl
  obtain ⟨hempty, -⟩ := hreg' (.regL 2) { pointers with tsp := 224 } rfl
  obtain ⟨w, hw, hexec⟩ := hpopped (by decide) (by decide)
  obtain rfl : w = 0x40A00000#32 := Encoded.word.inj (hw.symm.trans hencode)
  exact ⟨hexec, hempty (by decide), (hnoLocation _ _ rfl).2⟩

/-- `ADD R2 R2`, whose sum is too large, ends in EncodeFault, and it is one of the five instructions. -/
theorem witness_onlyArithmeticAndScanRaiseEncodeFault :
    ∃ i, exec i extremes = .next (takeFault (.encodeOverflow (3 * 2 ^ 128)) extremes) ∧
      ((∃ dst src, i = .add dst src) ∨ (∃ dst src, i = .sub dst src) ∨ (∃ dst src, i = .mul dst src) ∨
        (∃ dst src, i = .div dst src) ∨ ∃ dst, i = .scan dst) :=
  ⟨_, witness_unstorableResultRaisesEncodeFault.1,
    onlyArithmeticAndScanRaiseEncodeFault (.add (.reg 2) (.reg 2)) extremes _ .overflow 1 (by decide) rfl (by decide)
      witness_unstorableResultRaisesEncodeFault.1 rfl⟩

end Sys2Proof.Machine
end

-- PRNT, SCAN and EOP (46_io_control.md).
section
/-! SUPPORT. What PRNT and SCAN answer once their operand is resolved, and the obligations O26, O27 and O29 that rest on
it. What a SCAN does that has no input is O28's, above. -/

namespace Sys2Proof.Machine

/-! ## PRNT (R270) -/

theorem exec_prnt_of_val {src : Operand} {s s1 : State} {v : Number} (hval : val src s = .ok v s1) :
    exec (.prnt src) s = .next { emit v s1 with pc := s1.pc + 1 } := by
  rw [exec, execPrnt, hval, Res.bind_ok, advance_eq, conclude_ok, emit_pc]

/-- Settles O26: reading the source leaves PC and the output channel as they were. -/
theorem prntAppendsTheValue : Obligations.PrntAppendsTheValue := by
  intro src s s1 v hval
  have hkeeps : Keeps s s1 := (val_ok_effect hval).keeps
  rw [exec_prnt_of_val hval, emit, hkeeps.pc, hkeeps.output]

/-! ## SCAN (R271) -/

/-- The number leaves the channel before it is written (log entry 3). -/
theorem exec_scan_of_input {dst : Operand} {L : Loc} {s s1 : State} {v : Number} {rest : List Number}
    (hloc : loc dst s = .ok L s1) (hinput : s.input = v :: rest) :
    exec (.scan dst) s = conclude ((writeLoc L v { s1 with input := rest }).bind fun _ t => advance t) := by
  simp only [exec, execScan, hloc, hinput]

/-- What was kept while an operand was resolved is still kept when both states have the number taken out. -/
theorem Keeps.withInput {s t : State} (h : Keeps s t) (rest : List Number) :
    Keeps { s with input := rest } { t with input := rest } :=
  { h with input := rfl }

/-- Settles O27: the destination first, then what the input encodes to, then the room for a push (log entry 18). -/
theorem scanStoresTheNextInput : Obligations.ScanStoresTheNextInput := by
  intro dst s
  refine ⟨fun c s1 hloc => ?destination, fun L s1 v rest hloc hinput => ?_⟩
  case destination =>
    obtain rfl := loc_raise_state hloc
    exact exec_scan_of_loc_raise hloc
  obtain ⟨heffect, hvalid⟩ := loc_ok_effect hloc
  obtain ⟨hoverflow, hunderflow, -⟩ := writeLocEncodesThenStores L v { s1 with input := rest }
  rw [exec_scan_of_input hloc hinput]
  refine ⟨fun h => conclude_bind_of_raise (hoverflow h), fun h => conclude_bind_of_raise (hunderflow h),
    fun w hw => ⟨fun hroom => ?room, ?full⟩⟩
  case room =>
    exact conclude_writeLoc_advance (o := dst) (s := { s with input := rest }) hvalid (heffect.keeps.withInput rest) hw
      hroom
  case full =>
    rintro rfl hfull
    exact conclude_writeLoc_pushL_of_full (u := { s1 with input := rest }) hw hfull _

/-! ## EOP (R272) -/

/-- Settles O29: EOP is a clean halt and no more, so PC is not advanced. -/
theorem eopHaltsInPlace : Obligations.EopHaltsInPlace := fun _ => rfl

/-! ## Witnesses -/

/-- `PRNT R1+` reads the 5 in the last slot of memory, steps R1, and prints after what was printed before. -/
theorem witness_prntAppendsTheValue :
    exec (.prnt (.autoInc 1)) { fullStack with output := [-1] } =
      .next { setReg 1 0x43800000#32 fullStack with output := [-1, 5], pc := 2 } :=
  prntAppendsTheValue (.autoInc 1) { fullStack with output := [-1] }
    (setReg 1 0x43800000#32 { fullStack with output := [-1] }) 5 (by decide +kernel)

/-- `SCAN #3` takes no input; `SCAN R2` takes the first of two and stores it, or loses it to EncodeFault; `SCAN PUSH`
stores in the last slot, or finds the stack full. -/
theorem witness_scanStoresTheNextInput :
    exec (.scan (.imm 3)) { pointers with input := [5 / 2] } =
      .next (takeFault .noLocation { pointers with input := [5 / 2] }) ∧
    exec (.scan (.reg 2)) { pointers with input := [5 / 2, 7] } =
      .next { setReg 2 0x40200000#32 { pointers with input := [7] } with pc := 2 } ∧
    exec (.scan (.reg 2)) { pointers with input := [2 ^ 130, 7] } =
      .next (takeFault (.encodeOverflow (2 ^ 130)) { pointers with input := [7] }) ∧
    exec (.scan (.reg 2)) { pointers with input := [1 / 2 ^ 128, 7] } =
      .next (takeFault (.encodeUnderflow (1 / 2 ^ 128)) { pointers with input := [7] }) ∧
    exec (.scan .push) { pointers with tsp := 254, input := [5 / 2] } =
      .next { setSlot 255 0x40200000#32 { pointers with tsp := 255, input := [] } with pc := 2 } ∧
    exec (.scan .push) { fullStack with input := [5 / 2] } =
      .next (takeFault (.addressOutOfRange (256 : Nat)) { fullStack with input := [] }) := by
  have hencode : encode (5 / 2) = .word 0x40200000#32 := by decide +kernel
  have hreg (v : Number) := (scanStoresTheNextInput (.reg 2) { pointers with input := [v, 7] }).2
    (.regL 2) { pointers with input := [v, 7] } v [7] rfl rfl
  have hpush (s : State) := (scanStoresTheNextInput .push s).2 .pushL s (5 / 2) [] rfl
  obtain ⟨hnoLocation, -⟩ := scanStoresTheNextInput (.imm 3) { pointers with input := [5 / 2] }
  obtain ⟨-, -, hstored⟩ := hreg (5 / 2)
  obtain ⟨hoverflow, -⟩ := hreg (2 ^ 130)
  obtain ⟨-, hunderflow, -⟩ := hreg (1 / 2 ^ 128)
  obtain ⟨-, -, hlast⟩ := hpush { pointers with tsp := 254, input := [5 / 2] } rfl
  obtain ⟨-, -, hnone⟩ := hpush { fullStack with input := [5 / 2] } rfl
  exact ⟨hnoLocation _ _ rfl, (hstored _ hencode).1 nofun, hoverflow (by decide +kernel),
    hunderflow (by decide +kernel), (hlast _ hencode).1 fun _ => by decide, (hnone _ hencode).2 rfl (by decide)⟩

end Sys2Proof.Machine
end

-- Fatal and recovered faults, and the reset state (60_exceptions.md, 70_reset_and_hazards.md).
section
/-! SUPPORT. Which of an instruction's endings is a fault, what the ALU answers for a zero divisor and how its report
goes with the store, what reset holds, and the obligations O19, O35 and O53 that rest on them. -/

namespace Sys2Proof.Machine

/-! ## Fatal faults (R303, R305) -/

/-- Of the ways an instruction can end, only a fault leaves a running machine faulted: what came before it is the
resolving of operands, and in SCAN the taking of the input. -/
theorem Ended.eq_takeFault_of_faulted {i : Instr} {s t : State} (he : Ended i s t) (hrunning : s.status = .running)
    {k : FaultKind} {r : FaultReason} {p : Nat} (ht : t.status = .faulted k r p) :
    ∃ c u inp, Resolved i s u ∧ c.kind.fatal = true ∧ t = takeFault c { u with input := inp } := by
  have still_running {u : State} (hu : Resolved i s u) : u.status ≠ .faulted k r p := by
    rw [hu.keeps.status, hrunning]
    exact nofun
  cases he with
  | fault c u inp hu _ hfatal => exact ⟨c, u, inp, hu, hfatal, rfl⟩
  | stored L w u pc cc inp d hu => exact (still_running hu ((put_status L w u).symm.trans ht)).elim
  | moved u pc out hu => exact (still_running hu ht).elim
  | halted => exact nomatch ht
  | waits => exact (still_running (Resolved.refl i s) ht).elim

/-- Settles O35: the fault is taken in a state that resolving operands reached, where only stepped registers, TSP and
the input differ. -/
theorem fatalFaultIsPrecise : Obligations.FatalFaultIsPrecise := by
  intro i s t k r p hrunning hexec ht
  obtain ⟨c, u, inp, hu, hfatal, rfl⟩ := (exec_ended hexec).eq_takeFault_of_faulted hrunning ht
  have hkeeps : Keeps s u := hu.keeps
  obtain ⟨rfl, rfl, rfl⟩ := Status.faulted.inj ht
  exact ⟨hkeeps.pc, hkeeps.pc, hkeeps.ir, hkeeps.mem, hkeeps.cc, hkeeps.output, hfatal, hu.regs, c, rfl, rfl,
    by rw [takeFault_diag, ← hkeeps.diag, ← hkeeps.pc]⟩

/-! ## The zero divisor (R304) -/

theorem aluDiv_zero (x : Number) : aluDiv x 0 = { result := 0, recovered := some .divideByZero } := if_pos rfl

theorem aluMod_zero (x : Number) : aluMod x 0 = { result := 0, recovered := some .moduloByZero } := if_pos rfl

/-- A store reads nothing of the diagnostic channel, so it makes no difference that the report goes out first. -/
theorem put_report (L : Loc) (w : Word) (c : FaultCause) (s : State) :
    L.put w (report c s) = { L.put w s with diag := s.diag ++ [{ cause := c, pc := s.pc }] } := by
  cases L <;> rfl

/-- An arithmetic instruction that recovers from a fault stores the neutral result 0 and goes on to the next slot, with
the fault reported at its own address. -/
theorem conclude_arith_of_recovered {op : Number → Number → AluResult} {dst src : Operand} {s s1 s2 : State} {L : Loc}
    {x y : Number} {c : FaultCause} (hloc : loc dst s = .ok L s1) (hread : readLoc L s1 = .ok x s1)
    (hval : val src s1 = .ok y s2) (hop : op x y = { result := 0, recovered := some c }) :
    conclude ((arith op dst src s).bind fun _ s3 => advance s3) =
      .next { L.put 0#32 s2 with pc := s.pc + 1, diag := s2.diag ++ [{ cause := c, pc := s.pc }] } := by
  have hpc : s2.pc = s.pc := pc_of_operands hloc hval
  have harith : arith op dst src s = .ok 0 (L.put 0#32 (report c s2)) :=
    arith_eq_ok.mpr ⟨L, s1, x, y, s2, 0#32, hloc, hread, hval, by rw [hop]; exact encode_zero, by rw [hop],
      by rw [hop]; rfl⟩
  rw [harith, Res.bind_ok, advance_eq, conclude_ok, put_pc, report_pc, put_report, hpc]

/-- Settles O19. -/
theorem zeroDivisorIsReportedAndRecovered : Obligations.ZeroDivisorIsReportedAndRecovered :=
  fun _ _ _ _ _ _ x hloc hread hval =>
    ⟨conclude_arith_of_recovered hloc hread hval (aluDiv_zero x),
      conclude_arith_of_recovered hloc hread hval (aluMod_zero x)⟩

/-! ## Reset (R330) -/

@[simp] theorem resetWith_nreg (p : Params) : (State.resetWith p).nreg = p.nreg := List.length_replicate

/-- Past NREG too, since `regWord` reads 0 where there is no register. -/
@[simp] theorem regWord_resetWith (p : Params) (n : Nat) : regWord (State.resetWith p) n = 0#32 := by
  rw [regWord, resetWith_regs]
  exact List.getElem?_getD_replicate_default_eq _ _ _

/-- Settles O53, field by field. -/
theorem resetHasTheSpecifiedValues : Obligations.ResetHasTheSpecifiedValues := fun p =>
  ⟨resetWith_nreg p, regWord_resetWith p, readSlot_nil, resetWith_pc p, resetWith_ir p, rfl, resetWith_tsp p,
    resetWith_cc p, resetWith_status p, resetWith_output p, resetWith_diag p⟩

/-! ## Witnesses -/

/-- `MOV PUSH R1+` on the full stack: R1 has been stepped when the push faults, and R14 reads as before. -/
theorem exec_mov_push_fullStack :
    exec (.mov .push (.autoInc 1)) fullStack =
      .next (takeFault (.addressOutOfRange (256 : Nat)) (setReg 1 0x43800000#32 fullStack)) :=
  (movStoresTheSourceValue .push (.autoInc 1) fullStack fullStack (setReg 1 0x43800000#32 fullStack) .pushL 5 rfl rfl
    (by decide +kernel)).2 rfl (by decide)

theorem witness_fatalFaultIsPrecise :
    ∃ t, exec (.mov .push (.autoInc 1)) fullStack = .next t ∧ t.mem = fullStack.mem ∧
      regWord t 14 = 0xBF800000#32 ∧ regWord t 1 ≠ regWord fullStack 1 := by
  obtain ⟨-, -, -, hmem, -, -, -, hregs, -⟩ := fatalFaultIsPrecise _ fullStack _ .addressFault .outOfRange 1 rfl
    exec_mov_push_fullStack rfl
  exact ⟨_, exec_mov_push_fullStack, hmem, (hregs 14 (by decide)).trans (by decide), by decide⟩

/-- `DIV R1 R0` and `MOD R1 R0`, where R0 holds 0. -/
theorem witness_zeroDivisorIsReportedAndRecovered :
    exec (.div (.reg 1) (.reg 0)) pointers =
      .next { setReg 1 0#32 pointers with pc := 2, diag := [{ cause := .divideByZero, pc := 1 }] } ∧
    exec (.mod (.reg 1) (.reg 0)) pointers =
      .next { setReg 1 0#32 pointers with pc := 2, diag := [{ cause := .moduloByZero, pc := 1 }] } :=
  zeroDivisorIsReportedAndRecovered (.reg 1) (.reg 0) pointers pointers pointers (.regL 1) 255 rfl
    (by decide +kernel) (by decide +kernel)

/-- The default parameters: code from slot 0, and the empty stack at slot 224. -/
theorem witness_resetHasTheSpecifiedValues : State.reset.pc = 0 ∧ State.reset.tsp = 224 := by
  obtain ⟨-, -, -, hpc, -, hspr, htsp, -⟩ := resetHasTheSpecifiedValues Params.default
  exact ⟨hpc, htsp.trans hspr⟩

end Sys2Proof.Machine
end
